-- ==== Sys2Proof/Word.lean ====
section
/-! DEFINITION. The words of the block: 32-bit descriptor words and host addresses (00_scope.md R14, R18), bytes, 7-bit
target addresses (30_encoding.md R64), and the command descriptor as a value (20_memory.md R61). -/

namespace Sys2Proof

/-- A descriptor word or a host address, 32 bits (30_encoding.md R63, 00_scope.md R14). -/
abbrev Word := BitVec 32

/-- A byte of host memory, of the wire or of a reader queue. -/
abbrev Byte := BitVec 8

/-- A 7-bit I2C target address (30_encoding.md R64). -/
abbrev Addr7 := BitVec 7

/-- A command descriptor: word 0 and the four operand words that the longest command has (30_encoding.md R63). It is a value
delivered with the command (20_memory.md R61). The words past a command's own length are not read (log 16). -/
structure Desc where
  w0 : Word := 0
  w1 : Word := 0
  w2 : Word := 0
  w3 : Word := 0
  w4 : Word := 0
  deriving DecidableEq, Repr, Inhabited

end Sys2Proof
end

