-- ==== Sys2Proof/Config.lean ====
section
/-! DEFINITION. What an implementation fixes (00_scope.md section 3), the vocabulary of the agents outside the block
(00_scope.md R16, 40_i2c_handshake.md R83), and the free values: opaque constants with no body. -/

namespace Sys2Proof

/-- The speed classes (00_scope.md R3, R7). -/
inductive Speed where
  | low | normal | fast
  deriving DecidableEq, Repr, Inhabited

/-- The Bus Handle, CFG[b]: the immutable configuration record of one bus (00_scope.md R7). -/
structure BusHandle where
  base   : Word := 0
  clkBus : Nat := 0
  irq    : Nat := 0
  ccrCfg : BitVec 16 := 0
  speed  : Speed := .normal
  sclPin : Nat := 0
  sdaPin : Nat := 0
  deriving DecidableEq, Repr, Inhabited

/-- The error kinds (60_exceptions.md R122). -/
inductive ErrorKind where
  | unsupported | noAck | dataNack | arbLost | busError | overrun | timeout | noMatch
  deriving DecidableEq, Repr, Inhabited

/-- ERR_CODE: the numeric value of each error kind, a 32-bit two's-complement word (00_scope.md R12, R20). -/
structure ErrCodes where
  unsupported : BitVec 32
  noAck       : BitVec 32
  dataNack    : BitVec 32
  arbLost     : BitVec 32
  busError    : BitVec 32
  overrun     : BitVec 32
  timeout     : BitVec 32
  noMatch     : BitVec 32
  deriving DecidableEq, Repr, Inhabited

/-- SPEED_HZ, read by no rule (00_scope.md R8). -/
structure SpeedHz where
  low    : Nat
  normal : Nat
  fast   : Nat
  deriving DecidableEq, Repr, Inhabited

/-- BUS_ERROR_POLICY (00_scope.md R15, 40_i2c_handshake.md R93). -/
inductive BusErrorPolicy where
  | hang | report
  deriving DecidableEq, Repr, Inhabited

/-- SFR_TIMEOUT_CONSUME (00_scope.md R15, 43_serial_frame_reader.md R114). -/
inductive TimeoutConsume where
  | incremental | allOrNothing
  deriving DecidableEq, Repr, Inhabited

/-- A range of host memory that the launch memory allocates, and whether it may be written (20_memory.md R49). -/
structure Region where
  base     : Nat
  size     : Nat
  writable : Bool
  deriving DecidableEq, Repr, Inhabited

/-- The parameters of the block as a whole (00_scope.md R8, R10 to R12, R15; 20_memory.md R49). The per-bus record CFG[b] stands
in each bus and SFR_CAP[r] in each reader; I2C_NUMOF and SFR_NUMOF are the numbers of buses and readers (R6, R7, R9). -/
structure Config where
  retryLimit     : Option Nat
  busErrorPolicy : BusErrorPolicy
  timeoutConsume : TimeoutConsume
  recoveryPulses : Nat
  errCodes       : ErrCodes
  speedHz        : SpeedHz
  launch         : List Region
  deriving DecidableEq, Repr, Inhabited

/-- ERR_CODE(k) (00_scope.md R12). -/
def ErrCodes.code (c : ErrCodes) : ErrorKind → BitVec 32
  | .unsupported => c.unsupported
  | .noAck => c.noAck
  | .dataNack => c.dataNack
  | .arbLost => c.arbLost
  | .busError => c.busError
  | .overrun => c.overrun
  | .timeout => c.timeout
  | .noMatch => c.noMatch

/-- The constraint of 00_scope.md R12: every value negative, the values pairwise distinct. -/
def ErrCodes.legal (c : ErrCodes) : Bool :=
  let l := [c.unsupported, c.noAck, c.dataNack, c.arbLost, c.busError, c.overrun, c.timeout, c.noMatch]
  l.all (fun x => x.msb) && decide l.Nodup

/-- The parameters that State.reset takes (log 9, log 12): the defaults 00_scope.md R10 and R15 give, the values
95_test_vectors.md assumes, and for the rest a value of the model's. DESIGN CHOICE. The launch memory admits every address, those of device
registers among them, which 20_memory.md R54 says it must not admit and which no rule places (R55): they read and write as plain memory
(log 12). -/
def Config.initial : Config :=
  { retryLimit := none
    busErrorPolicy := .hang
    timeoutConsume := .incremental
    recoveryPulses := 9
    errCodes := ⟨-1, -2, -3, -4, -5, -6, -7, -8⟩
    speedHz := ⟨10000, 100000, 400000⟩
    launch := [⟨0, 4294967296, true⟩] }

/-- What BusEnv(b) answers a wire primitive (40_i2c_handshake.md R83). -/
inductive Answer where
  | ok | ack | nack | arbLost | busError | overrun
  | byte (v : Byte)
  /-- The environment never answers (40_i2c_handshake.md R82). -/
  | wedged
  deriving DecidableEq, Repr, Inhabited

/-- One agent's turn: which agent moves next, and what it draws (00_scope.md R16, R21; 60_exceptions.md R131; log 1). -/
inductive Turn where
  /-- Task(t) moves: at most `n` micro-steps of its command in progress, or of the next command of its program (log 2). -/
  | task (t n : Nat)
  /-- UartRx(r) issues the descriptor `d` in interrupt context (60_exceptions.md R128, R133; log 15). -/
  | uart (r : Nat) (d : Desc)
  /-- BusEnv(b) draws one more answer (40_i2c_handshake.md R82; log 3). -/
  | busAnswer (b : Nat) (a : Answer)
  /-- BusEnv(b) sets or clears BUSY, while the engine is not master (10_state.md R33). -/
  | busBusy (b : Nat) (v : Bool)
  /-- Clock advances `S.now` by `d`, at least 1 (10_state.md R40). -/
  | clock (d : Nat)
  /-- Another agent stores byte `v` to plain host memory at `a` (20_memory.md R54, 70_reset_and_hazards.md R154; log 21). -/
  | hostStore (a : Nat) (v : Byte)
  deriving DecidableEq, Repr, Inhabited

/-- FREE VALUE: the turn taken when the schedule in State lists none (log 1). Applied to State's counter `draws`. -/
opaque Config.freeTurn : Nat → Turn

/-- FREE VALUE: BUSY after a stuck-bus recovery, "the stuck device may or may not have released" (40_i2c_handshake.md R96;
log 7). Applied to State's counter `draws`. -/
opaque Config.busyAfterRecovery : Nat → Bool

end Sys2Proof
end

