-- ==== Sys2Proof/Syntax.lean ====
section
/-! DEFINITION. The commands of the block, one constructor per row of spec/opcode_table.json (30_encoding.md R68), with their
operands as the numbers the spec reads them as (30_encoding.md R73, 00_scope.md R22). -/

namespace Sys2Proof

/-- The transfer flags of W0[19:16] (30_encoding.md R69). -/
structure XferFlags where
  addr10  : Bool := false
  reg16   : Bool := false
  nostop  : Bool := false
  nostart : Bool := false
  deriving DecidableEq, Repr, Inhabited

/-- A decoded command. Indexes, counts, host addresses and times are unsigned numbers on which the spec computes without a
width (00_scope.md R22); WellFormed says which of them an encoding can hold. -/
inductive Instr where
  /-- I2C_INIT (R97). -/
  | i2cInit (b : Nat)
  /-- I2C_ACQUIRE (R98). -/
  | i2cAcquire (b : Nat)
  /-- I2C_RELEASE (R99). -/
  | i2cRelease (b : Nat)
  /-- I2C_READ_BYTES (R108). -/
  | i2cRead (b : Nat) (addr : Addr7) (flags : XferFlags) (len buf : Nat)
  /-- I2C_WRITE_BYTES (R109). -/
  | i2cWrite (b : Nat) (addr : Addr7) (flags : XferFlags) (len buf : Nat)
  /-- I2C_READ_REGS (R110). -/
  | i2cReadRegs (b : Nat) (addr : Addr7) (reg : Byte) (flags : XferFlags) (len buf : Nat)
  /-- I2C_WRITE_REGS (R111). -/
  | i2cWriteRegs (b : Nat) (addr : Addr7) (reg : Byte) (flags : XferFlags) (len buf : Nat)
  /-- SFR_WRITE_ONE (R116). -/
  | sfrPush (r : Nat) (byte : Byte)
  /-- SFR_READ_TIMEOUT (R117). -/
  | sfrRead (r n buf timeout : Nat)
  /-- SFR_READ_UNTIL (R118). -/
  | sfrReadUntil (r patlen max buf timeout pat : Nat)
  deriving DecidableEq, Repr, Inhabited

end Sys2Proof
end

