-- ==== Sys2Proof/WellFormed.lean ====
section
/-! DEFINITION. Which commands an encoding can hold: every field within the bits the layouts give it (30_encoding.md R64, R65,
R66). -/

namespace Sys2Proof

/-- The 4-bit index field IDX (30_encoding.md R64, R65). -/
def idxFits (b : Nat) : Bool := decide (b < 16)

/-- A whole operand word (30_encoding.md R66, R73). -/
def wordFits (n : Nat) : Bool := decide (n < 4294967296)

/-- The 8-bit field PATLEN (30_encoding.md R65). -/
def byteFits (n : Nat) : Bool := decide (n < 256)

/-- Every field of the command fits its place in the descriptor. -/
def Instr.wellFormed : Instr → Bool
  | .i2cInit b => idxFits b
  | .i2cAcquire b => idxFits b
  | .i2cRelease b => idxFits b
  | .i2cRead b _ _ len buf => idxFits b && wordFits len && wordFits buf
  | .i2cWrite b _ _ len buf => idxFits b && wordFits len && wordFits buf
  | .i2cReadRegs b _ _ _ len buf => idxFits b && wordFits len && wordFits buf
  | .i2cWriteRegs b _ _ _ len buf => idxFits b && wordFits len && wordFits buf
  | .sfrPush r _ => idxFits r
  | .sfrRead r n buf timeout => idxFits r && wordFits n && wordFits buf && wordFits timeout
  | .sfrReadUntil r patlen max buf timeout pat =>
    idxFits r && byteFits patlen && wordFits max && wordFits buf && wordFits timeout && wordFits pat

end Sys2Proof
end

