-- ==== Sys2Proof/Decode.lean ====
section
/-! DEFINITION. Decoding a command descriptor, total, rejecting by name what 30_encoding.md R71 reserves; and after it the
encoder, written from the same layouts (30_encoding.md R64, R65, R66, R68, R69). -/

namespace Sys2Proof

/-- `w[hi:lo]`, read as an unsigned number (00_scope.md R18). -/
def field (w : Word) (hi lo : Nat) : Nat := w.toNat / 2 ^ lo % 2 ^ (hi + 1 - lo)

/-- Why a descriptor is reserved: the clauses of 30_encoding.md R71. -/
inductive Reject where
  /-- OP is 0x0 or in 0xB to 0xF. -/
  | reservedOp
  /-- OP 0x1, 0x2 or 0x3 with `W0[31:8]` not 0. -/
  | controlFields
  /-- A transfer with bit 15 or one of the bits 31:28 set. -/
  | transferBits
  /-- OP 0x4 or 0x5 with REG not 0. -/
  | regOnBytes
  /-- OP 0x8 or 0xA with `W0[31:16]` not 0. -/
  | serialBits
  /-- OP 0x9 with `W0[31:8]` not 0. -/
  | readFields
  deriving DecidableEq, Repr

/-- The number of words of a descriptor, by OP (30_encoding.md R67). 0 for the reserved operation codes. -/
def descLength (op : Nat) : Nat :=
  match op with
  | 1 | 2 | 3 | 8 => 1
  | 4 | 5 | 6 | 7 => 3
  | 9 => 4
  | 10 => 5
  | _ => 0

/-- The four transfer flags from the number in W0[19:16] (30_encoding.md R69). -/
def flagsOfNat (n : Nat) : XferFlags :=
  { addr10 := n % 2 == 1, reg16 := n / 2 % 2 == 1, nostop := n / 4 % 2 == 1, nostart := n / 8 % 2 == 1 }

/-- A bus control command: everything above IDX is 0 (30_encoding.md R64, R71). -/
def decodeControl (w : Word) (mk : Nat → Instr) : Except Reject Instr :=
  if field w 31 8 ≠ 0 then .error .controlFields else .ok (mk (field w 7 4))

/-- The layout every transfer shares: bit 15 and the bits 31:28 are 0 (30_encoding.md R64, R71). -/
def transferBitsOk (w : Word) : Bool := field w 15 15 == 0 && field w 31 28 == 0

/-- A byte transfer: REG is 0 (30_encoding.md R64, R71). -/
def decodeBytes (d : Desc) (mk : Nat → Addr7 → XferFlags → Nat → Nat → Instr) : Except Reject Instr :=
  if transferBitsOk d.w0 = false then .error .transferBits
  else if field d.w0 27 20 ≠ 0 then .error .regOnBytes
  else .ok (mk (field d.w0 7 4) (BitVec.ofNat 7 (field d.w0 14 8)) (flagsOfNat (field d.w0 19 16)) d.w1.toNat d.w2.toNat)

/-- A register transfer (30_encoding.md R64, R66). -/
def decodeRegs (d : Desc) (mk : Nat → Addr7 → Byte → XferFlags → Nat → Nat → Instr) : Except Reject Instr :=
  if transferBitsOk d.w0 = false then .error .transferBits
  else .ok (mk (field d.w0 7 4) (BitVec.ofNat 7 (field d.w0 14 8)) (BitVec.ofNat 8 (field d.w0 27 20))
    (flagsOfNat (field d.w0 19 16)) d.w1.toNat d.w2.toNat)

/-- SFR_WRITE_ONE (30_encoding.md R65). -/
def decodePush (d : Desc) : Except Reject Instr :=
  if field d.w0 31 16 ≠ 0 then .error .serialBits
  else .ok (.sfrPush (field d.w0 7 4) (BitVec.ofNat 8 (field d.w0 15 8)))

/-- SFR_READ_TIMEOUT (30_encoding.md R65, R66). -/
def decodeSfrRead (d : Desc) : Except Reject Instr :=
  if field d.w0 31 8 ≠ 0 then .error .readFields
  else .ok (.sfrRead (field d.w0 7 4) d.w1.toNat d.w2.toNat d.w3.toNat)

/-- SFR_READ_UNTIL (30_encoding.md R65, R66). -/
def decodeSfrUntil (d : Desc) : Except Reject Instr :=
  if field d.w0 31 16 ≠ 0 then .error .serialBits
  else .ok (.sfrReadUntil (field d.w0 7 4) (field d.w0 15 8) d.w1.toNat d.w2.toNat d.w3.toNat d.w4.toNat)

/-- Decode a descriptor: one operation of 30_encoding.md R68 with its fields, or reserved by name (R71, R72). -/
def decode (d : Desc) : Except Reject Instr :=
  match field d.w0 3 0 with
  | 1 => decodeControl d.w0 .i2cInit
  | 2 => decodeControl d.w0 .i2cAcquire
  | 3 => decodeControl d.w0 .i2cRelease
  | 4 => decodeBytes d .i2cRead
  | 5 => decodeBytes d .i2cWrite
  | 6 => decodeRegs d .i2cReadRegs
  | 7 => decodeRegs d .i2cWriteRegs
  | 8 => decodePush d
  | 9 => decodeSfrRead d
  | 10 => decodeSfrUntil d
  | _ => .error .reservedOp

/-- The number of the transfer flags in W0[19:16] (30_encoding.md R69). -/
def flagsToNat (f : XferFlags) : Nat := f.addr10.toNat + 2 * f.reg16.toNat + 4 * f.nostop.toNat + 8 * f.nostart.toNat

/-- A word from the number it is read as. -/
def wordOf (n : Nat) : Word := BitVec.ofNat 32 n

/-- W0 of an I2C command: OP, IDX, ADDR, FLAGS and REG at their places (30_encoding.md R64). -/
def i2cWord0 (op b addr flags reg : Nat) : Word := wordOf (op + 16 * b + 256 * addr + 65536 * flags + 1048576 * reg)

/-- W0 of a serial frame reader command: OP, IDX and the byte field (30_encoding.md R65). -/
def sfrWord0 (op r byte : Nat) : Word := wordOf (op + 16 * r + 256 * byte)

/-- The descriptor of a command (30_encoding.md R64 to R69). -/
def encode : Instr → Desc
  | .i2cInit b => { w0 := i2cWord0 1 b 0 0 0 }
  | .i2cAcquire b => { w0 := i2cWord0 2 b 0 0 0 }
  | .i2cRelease b => { w0 := i2cWord0 3 b 0 0 0 }
  | .i2cRead b addr f len buf => { w0 := i2cWord0 4 b addr.toNat (flagsToNat f) 0, w1 := wordOf len, w2 := wordOf buf }
  | .i2cWrite b addr f len buf => { w0 := i2cWord0 5 b addr.toNat (flagsToNat f) 0, w1 := wordOf len, w2 := wordOf buf }
  | .i2cReadRegs b addr reg f len buf =>
    { w0 := i2cWord0 6 b addr.toNat (flagsToNat f) reg.toNat, w1 := wordOf len, w2 := wordOf buf }
  | .i2cWriteRegs b addr reg f len buf =>
    { w0 := i2cWord0 7 b addr.toNat (flagsToNat f) reg.toNat, w1 := wordOf len, w2 := wordOf buf }
  | .sfrPush r byte => { w0 := sfrWord0 8 r byte.toNat }
  | .sfrRead r n buf timeout => { w0 := sfrWord0 9 r 0, w1 := wordOf n, w2 := wordOf buf, w3 := wordOf timeout }
  | .sfrReadUntil r patlen max buf timeout pat =>
    { w0 := sfrWord0 10 r patlen, w1 := wordOf max, w2 := wordOf buf, w3 := wordOf timeout, w4 := wordOf pat }

/-- Word 0 of a command, as a fault record names it (60_exceptions.md R126). -/
def Instr.word0 (i : Instr) : Word := (encode i).w0

/-- The descriptor whose `nbits` bits are `w`, bit 0 the least significant bit of word 0 and a later word's bits counting on;
every bit from `nbits` up is 0. -/
def tableDesc (nbits w : Nat) : Desc :=
  let v := w % 2 ^ nbits
  { w0 := wordOf v, w1 := wordOf (v / 2 ^ 32), w2 := wordOf (v / 2 ^ 64), w3 := wordOf (v / 2 ^ 96), w4 := wordOf (v / 2 ^ 128) }

/-- What the decoder reads from an instruction of the opcode table. -/
def decodeTableWord (nbits w : Nat) : Option Instr :=
  match decode (tableDesc nbits w) with
  | .ok i => some i
  | .error _ => none

end Sys2Proof
end

