-- ==== Sys2Proof/Machine/State.lean ====
section
/-! DEFINITION. The state of the block (10_state.md): plain data, holding everything the spec gives the machine; the micro-steps a
command in progress has still to run; the fault record; the reasons a step can stop; and the state after reset
(70_reset_and_hazards.md R140). -/

namespace Sys2Proof.Machine

/-- An agent that issues commands (10_state.md R42). -/
inductive Agent where
  | task (t : Nat)
  | uartRx (r : Nat)
  deriving DecidableEq, Repr, Inhabited

/-- The faults of 60_exceptions.md R124. -/
inductive FaultCode where
  | invalidIndex | reservedEncoding | wrongContext | notInitialised | doubleInit | invalidOperand | lockNotOwned
  | badContinuation | concurrentReader
  deriving DecidableEq, Repr, Inhabited

/-- The sticky fault record (10_state.md R41). -/
structure FaultRec where
  code  : FaultCode
  agent : Agent
  w0    : Word
  deriving DecidableEq, Repr, Inhabited

/-- How a command ended (00_scope.md R20; 60_exceptions.md R121, R122). -/
inductive Result where
  | ok (n : Nat)
  | err (k : ErrorKind)
  deriving DecidableEq, Repr, Inhabited

/-- The Bus Lock (10_state.md R27). -/
inductive Lock where
  | free
  | owned (t : Nat)
  deriving DecidableEq, Repr, Inhabited

/-- The direction of a transfer (42_i2c_transfers.md R103). -/
inductive Dir where
  | write | read
  deriving DecidableEq, Repr, Inhabited

/-- The transaction state of a bus (10_state.md R31). -/
inductive Phase where
  | idle
  | heldW (a : Addr7)
  | heldR (a : Addr7)
  deriving DecidableEq, Repr, Inhabited

/-- The function of the SCL and SDA pins (10_state.md R32). -/
inductive Pins where
  | unconfigured | i2c | gpio
  deriving DecidableEq, Repr, Inhabited

/-- An acknowledge bit (10_state.md R37). -/
inductive AckBit where
  | ack | nack
  deriving DecidableEq, Repr, Inhabited

/-- A wire event (10_state.md R37). -/
inductive WireEvent where
  /-- `S`, START from the idle bus. -/
  | start
  /-- `Sr`, repeated START. -/
  | restart
  /-- `ADDR(v, k)`. -/
  | addr (v : Byte) (k : AckBit)
  /-- `TX(v, k)`. -/
  | tx (v : Byte) (k : AckBit)
  /-- `RX(v, k)`. -/
  | rx (v : Byte) (k : AckBit)
  /-- `P`, STOP. -/
  | stop
  | lost | berr | ovr
  /-- `RECOVER(n)`. -/
  | recover (n : Nat)
  deriving DecidableEq, Repr, Inhabited

/-- The event flags of a controller (10_state.md R34). -/
structure EventFlags where
  sb   : Bool := false
  addr : Bool := false
  af   : Bool := false
  txe  : Bool := false
  btf  : Bool := false
  rxne : Bool := false
  arlo : Bool := false
  berr : Bool := false
  ovr  : Bool := false
  deriving DecidableEq, Repr, Inhabited

/-- The controller of a bus: control fields (10_state.md R32), status fields (R33), event flags (R34). -/
structure Ctl where
  pe     : Bool := false
  ccr    : BitVec 16 := 0
  fs     : Bool := false
  ackEn  : Bool := false
  pins   : Pins := .unconfigured
  busy   : Bool := false
  master : Bool := false
  ev     : EventFlags := {}
  deriving DecidableEq, Repr, Inhabited

/-- One bus (10_state.md sections 2 to 4). `answers` is the model's own field: the coming answers of BusEnv(b), drawn in advance
(log 3). -/
structure Bus where
  handle   : BusHandle := {}
  initDone : Bool := false
  lock     : Lock := .free
  waiters  : List Nat := []
  clkEn    : Bool := false
  phase    : Phase := .idle
  ctl      : Ctl := {}
  trace    : List WireEvent := []
  answers  : List Answer := []
  deriving DecidableEq, Repr, Inhabited

/-- One serial frame reader (10_state.md section 5). `rxResults` lists the results its producer was given (43_serial_frame_reader.md
R116, 70_reset_and_hazards.md R151). -/
structure Reader where
  cap       : Nat := 1
  q         : List Byte := []
  consumer  : Option Nat := none
  rxResults : List Result := []
  deriving DecidableEq, Repr, Inhabited

/-- One micro-step of a command (00_scope.md R17): a line of the spec's pseudocode, with the locals it needs. -/
inductive Micro where
  /-- `S.lock[b] <- Free; S.waiters[b] <- {}` (R97). -/
  | resetLock (b : Nat)
  /-- `S.clk_en[b] <- on` (R97, R98, R99). -/
  | clock (b : Nat) (on : Bool)
  /-- `S.ctl[b].PINS <- p` (R96, R97). -/
  | pins (b : Nat) (p : Pins)
  /-- `S.ctl[b].PE <- on` (R96, R97). -/
  | enable (b : Nat) (on : Bool)
  /-- `S.ctl[b].CCR <- CCR_CFG[b]` (R95). -/
  | setCcr (b : Nat)
  /-- `S.ctl[b].FS <- (SPEED[b] = Fast)` (R95). -/
  | setFs (b : Nat)
  /-- `if S.ctl[b].BUSY = 1: BusRecover(b)` (R97). -/
  | recoverIfBusy (b : Nat)
  /-- `ask BusEnv(b).recover(RECOVERY_PULSES)` (R96). -/
  | askRecover (b : Nat)
  /-- `emit(b, RECOVER(RECOVERY_PULSES))` (R96). -/
  | noteRecover (b : Nat)
  /-- `S.ctl[b].BUSY <- draw` (R96). -/
  | drawBusy (b : Nat)
  /-- `S.phase[b] <- p` (R90, R94, R97, R106, R110, R111). -/
  | setPhase (b : Nat) (p : Phase)
  /-- `S.init_done[b] <- 1` (R97). -/
  | setInitDone (b : Nat)
  /-- `S.waiters[b] <- S.waiters[b] + {t}` (R98). -/
  | joinWaiters (b : Nat)
  /-- `suspend_until(S.lock[b] = Free)` and, in one atomic step with the test, the lock taken (R98). -/
  | takeLock (b : Nat)
  /-- `S.pm_deep_blocks <- S.pm_deep_blocks + 1` (R98). -/
  | pmBlock
  /-- `S.pm_deep_blocks <- S.pm_deep_blocks - 1` (R99). -/
  | pmUnblock
  /-- `wait_until(S.ctl[b].BUSY = 0)` (R86, R99). -/
  | waitNotBusy (b : Nat)
  /-- `S.lock[b] <- Free` (R99). -/
  | freeLock (b : Nat)
  /-- GenStart inside StartAddr: which of the two branches, by MASTER (R86, R91). -/
  | genStart (b : Nat) (addr : Addr7) (dir : Dir) (retries : Nat)
  /-- `ask BusEnv(b).start()`, `first` in the branch MASTER = 0 (R86). -/
  | askStart (b : Nat) (addr : Addr7) (dir : Dir) (retries : Nat) (first : Bool)
  /-- What GenStart does with the answer (R86, R91). -/
  | gotStart (b : Nat) (addr : Addr7) (dir : Dir) (retries : Nat) (first : Bool) (a : Answer)
  /-- `ask BusEnv(b).addr(v)` (R87). -/
  | askAddr (b : Nat) (addr : Addr7) (dir : Dir) (retries : Nat)
  /-- What SendAddr and the retry loop do with the answer (R87, R91). -/
  | gotAddr (b : Nat) (addr : Addr7) (dir : Dir) (retries : Nat) (a : Answer)
  /-- `ask BusEnv(b).send(v)` (R88). -/
  | askSend (b : Nat) (v : Byte)
  /-- What SendByte and its transfer do with the answer (R88, R109). -/
  | gotSend (b : Nat) (v : Byte) (a : Answer)
  /-- `S.ctl[b].ACK_EN <- (k = A)` (R89). -/
  | setAckEn (b : Nat) (k : AckBit)
  /-- `ask BusEnv(b).recv(k)`, the byte to go to host address `dst` (R89). -/
  | askRecv (b : Nat) (k : AckBit) (dst : Nat)
  /-- What RecvByte and its transfer do with the answer (R89, R108). -/
  | gotRecv (b : Nat) (k : AckBit) (dst : Nat) (a : Answer)
  /-- `ask BusEnv(b).stop()` (R90). -/
  | askStop (b : Nat)
  /-- `emit(b, P)` (R90). -/
  | noteStop (b : Nat)
  /-- `S.ctl[b].MASTER <- 0; S.ctl[b].BUSY <- 0; S.phase[b] <- Idle` (R90), in one atomic step (log 18). -/
  | closeBus (b : Nat)
  /-- `BusFail(b, kind)` (R104). -/
  | busFail (b : Nat) (kind : ErrorKind)
  /-- `Abort(b, kind)` (R94). -/
  | abort (b : Nat) (kind : ErrorKind)
  /-- `wait_until(false)` (R104). -/
  | holdForever
  /-- The head of the receive loop, `i` bytes done of `len` (R108). -/
  | recvLoop (b buf len i : Nat) (nostop : Bool)
  /-- The head of the send loop, `i` bytes done of `len` (R109). -/
  | sendLoop (b buf len i : Nat)
  /-- `v <- MemRead(a, 1)`, then SendByte (R109). -/
  | loadSend (b a : Nat)
  /-- `MemWrite(a, 1, v)` (R108, R117, R118). -/
  | memStore (a : Nat) (v : Byte)
  /-- `S.consumer[r] <- Some(t)`, the single-consumer check made again in the same atomic step (R117, R118, R149; log 13). -/
  | enterRead (r : Nat)
  /-- `deadline <- S.now + TIMEOUT` of SFR_READ_TIMEOUT, then the loop of the policy (R117). -/
  | armRead (r n buf timeout : Nat)
  /-- The loop of SFR_READ_TIMEOUT, Incremental: `got` bytes taken (R117). -/
  | readLoop (r n buf got deadline : Nat)
  /-- The wait of SFR_READ_TIMEOUT, AllOrNothing (R117). -/
  | readAll (r n buf deadline : Nat)
  /-- The head of SFR_READ_UNTIL's pattern read: `acc` read, `left` bytes from `pat` still to read (R118). -/
  | loadPattern (r max buf timeout pat left : Nat) (acc : List Byte)
  /-- `deadline <- S.now + TIMEOUT` of SFR_READ_UNTIL (R118). -/
  | armUntil (r max buf timeout : Nat) (pat : List Byte)
  /-- The wait of SFR_READ_UNTIL's loop (R118). -/
  | untilLoop (r max buf deadline : Nat) (pat got : List Byte)
  /-- The two tests of SFR_READ_UNTIL's loop (R118). -/
  | untilTest (r max buf deadline : Nat) (pat got : List Byte)
  /-- `S.consumer[r] <- None` (R117, R118). -/
  | leaveRead (r : Nat)
  /-- `return res`: the result appended, the command pointer advanced (R24, R25). -/
  | ret (res : Result)
  deriving DecidableEq, Repr

/-- A command in progress: the command, and the micro-steps it has still to run, the next one first. -/
structure Cmd where
  instr : Instr
  code  : List Micro
  deriving DecidableEq, Repr

/-- One host task (10_state.md R24, R25). -/
structure Task where
  prog    : List Desc := []
  pc      : Nat := 0
  results : List Result := []
  cmd     : Option Cmd := none
  deriving DecidableEq, Repr, Inhabited

/-- Host memory: the bytes that differ from what an unlisted address reads as, by rising address (20_memory.md R47). -/
abbrev Memory := List Host.Cell

/-- What an unlisted byte of host memory reads as (log 11). DESIGN CHOICE: the spec makes the initial memory a premise (R140). -/
def Memory.blank : Byte := 0

/-- The block state `S` (10_state.md), the parameters (00_scope.md section 3) and the model's own fields: `turns`, the schedule
(log 1), and `draws`, the counter the free values are applied to (log 7). -/
structure State where
  cfg          : Config
  buses        : List Bus
  pmDeepBlocks : Nat
  readers      : List Reader
  tasks        : List Task
  now          : Nat
  fault        : Option FaultRec
  mem          : Memory
  turns        : List Turn
  draws        : Nat
  deriving DecidableEq, Repr, Inhabited

/-- The reasons a step stops the machine. -/
inductive Fault where
  /-- Raised by a step, or a meaning, of a block whose fault is already recorded: "then no agent has a further step"
  (60_exceptions.md R126, R127). Safe. -/
  | halted
  deriving DecidableEq, Repr

/-- The reasons a meaning gives no outcome. -/
inductive Refusal where
  /-- No instruction has it: every arm of exec has its meaning. Safe. -/
  | notModelled (mnemonic : String)
  /-- Raised by a meaning asked to run where the turn is not one of an agent that issues commands (10_state.md R42: "`BusEnv(b)` and
  `Clock` are environment agents and issue no commands"). No step does that. Safe. -/
  | noIssuer
  deriving DecidableEq, Repr

/-- The state after reset (70_reset_and_hazards.md R140) of a block with the given parameters, bus handles each with the value its
BUSY has (a draw, 10_state.md R33), reader capacities, task programs and host memory. -/
def State.resetWith (cfg : Config) (handles : List (BusHandle × Bool)) (caps : List Nat) (progs : List (List Desc)) (mem : Memory) :
    State :=
  { cfg := cfg
    buses := handles.map fun h => { handle := h.1, ctl := { busy := h.2 } }
    pmDeepBlocks := 0
    readers := caps.map fun c => { cap := c }
    tasks := progs.map fun p => { prog := p }
    now := 0
    fault := none
    mem := mem
    turns := []
    draws := 0 }

/-- The machine right after reset: one bus, its BUSY clear (log 8), one reader of four bytes, two tasks with empty programs, the
parameters of log 9, no memory listed (log 11). -/
def State.reset : State := State.resetWith Config.initial [({}, false)] [4] [[], []] []

end Sys2Proof.Machine
end

