-- ==== Sys2Proof/Machine/Ops.lean ====
section
/-! DEFINITION. The named operations over the state: host memory (20_memory.md section 2), the accessors of buses, readers and
tasks, the turn, the end of a command, and raising a fault (60_exceptions.md R126), from which there is no return (R127). -/

namespace Sys2Proof.Machine

/-! ### Host memory -/

/-- The byte at an address. -/
def Memory.read : Memory → Nat → Byte
  | [], _ => Memory.blank
  | (k, u) :: m, a => if k = a then u else Memory.read m a

/-- Store a byte, keeping the canonical form: rising addresses, no entry equal to what an unlisted address reads as. -/
def Memory.write : Memory → Nat → Byte → Memory
  | [], a, v => if v = Memory.blank then [] else [(a, v)]
  | (k, u) :: m, a, v =>
    if a < k then (if v = Memory.blank then (k, u) :: m else (a, v) :: (k, u) :: m)
    else if a = k then (if v = Memory.blank then m else (a, v) :: m)
    else (k, u) :: Memory.write m a v

/-- The canonical form. -/
def Memory.wf : Memory → Bool
  | [] => true
  | (a, v) :: m => decide (v ≠ Memory.blank) && m.all (fun c => decide (a < c.1)) && Memory.wf m

/-- The bytes `vs` stored at `a, a + 1, ...` (20_memory.md R51). -/
def Memory.writeBytes : Memory → Nat → List Byte → Memory
  | m, _, [] => m
  | m, a, v :: vs => Memory.writeBytes (Memory.write m a v) (a + 1) vs

/-- The `n` bytes from `a` on (20_memory.md R51). -/
def Memory.readBytes (m : Memory) (a : Nat) : Nat → List Byte
  | 0 => []
  | n + 1 => Memory.read m a :: Memory.readBytes m (a + 1) n

/-- The region holds the address. -/
def regionHas (g : Region) (a : Nat) : Bool := decide (g.base ≤ a) && decide (a < g.base + g.size)

/-- The launch memory admits a read of the address (20_memory.md R49). -/
def canRead (c : Config) (a : Nat) : Bool := c.launch.any fun g => regionHas g a

/-- The launch memory admits a write of the address (20_memory.md R49). -/
def canWrite (c : Config) (a : Nat) : Bool := c.launch.any fun g => regionHas g a && g.writable

/-! ### Buses, readers, tasks -/

/-- Bus `b`. -/
def State.bus (s : State) (b : Nat) : Bus := s.buses.getD b default

/-- Reader `r`. -/
def State.reader (s : State) (r : Nat) : Reader := s.readers.getD r default

/-- Task `t`. -/
def State.task (s : State) (t : Nat) : Task := s.tasks.getD t default

/-- Bus `b` becomes `u`. -/
def State.setBus (s : State) (b : Nat) (u : Bus) : State := { s with buses := s.buses.set b u }

/-- Reader `r` becomes `d`. -/
def State.setReader (s : State) (r : Nat) (d : Reader) : State := { s with readers := s.readers.set r d }

/-- Task `t` becomes `k`. -/
def State.setTask (s : State) (t : Nat) (k : Task) : State := { s with tasks := s.tasks.set t k }

/-- Host memory becomes `m`. -/
def State.setMem (s : State) (m : Memory) : State := { s with mem := m }

/-- `S.pm_deep_blocks` becomes `n`. -/
def State.setPm (s : State) (n : Nat) : State := { s with pmDeepBlocks := n }

/-- The counter of the free values becomes `n`. -/
def State.setDraws (s : State) (n : Nat) : State := { s with draws := n }

/-- Update bus `b`. -/
def State.modBus (s : State) (b : Nat) (f : Bus → Bus) : State := s.setBus b (f (s.bus b))

/-- Update reader `r`. -/
def State.modReader (s : State) (r : Nat) (f : Reader → Reader) : State := s.setReader r (f (s.reader r))

/-- Update task `t`. -/
def State.modTask (s : State) (t : Nat) (f : Task → Task) : State := s.setTask t (f (s.task t))

/-- Update the controller of bus `b`. -/
def State.modCtl (s : State) (b : Nat) (f : Ctl → Ctl) : State := s.modBus b fun u => { u with ctl := f u.ctl }

/-- `emit(b, e)` (00_scope.md R19). -/
def State.emit (s : State) (b : Nat) (e : WireEvent) : State := s.modBus b fun u => { u with trace := u.trace ++ [e] }

/-- `I2C_NUMOF` is the number of buses: `b < I2C_NUMOF` (00_scope.md R6). -/
def State.busExists (s : State) (b : Nat) : Bool := decide (b < s.buses.length)

/-- `r < SFR_NUMOF` (00_scope.md R9). -/
def State.readerExists (s : State) (r : Nat) : Bool := decide (r < s.readers.length)

/-- Another agent's store to host memory (20_memory.md R54). Host addresses have 32 bits (R47). -/
def State.hostStore (s : State) (a : Nat) (v : Byte) : State :=
  if a < 4294967296 then s.setMem (s.mem.write a v) else s

/-! ### Sets of tasks, as strictly rising lists (10_state.md R28) -/

/-- Add a task. -/
def setInsert (t : Nat) : List Nat → List Nat
  | [] => [t]
  | x :: xs => if t < x then t :: x :: xs else if t = x then x :: xs else x :: setInsert t xs

/-- Take a task out. -/
def setErase (t : Nat) (xs : List Nat) : List Nat := xs.filter fun x => x != t

/-- The canonical form of a set. -/
def risingFrom : List Nat → Bool
  | [] => true
  | x :: xs => xs.all (fun y => decide (x < y)) && risingFrom xs

/-! ### Turns -/

/-- The turn that is taken next: the head of the schedule, or a free value where the schedule lists none (log 1). -/
def State.turn (s : State) : Turn :=
  match s.turns with
  | u :: _ => u
  | [] => Config.freeTurn s.draws

/-- The turn is over. -/
def State.endTurn (s : State) : State :=
  match s.turns with
  | _ :: us => { s with turns := us }
  | [] => { s with draws := s.draws + 1 }

/-- The agent whose turn it is, where it is one that issues commands, and how many micro-steps it may take. -/
def State.issuer (s : State) : Option (Agent × Nat) :=
  match s.turn with
  | .task t n => some (.task t, n)
  | .uart r _ => some (.uartRx r, 0)
  | .busAnswer _ _ => none
  | .busBusy _ _ => none
  | .clock _ => none
  | .hostStore _ _ => none

/-! ### The end of a command, and faults -/

/-- A command of task `t` ends with a result: it is appended, and the command pointer advances by 1 (10_state.md R24, R25). -/
def Task.finish (k : Task) (res : Result) : Task :=
  { k with pc := k.pc + 1, results := k.results ++ [res], cmd := none }

/-- `return res` by task `t`. -/
def State.complete (s : State) (t : Nat) (res : Result) : State := s.modTask t fun k => k.finish res

/-- Task `t` is inside a command. -/
def State.park (s : State) (t : Nat) (c : Cmd) : State := s.modTask t fun k => { k with cmd := some c }

/-- The fault codes' numbers (60_exceptions.md R124). -/
def faultNumber : FaultCode → Nat
  | .invalidIndex => 1
  | .reservedEncoding => 2
  | .wrongContext => 3
  | .notInitialised => 4
  | .doubleInit => 5
  | .invalidOperand => 6
  | .lockNotOwned => 7
  | .badContinuation => 8
  | .concurrentReader => 9

/-- `raise Fault(code)` by agent `g` running a command with word 0 `w0`: recorded once, nothing else changed (60_exceptions.md R126).
Every later step answers `halted`; there is no handler and no return (R127). -/
def State.raise (s : State) (c : FaultCode) (g : Agent) (w0 : Word) : State :=
  match s.fault with
  | none => { s with fault := some ⟨c, g, w0⟩ }
  | some _ => s

/-- A fault raised inside a command of task `t`: the state is that before the command, plus the record (60_exceptions.md R126). -/
def State.raiseInside (s : State) (c : FaultCode) (t : Nat) (w0 : Word) : State :=
  (s.modTask t fun k => { k with cmd := none }).raise c (.task t) w0

/-- The first check that does not hold (60_exceptions.md R125). -/
def firstFault : List (Bool × FaultCode) → Option FaultCode
  | [] => none
  | (holds, c) :: rest => if holds then firstFault rest else some c

/-! ### Outcomes of a micro-step -/

/-- What one micro-step of a task does. -/
inductive MicroOut where
  /-- The state changes, and `ops` stand before the micro-steps that were still to run. -/
  | go (s : State) (ops : List Micro)
  /-- The state changes, and `ops` take the place of the micro-steps that were still to run. -/
  | jump (s : State) (ops : List Micro)
  /-- The task has no step (00_scope.md R19, R21; 20_memory.md R49). -/
  | hold
  /-- The command ended. -/
  | done (s : State)
  /-- The command raises a fault. -/
  | raise (c : FaultCode)

/-! ### Results as numbers -/

/-- The result the host sees, an i32 (00_scope.md R20, 30_encoding.md R75). -/
def resultCode (c : Config) : Result → BitVec 32
  | .ok n => BitVec.ofNat 32 n
  | .err k => c.errCodes.code k

end Sys2Proof.Machine
end

