-- ==== Sys2Proof/Machine/Operands.lean ====
section
/-! DEFINITION. Operand forms: the address byte (30_encoding.md R74), the range checks of buffers and counts (20_memory.md R50,
42_i2c_transfers.md R102), which opening a transfer may use (R103), the engine's acknowledge (R105), and which flags a transfer
refuses (R107). -/

namespace Sys2Proof.Machine

/-- The host memory's size, 2^32 bytes (20_memory.md R47). -/
abbrev memTop : Nat := 4294967296

/-- Counts are below 2^31, so that a result is a non-negative i32 (00_scope.md R20, 42_i2c_transfers.md R102). -/
abbrev countTop : Nat := 2147483648

/-- `rw`: 1 for a read, 0 for a write (30_encoding.md R74). -/
def dirBit : Dir → BitVec 1
  | .write => 0
  | .read => 1

/-- `addr_byte(addr, rw)`: `(addr << 1) | rw` (30_encoding.md R74). -/
def addrByte (addr : Addr7) (d : Dir) : Byte := addr ++ dirBit d

/-- The operands of a transfer: `1 <= LEN < 2^31` and `BUF + LEN <= 2^32` (42_i2c_transfers.md R102). -/
def transferOperandsOk (len buf : Nat) : Bool :=
  decide (1 ≤ len) && decide (len < countTop) && decide (buf + len ≤ memTop)

/-- The operands of SFR_READ_TIMEOUT (43_serial_frame_reader.md R117). -/
def readOperandsOk (n buf : Nat) : Bool := decide (n < countTop) && decide (buf + n ≤ memTop)

/-- The operands of SFR_READ_UNTIL (43_serial_frame_reader.md R118). -/
def untilOperandsOk (patlen max buf pat : Nat) : Bool :=
  decide (1 ≤ patlen) && decide (1 ≤ max) && decide (max < countTop) && decide (buf + max ≤ memTop)
    && decide (pat + patlen ≤ memTop)

/-- The phase a transfer leaves open (42_i2c_transfers.md R106). -/
def heldPhase (d : Dir) (addr : Addr7) : Phase :=
  match d with
  | .write => .heldW addr
  | .read => .heldR addr

/-- A START may be sent: not while a read is held open (42_i2c_transfers.md R103, the rows with NOSTART = 0). -/
def startLegal : Phase → Bool
  | .idle => true
  | .heldW _ => true
  | .heldR _ => false

/-- Whether the opening is legal (42_i2c_transfers.md R103). -/
def openingLegal (nostart : Bool) (p : Phase) (d : Dir) (addr : Addr7) : Bool :=
  if nostart then decide (p = heldPhase d addr) else startLegal p

/-- The engine's acknowledge for received byte `i` of `len` (42_i2c_transfers.md R105). -/
def rxAck (len i : Nat) (nostop : Bool) : AckBit := if i + 1 < len || nostop then .ack else .nack

/-- A byte transfer with ADDR10 or REG16 is refused (42_i2c_transfers.md R107). -/
def bytesUnsupported (f : XferFlags) : Bool := f.addr10 || f.reg16

/-- A register transfer with any flag is refused (42_i2c_transfers.md R107). -/
def regsUnsupported (f : XferFlags) : Bool := decide (f ≠ {})

/-- The bytes read end with the pattern (43_serial_frame_reader.md R118). -/
def endsWith (got pat : List Byte) : Bool := decide (pat.length ≤ got.length) && decide (got.drop (got.length - pat.length) = pat)

end Sys2Proof.Machine
end

