-- ==== Sys2Proof/Machine/Flags.lean ====
section
/-! DEFINITION. The controller's event flags (10_state.md R34): which wire primitive may be given which answer (40_i2c_handshake.md
R83), and the flag that realises it (R85, log 14). The block has no condition codes (10_state.md R43). -/

namespace Sys2Proof.Machine

/-- The wire primitives (40_i2c_handshake.md R83). -/
inductive Prim where
  | start
  | addr (v : Byte)
  | send (v : Byte)
  | recv (k : AckBit)
  | stop
  | recover (n : Nat)
  deriving DecidableEq, Repr

/-- The answer sets (40_i2c_handshake.md R83). `Wedged` is a member of every set and is never an answer (R82). -/
def answerAllowed (p : Prim) (a : Answer) : Bool :=
  match p, a with
  | .start, .ok | .start, .arbLost => true
  | .addr _, .ack | .addr _, .nack | .addr _, .arbLost | .addr _, .busError => true
  | .send _, .ack | .send _, .nack | .send _, .arbLost | .send _, .busError => true
  | .recv _, .byte _ | .recv _, .arbLost | .recv _, .busError | .recv _, .overrun => true
  | .stop, .ok => true
  | .recover _, .ok => true
  | _, _ => false

/-- The event flags an answer sets (40_i2c_handshake.md R85). -/
def flagsSet (p : Prim) (a : Answer) : EventFlags :=
  match p, a with
  | .start, .ok => { sb := true }
  | .addr _, .ack => { addr := true }
  | .addr _, .nack => { af := true }
  | .send _, .ack => { txe := true, btf := true }
  | .send _, .nack => { txe := true, af := true }
  | .recv _, .byte _ => { rxne := true }
  | _, .arbLost => { arlo := true }
  | _, .busError => { berr := true }
  | _, .overrun => { ovr := true }
  | _, _ => {}

/-- `ask BusEnv(b).p`: the task holds until the environment answers with a member of the answer set (40_i2c_handshake.md R82); then
the flag that realises the answer is set and the task goes on as `k` says. -/
def ask (b : Nat) (p : Prim) (k : Answer → List Micro) (s : State) : MicroOut :=
  match (s.bus b).answers with
  | [] => .hold
  | a :: rest =>
    if answerAllowed p a then .go (s.modBus b fun u => { u with answers := rest, ctl := { u.ctl with ev := flagsSet p a } }) (k a)
    else .hold

/-- "The engine clears each event flag after it has read it" (40_i2c_handshake.md R85). -/
def State.clearFlags (s : State) (b : Nat) : State := s.modCtl b fun c => { c with ev := {} }

end Sys2Proof.Machine
end

