-- ==== Sys2Proof/Machine/Handshake.lean ====
section
/-! DEFINITION. The wire-level handshake (40_i2c_handshake.md): the micro-steps of GenStart, SendAddr, SendByte, RecvByte, GenStop, the
address retry, and the policy on bus errors. -/

namespace Sys2Proof.Machine

/-- `GenStop(b)` (R90): the ask, the event, and the three writes that follow it. -/
def stopCode (b : Nat) : List Micro := [.askStop b, .noteStop b, .closeBus b]

/-- `wait_until(S.ctl[b].BUSY = 0)` (R86, R99). -/
def microWaitNotBusy (b : Nat) (s : State) : MicroOut := if (s.bus b).ctl.busy then .hold else .go s []

/-- GenStart's two branches (R86). -/
def microGenStart (b : Nat) (addr : Addr7) (d : Dir) (retries : Nat) (s : State) : MicroOut :=
  if (s.bus b).ctl.master then .go s [.askStart b addr d retries false]
  else .go s [.waitNotBusy b, .askStart b addr d retries true]

/-- `ask BusEnv(b).start()` (R86). -/
def microAskStart (b : Nat) (addr : Addr7) (d : Dir) (retries : Nat) (first : Bool) (s : State) : MicroOut :=
  ask b .start (fun a => [.gotStart b addr d retries first a]) s

/-- The engine lost arbitration: `emit(b, LOST); S.ctl[b].MASTER <- 0` (R86 to R89). No transaction is held open without MASTER (10_state.md
R46), so the phase becomes Idle in the same step, as `Abort` leaves it (R94; log 18). -/
def State.lose (s : State) (b : Nat) : State :=
  ((s.clearFlags b).emit b .lost).modBus b fun u => { u with phase := .idle, ctl := { u.ctl with master := false } }

/-- `S` or `Sr` on the wire; from the idle bus the engine becomes master and the bus busy (R86). -/
def State.started (s : State) (b : Nat) (first : Bool) : State :=
  if first then ((s.clearFlags b).emit b .start).modCtl b fun c => { c with busy := true, master := true }
  else (s.clearFlags b).emit b .restart

/-- What GenStart and StartAddr do with the answer of start() (R86, R91). -/
def microGotStart (b : Nat) (addr : Addr7) (d : Dir) (retries : Nat) (first : Bool) (a : Answer) (s : State) : MicroOut :=
  match a with
  | .ok => .go (s.started b first) [.askAddr b addr d retries]
  | .arbLost => .jump (s.lose b) [.busFail b .arbLost]
  | _ => .hold

/-- `ask BusEnv(b).addr(addr_byte(addr, rw))` (R87, R91). -/
def microAskAddr (b : Nat) (addr : Addr7) (d : Dir) (retries : Nat) (s : State) : MicroOut :=
  ask b (.addr (addrByte addr d)) (fun a => [.gotAddr b addr d retries a]) s

/-- The retries are used up: `ADDR_NACK_RETRY_LIMIT = some k and retries = k` (R91). -/
def retriesUsedUp (limit : Option Nat) (retries : Nat) : Bool := decide (limit = some retries)

/-- What SendAddr and the retry loop do with the answer of addr(v) (R87, R91). -/
def microGotAddr (b : Nat) (addr : Addr7) (d : Dir) (retries : Nat) (a : Answer) (s : State) : MicroOut :=
  match a with
  | .ack => .go ((s.clearFlags b).emit b (.addr (addrByte addr d) .ack)) []
  | .nack =>
    if retriesUsedUp s.cfg.retryLimit retries then
      .jump ((s.clearFlags b).emit b (.addr (addrByte addr d) .nack)) (stopCode b ++ [.ret (.err .noAck)])
    else .go ((s.clearFlags b).emit b (.addr (addrByte addr d) .nack)) [.genStart b addr d (retries + 1)]
  | .arbLost => .jump (s.lose b) [.busFail b .arbLost]
  | .busError => .jump ((s.clearFlags b).emit b .berr) [.busFail b .busError]
  | _ => .hold

/-- `ask BusEnv(b).send(v)` (R88). -/
def microAskSend (b : Nat) (v : Byte) (s : State) : MicroOut := ask b (.send v) (fun a => [.gotSend b v a]) s

/-- What SendByte and its transfer do with the answer of send(v) (R88, 42_i2c_transfers.md R109). -/
def microGotSend (b : Nat) (v : Byte) (a : Answer) (s : State) : MicroOut :=
  match a with
  | .ack => .go ((s.clearFlags b).emit b (.tx v .ack)) []
  | .nack => .jump ((s.clearFlags b).emit b (.tx v .nack)) [.busFail b .dataNack]
  | .arbLost => .jump (s.lose b) [.busFail b .arbLost]
  | .busError => .jump ((s.clearFlags b).emit b .berr) [.busFail b .busError]
  | _ => .hold

/-- `S.ctl[b].ACK_EN <- (k = A)` (R89). -/
def microSetAckEn (b : Nat) (k : AckBit) (s : State) : MicroOut :=
  .go (s.modCtl b fun c => { c with ackEn := decide (k = .ack) }) []

/-- `ask BusEnv(b).recv(k)` (R89). -/
def microAskRecv (b : Nat) (k : AckBit) (dst : Nat) (s : State) : MicroOut :=
  ask b (.recv k) (fun a => [.gotRecv b k dst a]) s

/-- What RecvByte and its transfer do with the answer of recv(k) (R89, 42_i2c_transfers.md R108). -/
def microGotRecv (b : Nat) (k : AckBit) (dst : Nat) (a : Answer) (s : State) : MicroOut :=
  match a with
  | .byte v => .go ((s.clearFlags b).emit b (.rx v k)) [.memStore dst v]
  | .arbLost => .jump (s.lose b) [.busFail b .arbLost]
  | .busError => .jump ((s.clearFlags b).emit b .berr) [.busFail b .busError]
  | .overrun => .jump ((s.clearFlags b).emit b .ovr) [.busFail b .overrun]
  | _ => .hold

/-- `ask BusEnv(b).stop()` (R90). -/
def microAskStop (b : Nat) (s : State) : MicroOut := ask b .stop (fun _ => []) s

/-- `emit(b, P)` (R90). -/
def microNoteStop (b : Nat) (s : State) : MicroOut := .go (s.emit b .stop) []

/-- `S.ctl[b].MASTER <- 0; S.ctl[b].BUSY <- 0; S.phase[b] <- Idle` (R90). One atomic step, so that 10_state.md R46 holds before and after
it (log 18). -/
def microCloseBus (b : Nat) (s : State) : MicroOut :=
  .go (s.modBus b fun u => { u with ctl := { u.ctl with master := false, busy := false }, phase := .idle }) []

/-- `S.phase[b] <- p`. -/
def microSetPhase (b : Nat) (p : Phase) (s : State) : MicroOut := .go (s.modBus b fun u => { u with phase := p }) []

/-- `BusFail(b, kind)`: hold for ever, or clean up (R93, 42_i2c_transfers.md R104). -/
def microBusFail (b : Nat) (kind : ErrorKind) (s : State) : MicroOut :=
  match s.cfg.busErrorPolicy with
  | .hang => .jump s [.holdForever]
  | .report => .jump s [.abort b kind]

/-- `Abort(b, kind)` (R94). -/
def microAbort (b : Nat) (kind : ErrorKind) (s : State) : MicroOut :=
  if (s.bus b).ctl.master then .jump s (stopCode b ++ [.ret (.err kind)])
  else .jump s [.setPhase b .idle, .ret (.err kind)]

/-- The head of the receive loop (42_i2c_transfers.md R105, R108). -/
def microRecvLoop (b buf len i : Nat) (nostop : Bool) (s : State) : MicroOut :=
  if i < len then
    .go s [.setAckEn b (rxAck len i nostop), .askRecv b (rxAck len i nostop) (buf + i), .recvLoop b buf len (i + 1) nostop]
  else .go s []

/-- The head of the send loop (42_i2c_transfers.md R109). -/
def microSendLoop (b buf len i : Nat) (s : State) : MicroOut :=
  if i < len then .go s [.loadSend b (buf + i), .sendLoop b buf len (i + 1)] else .go s []

/-- `v <- MemRead(a, 1)`: a read the launch memory refuses has no step (20_memory.md R49, 42_i2c_transfers.md R109). -/
def microLoadSend (b a : Nat) (s : State) : MicroOut :=
  if canRead s.cfg a then .go s [.askSend b (s.mem.read a)] else .hold

/-- `MemWrite(a, 1, v)`: a write the launch memory refuses has no step (20_memory.md R49). -/
def microMemStore (a : Nat) (v : Byte) (s : State) : MicroOut :=
  if canWrite s.cfg a then .go (s.setMem (s.mem.write a v)) [] else .hold

end Sys2Proof.Machine
end

