-- ==== Sys2Proof/Machine/BusMicro.lean ====
section
/-! DEFINITION. The micro-steps of bus control (41_i2c_bus_control.md) and of the clock configuration and the stuck-bus recovery
(40_i2c_handshake.md R95, R96). -/

namespace Sys2Proof.Machine

/-- `S.lock[b] <- Free; S.waiters[b] <- {}` (R97). -/
def microResetLock (b : Nat) (s : State) : MicroOut := .go (s.modBus b fun u => { u with lock := .free, waiters := [] }) []

/-- `S.clk_en[b] <- on` (R97 to R99). -/
def microClock (b : Nat) (on : Bool) (s : State) : MicroOut := .go (s.modBus b fun u => { u with clkEn := on }) []

/-- `S.ctl[b].PINS <- p` (R96, R97). -/
def microPins (b : Nat) (p : Pins) (s : State) : MicroOut := .go (s.modCtl b fun c => { c with pins := p }) []

/-- `S.ctl[b].PE <- on` (R96, R97). -/
def microEnable (b : Nat) (on : Bool) (s : State) : MicroOut := .go (s.modCtl b fun c => { c with pe := on }) []

/-- `S.ctl[b].CCR <- CCR_CFG[b]` (R95). -/
def microSetCcr (b : Nat) (s : State) : MicroOut :=
  .go (s.modBus b fun u => { u with ctl := { u.ctl with ccr := u.handle.ccrCfg } }) []

/-- `S.ctl[b].FS <- (SPEED[b] = Fast)` (R95). -/
def microSetFs (b : Nat) (s : State) : MicroOut :=
  .go (s.modBus b fun u => { u with ctl := { u.ctl with fs := decide (u.handle.speed = .fast) } }) []

/-- `BusRecover(b)` (R96), with `Configure(b)` (R95) in it. -/
def recoverCode (b : Nat) : List Micro :=
  [.enable b false, .pins b .gpio, .askRecover b, .noteRecover b, .pins b .i2c, .drawBusy b, .setCcr b, .setFs b, .enable b true]

/-- `if S.ctl[b].BUSY = 1: BusRecover(b)` (R97). -/
def microRecoverIfBusy (b : Nat) (s : State) : MicroOut := .go s (if (s.bus b).ctl.busy then recoverCode b else [])

/-- `ask BusEnv(b).recover(RECOVERY_PULSES)` (R96). -/
def microAskRecover (b : Nat) (s : State) : MicroOut := ask b (.recover s.cfg.recoveryPulses) (fun _ => []) s

/-- `emit(b, RECOVER(RECOVERY_PULSES))` (R96). -/
def microNoteRecover (b : Nat) (s : State) : MicroOut := .go (s.emit b (.recover s.cfg.recoveryPulses)) []

/-- `S.ctl[b].BUSY <- draw` (R96): a free value (log 7). -/
def microDrawBusy (b : Nat) (s : State) : MicroOut :=
  .go ((s.modCtl b fun c => { c with busy := Config.busyAfterRecovery s.draws }).setDraws (s.draws + 1)) []

/-- `S.init_done[b] <- 1` (R97). -/
def microSetInitDone (b : Nat) (s : State) : MicroOut := .go (s.modBus b fun u => { u with initDone := true }) []

/-- `S.waiters[b] <- S.waiters[b] + {t}` (R98). -/
def microJoinWaiters (t b : Nat) (s : State) : MicroOut :=
  .go (s.modBus b fun u => { u with waiters := setInsert t u.waiters }) []

/-- The lock taken as soon as it is free, in one step with the test (R98). -/
def microTakeLock (t b : Nat) (s : State) : MicroOut :=
  if (s.bus b).lock = .free then .go (s.modBus b fun u => { u with lock := .owned t, waiters := setErase t u.waiters }) []
  else .hold

/-- `S.pm_deep_blocks <- S.pm_deep_blocks + 1` (R98). -/
def microPmBlock (s : State) : MicroOut := .go (s.setPm (s.pmDeepBlocks + 1)) []

/-- `S.pm_deep_blocks <- S.pm_deep_blocks - 1` (R99). -/
def microPmUnblock (s : State) : MicroOut := .go (s.setPm (s.pmDeepBlocks - 1)) []

/-- `S.lock[b] <- Free` (R99). -/
def microFreeLock (b : Nat) (s : State) : MicroOut := .go (s.modBus b fun u => { u with lock := .free }) []

end Sys2Proof.Machine
end

