-- ==== Sys2Proof/Machine/SerialMicro.lean ====
section
/-! DEFINITION. The micro-steps of the serial read commands (43_serial_frame_reader.md R117, R118). -/

namespace Sys2Proof.Machine

/-- The consumer gives the reader back and the command returns (R117, R118). -/
def leaveCode (r : Nat) (res : Result) : List Micro := [.leaveRead r, .ret res]

/-- `S.consumer[r] <- Some(t)`, the check that no task is inside a read of `r` made again in the same step (R117, R118; R149;
log 13). -/
def microEnterRead (t r : Nat) (s : State) : MicroOut :=
  if (s.reader r).consumer = none then .go (s.modReader r fun d => { d with consumer := some t }) []
  else .raise .concurrentReader

/-- `deadline <- S.now + TIMEOUT`, then the wait of the policy (R114, R117). -/
def microArmRead (r n buf timeout : Nat) (s : State) : MicroOut :=
  match s.cfg.timeoutConsume with
  | .incremental => .go s [.readLoop r n buf 0 (s.now + timeout)]
  | .allOrNothing => .go s [.readAll r n buf (s.now + timeout)]

/-- The loop of SFR_READ_TIMEOUT, Incremental: a byte in the queue is taken before the deadline is looked at (R117). -/
def microReadLoop (r n buf got deadline : Nat) (s : State) : MicroOut :=
  if got < n then
    match (s.reader r).q with
    | v :: rest =>
      .go (s.modReader r fun d => { d with q := rest }) [.memStore (buf + got) v, .readLoop r n buf (got + 1) deadline]
    | [] => if deadline ≤ s.now then .jump s (leaveCode r (.err .timeout)) else .hold
  else .jump s (leaveCode r (.ok n))

/-- The stores of a whole frame, one a micro-step. -/
def storeCode (buf : Nat) : List Byte → List Micro
  | [] => []
  | v :: vs => .memStore buf v :: storeCode (buf + 1) vs

/-- The wait of SFR_READ_TIMEOUT, AllOrNothing (R117). -/
def microReadAll (r n buf deadline : Nat) (s : State) : MicroOut :=
  if n ≤ (s.reader r).q.length then
    .jump (s.modReader r fun d => { d with q := d.q.drop n }) (storeCode buf ((s.reader r).q.take n) ++ leaveCode r (.ok n))
  else if deadline ≤ s.now then .jump s (leaveCode r (.err .timeout))
  else .hold

/-- `pat <- [MemRead(PAT + j, 1) for j in 0 .. PATLEN - 1]`, one byte a micro-step, then the reader entered (R118). -/
def microLoadPattern (r max buf timeout pat left : Nat) (acc : List Byte) (s : State) : MicroOut :=
  match left with
  | 0 => .go s [.enterRead r, .armUntil r max buf timeout acc]
  | k + 1 =>
    if canRead s.cfg pat then .go s [.loadPattern r max buf timeout (pat + 1) k (acc ++ [s.mem.read pat])] else .hold

/-- `deadline <- S.now + TIMEOUT; got <- []` (R118). -/
def microArmUntil (r max buf timeout : Nat) (pat : List Byte) (s : State) : MicroOut :=
  .go s [.untilLoop r max buf (s.now + timeout) pat []]

/-- The wait of SFR_READ_UNTIL's loop (R118). -/
def microUntilLoop (r max buf deadline : Nat) (pat got : List Byte) (s : State) : MicroOut :=
  match (s.reader r).q with
  | v :: rest =>
    .go (s.modReader r fun d => { d with q := rest })
      [.memStore (buf + got.length) v, .untilTest r max buf deadline pat (got ++ [v])]
  | [] => if deadline ≤ s.now then .jump s (leaveCode r (.err .timeout)) else .hold

/-- The tests after each byte: the pattern, then the capacity (R118). -/
def microUntilTest (r max buf deadline : Nat) (pat got : List Byte) (s : State) : MicroOut :=
  if endsWith got pat then .jump s (leaveCode r (.ok got.length))
  else if got.length = max then .jump s (leaveCode r (.err .noMatch))
  else .go s [.untilLoop r max buf deadline pat got]

/-- `S.consumer[r] <- None` (R117, R118). -/
def microLeaveRead (r : Nat) (s : State) : MicroOut := .go (s.modReader r fun d => { d with consumer := none }) []

end Sys2Proof.Machine
end

