-- ==== Sys2Proof/Machine/Micro.lean ====
section
/-! DEFINITION. Running a command: one micro-step of a task (00_scope.md R17), a turn's worth of them, and issuing a command with its
fault checks (60_exceptions.md R125, R133). -/

namespace Sys2Proof.Machine

/-- One micro-step of task `t`. -/
def microStep (t : Nat) (m : Micro) (s : State) : MicroOut :=
  match m with
  | .resetLock b => microResetLock b s
  | .clock b on => microClock b on s
  | .pins b p => microPins b p s
  | .enable b on => microEnable b on s
  | .setCcr b => microSetCcr b s
  | .setFs b => microSetFs b s
  | .recoverIfBusy b => microRecoverIfBusy b s
  | .askRecover b => microAskRecover b s
  | .noteRecover b => microNoteRecover b s
  | .drawBusy b => microDrawBusy b s
  | .setPhase b p => microSetPhase b p s
  | .setInitDone b => microSetInitDone b s
  | .joinWaiters b => microJoinWaiters t b s
  | .takeLock b => microTakeLock t b s
  | .pmBlock => microPmBlock s
  | .pmUnblock => microPmUnblock s
  | .waitNotBusy b => microWaitNotBusy b s
  | .freeLock b => microFreeLock b s
  | .genStart b addr d retries => microGenStart b addr d retries s
  | .askStart b addr d retries first => microAskStart b addr d retries first s
  | .gotStart b addr d retries first a => microGotStart b addr d retries first a s
  | .askAddr b addr d retries => microAskAddr b addr d retries s
  | .gotAddr b addr d retries a => microGotAddr b addr d retries a s
  | .askSend b v => microAskSend b v s
  | .gotSend b v a => microGotSend b v a s
  | .setAckEn b k => microSetAckEn b k s
  | .askRecv b k dst => microAskRecv b k dst s
  | .gotRecv b k dst a => microGotRecv b k dst a s
  | .askStop b => microAskStop b s
  | .noteStop b => microNoteStop b s
  | .closeBus b => microCloseBus b s
  | .busFail b kind => microBusFail b kind s
  | .abort b kind => microAbort b kind s
  | .holdForever => .hold
  | .recvLoop b buf len i nostop => microRecvLoop b buf len i nostop s
  | .sendLoop b buf len i => microSendLoop b buf len i s
  | .loadSend b a => microLoadSend b a s
  | .memStore a v => microMemStore a v s
  | .enterRead r => microEnterRead t r s
  | .armRead r n buf timeout => microArmRead r n buf timeout s
  | .readLoop r n buf got deadline => microReadLoop r n buf got deadline s
  | .readAll r n buf deadline => microReadAll r n buf deadline s
  | .loadPattern r max buf timeout pat left acc => microLoadPattern r max buf timeout pat left acc s
  | .armUntil r max buf timeout pat => microArmUntil r max buf timeout pat s
  | .untilLoop r max buf deadline pat got => microUntilLoop r max buf deadline pat got s
  | .untilTest r max buf deadline pat got => microUntilTest r max buf deadline pat got s
  | .leaveRead r => microLeaveRead r s
  | .ret res => .done (s.complete t res)

/-- At most `n` micro-steps of task `t` in command `i`, with `code` still to run. Where the turn ends before the command does, or
the task has no step, the command stays in progress (log 2, log 5). -/
def runCode (t : Nat) (i : Instr) : Nat → List Micro → State → State
  | 0, code, s => s.park t ⟨i, code⟩
  | _ + 1, [], s => s.park t ⟨i, []⟩
  | n + 1, m :: rest, s =>
    match microStep t m s with
    | .go s' ops => runCode t i n (ops ++ rest) s'
    | .jump s' ops => runCode t i n ops s'
    | .hold => s.park t ⟨i, m :: rest⟩
    | .done s' => s'
    | .raise c => s.raiseInside c t i.word0

/-- Task `t` goes on with its command in progress. -/
def State.resume (s : State) (t n : Nat) : State :=
  match (s.task t).cmd with
  | some c => runCode t c.instr n c.code s
  | none => s

/-- Issue a command that is legal in task context only (60_exceptions.md R133): the checks in the order of R125 (`checks` are those
after the context), all before any effect, then the micro-steps the turn allows. -/
def issueTask (i : Instr) (idxOk : Bool) (checks : Nat → List (Bool × FaultCode)) (code : List Micro) (s : State) :
    Host.Outcome State Fault Refusal :=
  if s.fault.isSome then .fault .halted
  else
    match s.issuer with
    | none => .refused .noIssuer
    | some (.uartRx r, _) =>
      .next (s.raise (if idxOk then .wrongContext else .invalidIndex) (.uartRx r) i.word0)
    | some (.task t, n) =>
      match firstFault ((idxOk, .invalidIndex) :: checks t) with
      | some c => .next (s.raise c (.task t) i.word0)
      | none => .next (runCode t i n code s)

/-- Issue a command that is legal in interrupt context only (60_exceptions.md R133): the checks in the order of R125, then its effect
as one atomic step (43_serial_frame_reader.md R116). -/
def issueIrq (i : Instr) (idxOk : Bool) (effect : Nat → State → State) (s : State) : Host.Outcome State Fault Refusal :=
  if s.fault.isSome then .fault .halted
  else
    match s.issuer with
    | none => .refused .noIssuer
    | some (.task t, _) => .next (s.raise (if idxOk then .wrongContext else .invalidIndex) (.task t) i.word0)
    | some (.uartRx r, _) => if idxOk then .next (effect r s) else .next (s.raise .invalidIndex (.uartRx r) i.word0)

end Sys2Proof.Machine
end

