-- ==== Sys2Proof/Machine/BusControl.lean ====
section
/-! DEFINITION. The bus control commands: I2C_INIT, I2C_ACQUIRE, I2C_RELEASE (41_i2c_bus_control.md). -/

namespace Sys2Proof.Machine

/-- The body of I2C_INIT after its checks (R97). -/
def initCode (b : Nat) : List Micro :=
  [.resetLock b, .clock b true, .pins b .i2c, .enable b false, .setCcr b, .setFs b, .enable b true, .recoverIfBusy b,
    .clock b false, .setPhase b .idle, .setInitDone b, .ret (.ok 0)]

/-- The body of I2C_ACQUIRE after its checks (R98). -/
def acquireCode (b : Nat) : List Micro := [.joinWaiters b, .takeLock b, .pmBlock, .clock b true, .ret (.ok 0)]

/-- The body of I2C_RELEASE after its checks (R99). -/
def releaseCode (b : Nat) : List Micro := [.waitNotBusy b, .clock b false, .pmUnblock, .freeLock b, .ret (.ok 0)]

/-- The caller holds the Bus Lock (42_i2c_transfers.md R101, R99). -/
def ownsLock (s : State) (b t : Nat) : Bool := decide ((s.bus b).lock = .owned t)

/-- I2C_INIT (R97). -/
def execI2cInit (b : Nat) (s : State) : Host.Outcome State Fault Refusal :=
  issueTask (.i2cInit b) (s.busExists b) (fun _ => [(!(s.bus b).initDone, .doubleInit)]) (initCode b) s

/-- I2C_ACQUIRE (R98). -/
def execI2cAcquire (b : Nat) (s : State) : Host.Outcome State Fault Refusal :=
  issueTask (.i2cAcquire b) (s.busExists b) (fun _ => [((s.bus b).initDone, .notInitialised)]) (acquireCode b) s

/-- I2C_RELEASE (R99). -/
def execI2cRelease (b : Nat) (s : State) : Host.Outcome State Fault Refusal :=
  issueTask (.i2cRelease b) (s.busExists b)
    (fun t => [((s.bus b).initDone, .notInitialised), (ownsLock s b t, .lockNotOwned)]) (releaseCode b) s

end Sys2Proof.Machine
end

