-- ==== Sys2Proof/Machine/Transfers.lean ====
section
/-! DEFINITION. The I2C transfers (42_i2c_transfers.md): byte reads and writes, register reads and writes. -/

namespace Sys2Proof.Machine

/-- The fault checks of a transfer after the context, in the order of 60_exceptions.md R125 (42_i2c_transfers.md R101 to R103). -/
def transferChecks (s : State) (b : Nat) (addr : Addr7) (d : Dir) (nostart : Bool) (len buf t : Nat) : List (Bool × FaultCode) :=
  [((s.bus b).initDone, .notInitialised), (transferOperandsOk len buf, .invalidOperand), (ownsLock s b t, .lockNotOwned),
    (openingLegal nostart (s.bus b).phase d addr, .badContinuation)]

/-- `return Err(Unsupported)`: no bus or memory activity (R107). -/
def unsupportedCode : List Micro := [.ret (.err .unsupported)]

/-- `XferOpen` (R104): nothing for a continuation, else StartAddr. -/
def openCode (b : Nat) (addr : Addr7) (d : Dir) (nostart : Bool) : List Micro :=
  if nostart then [] else [.genStart b addr d 0]

/-- The end of a successful transfer (R106). -/
def endCode (b : Nat) (addr : Addr7) (d : Dir) (nostop : Bool) (len : Nat) : List Micro :=
  if nostop then [.setPhase b (heldPhase d addr), .ret (.ok len)] else stopCode b ++ [.ret (.ok len)]

/-- The body of I2C_READ_BYTES after its checks (R108). -/
def readBytesCode (b : Nat) (addr : Addr7) (f : XferFlags) (len buf : Nat) : List Micro :=
  if bytesUnsupported f then unsupportedCode
  else openCode b addr .read f.nostart ++ .recvLoop b buf len 0 f.nostop :: endCode b addr .read f.nostop len

/-- The body of I2C_WRITE_BYTES after its checks (R109). -/
def writeBytesCode (b : Nat) (addr : Addr7) (f : XferFlags) (len buf : Nat) : List Micro :=
  if bytesUnsupported f then unsupportedCode
  else openCode b addr .write f.nostart ++ .sendLoop b buf len 0 :: endCode b addr .write f.nostop len

/-- Phase 1 of a register transfer: START, address, the register byte, no STOP (R110, R111). -/
def regPhaseCode (b : Nat) (addr : Addr7) (reg : Byte) : List Micro :=
  [.genStart b addr .write 0, .askSend b reg, .setPhase b (.heldW addr)]

/-- The body of I2C_READ_REGS after its checks (R110): phase 2 with a repeated START (90_conflicts.md C1). -/
def readRegsCode (b : Nat) (addr : Addr7) (reg : Byte) (f : XferFlags) (len buf : Nat) : List Micro :=
  if regsUnsupported f then unsupportedCode
  else regPhaseCode b addr reg ++ .genStart b addr .read 0 :: .recvLoop b buf len 0 false :: (stopCode b ++ [.ret (.ok len)])

/-- The body of I2C_WRITE_REGS after its checks (R111): phase 2 continues the write. -/
def writeRegsCode (b : Nat) (addr : Addr7) (reg : Byte) (f : XferFlags) (len buf : Nat) : List Micro :=
  if regsUnsupported f then unsupportedCode
  else regPhaseCode b addr reg ++ .sendLoop b buf len 0 :: (stopCode b ++ [.ret (.ok len)])

/-- I2C_READ_BYTES (R108). -/
def execI2cRead (b : Nat) (addr : Addr7) (flags : XferFlags) (len buf : Nat) (s : State) : Host.Outcome State Fault Refusal :=
  issueTask (.i2cRead b addr flags len buf) (s.busExists b) (transferChecks s b addr .read flags.nostart len buf)
    (readBytesCode b addr flags len buf) s

/-- I2C_WRITE_BYTES (R109). -/
def execI2cWrite (b : Nat) (addr : Addr7) (flags : XferFlags) (len buf : Nat) (s : State) : Host.Outcome State Fault Refusal :=
  issueTask (.i2cWrite b addr flags len buf) (s.busExists b) (transferChecks s b addr .write flags.nostart len buf)
    (writeBytesCode b addr flags len buf) s

/-- I2C_READ_REGS (R110): the opening is checked as with NOSTART = 0. -/
def execI2cReadRegs (b : Nat) (addr : Addr7) (reg : Byte) (flags : XferFlags) (len buf : Nat) (s : State) :
    Host.Outcome State Fault Refusal :=
  issueTask (.i2cReadRegs b addr reg flags len buf) (s.busExists b) (transferChecks s b addr .write false len buf)
    (readRegsCode b addr reg flags len buf) s

/-- I2C_WRITE_REGS (R111): the opening is checked as with NOSTART = 0. -/
def execI2cWriteRegs (b : Nat) (addr : Addr7) (reg : Byte) (flags : XferFlags) (len buf : Nat) (s : State) :
    Host.Outcome State Fault Refusal :=
  issueTask (.i2cWriteRegs b addr reg flags len buf) (s.busExists b) (transferChecks s b addr .write false len buf)
    (writeRegsCode b addr reg flags len buf) s

end Sys2Proof.Machine
end

