-- ==== Sys2Proof/Machine/Serial.lean ====
section
/-! DEFINITION. The serial frame reader's commands (43_serial_frame_reader.md). -/

namespace Sys2Proof.Machine

/-- The queue has room (R116). -/
def hasRoom (d : Reader) : Bool := decide (d.q.length < d.cap)

/-- The queue after a push: a full queue drops the new byte (R115). -/
def pushByte (byte : Byte) (d : Reader) : Reader := if hasRoom d then { d with q := d.q ++ [byte] } else d

/-- `Ok(1)` stored, `Ok(0)` dropped (R116). -/
def pushResult (d : Reader) : Result := if hasRoom d then .ok 1 else .ok 0

/-- SFR_WRITE_ONE's effect, one atomic step of UartRx(`g`) (R116). -/
def State.push (s : State) (r : Nat) (byte : Byte) (g : Nat) : State :=
  (s.modReader r (pushByte byte)).modReader g fun d => { d with rxResults := d.rxResults ++ [pushResult (s.reader r)] }

/-- No task is inside a read of the reader (R149). -/
def noConsumer (s : State) (r : Nat) : Bool := decide ((s.reader r).consumer = none)

/-- The body of SFR_READ_TIMEOUT after its checks (R117). -/
def sfrReadCode (r n buf timeout : Nat) : List Micro :=
  if n = 0 then [.ret (.ok 0)] else [.enterRead r, .armRead r n buf timeout]

/-- The body of SFR_READ_UNTIL after its checks (R118). -/
def sfrUntilCode (r patlen max buf timeout pat : Nat) : List Micro := [.loadPattern r max buf timeout pat patlen []]

/-- SFR_WRITE_ONE (R116). -/
def execSfrPush (r : Nat) (byte : Byte) (s : State) : Host.Outcome State Fault Refusal :=
  issueIrq (.sfrPush r byte) (s.readerExists r) (fun g s => s.push r byte g) s

/-- SFR_READ_TIMEOUT (R117). -/
def execSfrRead (r n buf timeout : Nat) (s : State) : Host.Outcome State Fault Refusal :=
  issueTask (.sfrRead r n buf timeout) (s.readerExists r)
    (fun _ => [(readOperandsOk n buf, .invalidOperand), (noConsumer s r, .concurrentReader)]) (sfrReadCode r n buf timeout) s

/-- SFR_READ_UNTIL (R118). -/
def execSfrReadUntil (r patlen max buf timeout pat : Nat) (s : State) : Host.Outcome State Fault Refusal :=
  issueTask (.sfrReadUntil r patlen max buf timeout pat) (s.readerExists r)
    (fun _ => [(untilOperandsOk patlen max buf pat, .invalidOperand), (noConsumer s r, .concurrentReader)])
    (sfrUntilCode r patlen max buf timeout pat) s

end Sys2Proof.Machine
end

