-- ==== Sys2Proof/Machine/Dispatch.lean ====
section
/-! DEFINITION. The meaning of every command, one arm a constructor. -/

namespace Sys2Proof.Machine

def exec (i : Instr) (s : State) : Host.Outcome State Fault Refusal :=
  match i with
  | .i2cInit b => Sys2Proof.Machine.execI2cInit b s
  | .i2cAcquire b => Sys2Proof.Machine.execI2cAcquire b s
  | .i2cRelease b => Sys2Proof.Machine.execI2cRelease b s
  | .i2cRead b addr flags len buf => Sys2Proof.Machine.execI2cRead b addr flags len buf s
  | .i2cWrite b addr flags len buf => Sys2Proof.Machine.execI2cWrite b addr flags len buf s
  | .i2cReadRegs b addr reg flags len buf => Sys2Proof.Machine.execI2cReadRegs b addr reg flags len buf s
  | .i2cWriteRegs b addr reg flags len buf => Sys2Proof.Machine.execI2cWriteRegs b addr reg flags len buf s
  | .sfrPush r byte => Sys2Proof.Machine.execSfrPush r byte s
  | .sfrRead r n buf timeout => Sys2Proof.Machine.execSfrRead r n buf timeout s
  | .sfrReadUntil r patlen max buf timeout pat => Sys2Proof.Machine.execSfrReadUntil r patlen max buf timeout pat s

end Sys2Proof.Machine
end

