-- ==== Sys2Proof/Machine/Turns.lean ====
section
/-! DEFINITION. What each agent's turn does (00_scope.md R16): a task fetches its next descriptor or goes on with its command, the
receive interrupt issues a descriptor, the environment answers or changes BUSY, time passes, another agent stores to host memory. -/

namespace Sys2Proof.Machine

/-- The descriptor task `t` issues next (10_state.md R24); none where the program is finished. -/
def State.fetch (s : State) (t : Nat) : Option Desc := (s.task t).prog[(s.task t).pc]?

/-- Agent `g` issues descriptor `d`: a reserved one raises Fault(ReservedEncoding), with no other effect (30_encoding.md R71). -/
def issueDesc (g : Agent) (d : Desc) (s : State) : Host.Outcome State Fault Refusal :=
  match decode d with
  | .ok i => exec i s
  | .error _ => .next (s.raise .reservedEncoding g d.w0)

/-- Task(t) moves (R16, R24). A task that does not exist, or that has finished its program, has no step (log 20). -/
def taskTurn (t n : Nat) (s : State) : Host.Outcome State Fault Refusal :=
  if t < s.tasks.length then
    match (s.task t).cmd with
    | some _ => .next (s.resume t n)
    | none =>
      match s.fetch t with
      | some d => issueDesc (.task t) d s
      | none => .next s
  else .next s

/-- UartRx(r) moves (60_exceptions.md R128). A reader that does not exist has no interrupt (log 20). -/
def uartTurn (r : Nat) (d : Desc) (s : State) : Host.Outcome State Fault Refusal :=
  if s.readerExists r then issueDesc (.uartRx r) d s else .next s

/-- BusEnv(b) draws one more answer (40_i2c_handshake.md R82, log 3). -/
def State.addAnswer (s : State) (b : Nat) (a : Answer) : State := s.modBus b fun u => { u with answers := u.answers ++ [a] }

/-- BusEnv(b) sets or clears BUSY, while MASTER = 0 only (10_state.md R33). -/
def State.envBusy (s : State) (b : Nat) (v : Bool) : State :=
  if (s.bus b).ctl.master then s else s.modCtl b fun c => { c with busy := v }

/-- Clock advances the time (10_state.md R40). An advance by 0 is no step (log 20). -/
def State.tick (s : State) (d : Nat) : State := { s with now := s.now + d }

/-- The agent whose turn it is moves. -/
def moveAgent (s : State) : Host.Outcome State Fault Refusal :=
  match s.turn with
  | .task t n => taskTurn t n s
  | .uart r d => uartTurn r d s
  | .busAnswer b a => .next (s.addAnswer b a)
  | .busBusy b v => .next (s.envBusy b v)
  | .clock d => .next (s.tick d)
  | .hostStore a v => .next (s.hostStore a v)

/-- The turn is over where the agent's move gave a next state. -/
def afterTurn : Host.Outcome State Fault Refusal → Host.Outcome State Fault Refusal
  | .next s => .next s.endTurn
  | .fault r => .fault r
  | .refused r => .refused r

/-! ### Placing a descriptor where the next step takes it (log 19) -/

/-- A program whose command `pc` is `d`, its other commands kept. -/
def placeDesc (prog : List Desc) (pc : Nat) (d : Desc) : List Desc :=
  prog.take pc ++ List.replicate (pc - prog.length) d ++ d :: prog.drop (pc + 1)

/-- The micro-steps of the turn that a placed descriptor is given. -/
def placedQuantum : Nat := 1000

/-- `d` is the next command of task 0, and the next turn is task 0's. -/
def State.placeTask (s : State) (d : Desc) : State :=
  { s with
    tasks :=
      match s.tasks with
      | [] => [{ prog := [d] }]
      | k :: ks => { k with prog := placeDesc k.prog k.pc d, cmd := none } :: ks
    turns := .task 0 placedQuantum :: s.turns }

/-- The reader whose interrupt issues a placed SFR_WRITE_ONE: the one its IDX names, where there is one. -/
def placedReader (s : State) (d : Desc) : Nat := if s.readerExists (field d.w0 7 4) then field d.w0 7 4 else 0

/-- The next turn is the receive interrupt's, with `d`. -/
def State.placeIrq (s : State) (d : Desc) : State := { s with turns := .uart (placedReader s d) d :: s.turns }

/-- `d` placed in the context its command is legal in (60_exceptions.md R133). -/
def State.place (s : State) (d : Desc) : State := if field d.w0 3 0 = 8 then s.placeIrq d else s.placeTask d

end Sys2Proof.Machine
end

