-- ==== Sys2Proof/Machine/Step.lean ====
section
/-! DEFINITION. One step of the block: one turn of one agent (00_scope.md R16; 60_exceptions.md R131). -/

namespace Sys2Proof.Machine

/-- One step. A block whose fault is recorded has no further step (60_exceptions.md R126). -/
def step (s : State) : Host.Outcome State Fault Refusal :=
  if s.fault.isSome then .fault .halted else afterTurn (moveAgent s)

/-- The state in which the very next step runs the instruction whose `nbits` bits are `w` (log 19). -/
def State.withFetchWord (s : State) (nbits w : Nat) : State := s.place (tableDesc nbits w)

end Sys2Proof.Machine
end

