-- ==== Sys2Proof/Machine/Asm.lean ====
section
/-! DEFINITION. The spec's assembler syntax (30_encoding.md R79) and its pseudo-instructions (R80): one line of text to a command.
Blanks around an operand and the case of hexadecimal digits do not matter (log 29). -/

namespace Sys2Proof.Machine

/-- `i2c.read_reg b, addr, reg, buf` (R80). -/
def pseudoReadReg (b : Nat) (addr : Addr7) (reg : Byte) (buf : Nat) : Instr := .i2cReadRegs b addr reg {} 1 buf

/-- `i2c.write_reg b, addr, reg, buf` (R80). -/
def pseudoWriteReg (b : Nat) (addr : Addr7) (reg : Byte) (buf : Nat) : Instr := .i2cWriteRegs b addr reg {} 1 buf

/-- `i2c.read_byte b, addr, buf` (R80). -/
def pseudoReadByte (b : Nat) (addr : Addr7) (buf : Nat) : Instr := .i2cRead b addr {} 1 buf

/-- `i2c.write_byte b, addr, buf` (R80). -/
def pseudoWriteByte (b : Nat) (addr : Addr7) (buf : Nat) : Instr := .i2cWrite b addr {} 1 buf

/-- The pieces of a text between the separators. -/
def splitAtChar (sep : Char) : List Char → List (List Char)
  | [] => [[]]
  | c :: cs =>
    match splitAtChar sep cs with
    | [] => [[]]
    | p :: ps => if c = sep then [] :: p :: ps else (c :: p) :: ps

/-- The text without the blanks at its two ends. -/
def trimBlanks (cs : List Char) : List Char :=
  ((cs.dropWhile fun c => c == ' ').reverse.dropWhile fun c => c == ' ').reverse

/-- The value of a digit, in a base of at most 16. -/
def digitOf (base : Nat) (c : Char) : Option Nat :=
  let n := c.toNat
  let d := if 48 ≤ n ∧ n ≤ 57 then n - 48 else if 97 ≤ n ∧ n ≤ 102 then n - 87 else if 65 ≤ n ∧ n ≤ 70 then n - 55 else 16
  if d < base then some d else none

/-- The value of a list of digits, `acc` read so far. -/
def digitsOf (base : Nat) : List Char → Nat → Option Nat
  | [], acc => some acc
  | c :: cs, acc =>
    match digitOf base c with
    | some d => digitsOf base cs (acc * base + d)
    | none => none

/-- A number, decimal or `0x` hexadecimal (R79). -/
def numberOf : List Char → Option Nat
  | [] => none
  | '0' :: 'x' :: c :: cs => digitsOf 16 (c :: cs) 0
  | cs => digitsOf 10 cs 0

/-- A flag word sets its bit of R69 (R79). -/
def addFlag (cs : List Char) (f : XferFlags) : Option XferFlags :=
  if cs = "nostop".toList then some { f with nostop := true }
  else if cs = "nostart".toList then some { f with nostart := true }
  else if cs = "addr10".toList then some { f with addr10 := true }
  else if cs = "reg16".toList then some { f with reg16 := true }
  else none

/-- The flag words after the last operand, in any order (R79). -/
def flagsOf : List (List Char) → XferFlags → Option XferFlags
  | [], f => some f
  | c :: cs, f =>
    match addFlag c f with
    | some g => flagsOf cs g
    | none => none

/-- The numbers at the front of the operands, and the rest. -/
def numbersOf : List (List Char) → List Nat × List (List Char)
  | [] => ([], [])
  | c :: cs =>
    match numberOf c with
    | some n => (n :: (numbersOf cs).1, (numbersOf cs).2)
    | none => ([], c :: cs)

/-- A target address operand: a number below 128. -/
def addrOperand (n : Nat) : Option Addr7 := if n < 128 then some (BitVec.ofNat 7 n) else none

/-- A byte operand: a number below 256. -/
def byteOperand (n : Nat) : Option Byte := if n < 256 then some (BitVec.ofNat 8 n) else none

/-- The command of a mnemonic, its numbers and its flag words (R79, R80). -/
def commandOf (m : List Char) (ns : List Nat) (fs : List (List Char)) : Option Instr := do
  let f ← flagsOf fs {}
  if m = "i2c.init".toList then
    match ns, fs with
    | [b], [] => some (.i2cInit b)
    | _, _ => none
  else if m = "i2c.acquire".toList then
    match ns, fs with
    | [b], [] => some (.i2cAcquire b)
    | _, _ => none
  else if m = "i2c.release".toList then
    match ns, fs with
    | [b], [] => some (.i2cRelease b)
    | _, _ => none
  else if m = "i2c.read".toList then
    match ns with
    | [b, a, buf, len] => return .i2cRead b (← addrOperand a) f len buf
    | _ => none
  else if m = "i2c.write".toList then
    match ns with
    | [b, a, buf, len] => return .i2cWrite b (← addrOperand a) f len buf
    | _ => none
  else if m = "i2c.read_regs".toList then
    match ns with
    | [b, a, reg, buf, len] => return .i2cReadRegs b (← addrOperand a) (← byteOperand reg) f len buf
    | _ => none
  else if m = "i2c.write_regs".toList then
    match ns with
    | [b, a, reg, buf, len] => return .i2cWriteRegs b (← addrOperand a) (← byteOperand reg) f len buf
    | _ => none
  else if m = "sfr.push".toList then
    match ns, fs with
    | [r, v], [] => return .sfrPush r (← byteOperand v)
    | _, _ => none
  else if m = "sfr.read".toList then
    match ns, fs with
    | [r, buf, n, timeout], [] => some (.sfrRead r n buf timeout)
    | _, _ => none
  else if m = "sfr.read_until".toList then
    match ns, fs with
    | [r, buf, max, timeout, pat, patlen], [] => some (.sfrReadUntil r patlen max buf timeout pat)
    | _, _ => none
  else if m = "i2c.read_reg".toList then
    match ns, fs with
    | [b, a, reg, buf], [] => return pseudoReadReg b (← addrOperand a) (← byteOperand reg) buf
    | _, _ => none
  else if m = "i2c.write_reg".toList then
    match ns, fs with
    | [b, a, reg, buf], [] => return pseudoWriteReg b (← addrOperand a) (← byteOperand reg) buf
    | _, _ => none
  else if m = "i2c.read_byte".toList then
    match ns, fs with
    | [b, a, buf], [] => return pseudoReadByte b (← addrOperand a) buf
    | _, _ => none
  else if m = "i2c.write_byte".toList then
    match ns, fs with
    | [b, a, buf], [] => return pseudoWriteByte b (← addrOperand a) buf
    | _, _ => none
  else none

/-- The first word of a line, and the text after it. -/
def firstWord : List Char → List Char × List Char
  | [] => ([], [])
  | c :: cs => if c = ' ' then ([], cs) else (c :: (firstWord cs).1, (firstWord cs).2)

/-- One line of assembler text (R79): the command, where the line has one whose operands fit its encoding. Flag words are separated by
commas, as the operands are: DESIGN CHOICE, R79's `[, flag...]` shows one flag word only (log 29). -/
def assemble (line : String) : Option Instr := do
  let (m, rest) := firstWord (trimBlanks line.toList)
  let (ns, fs) := numbersOf ((splitAtChar ',' rest).map trimBlanks)
  let i ← commandOf m ns fs
  if i.wellFormed then some i else none

end Sys2Proof.Machine
end

