-- ==== Sys2Proof/Safety.lean ====
section
/-! DEFINITION. The terms the statements use: whose turn it is, what counts as a good state, the spec's own invariants (10_state.md R45,
R46), the sleep condition (60_exceptions.md R137), and the environment's answers and the wire events of a whole transfer. -/

namespace Sys2Proof.Machine

/-! ### Whose turn it is -/

/-- Task `t`, which exists, has the turn, for at most `n` micro-steps, and no fault is recorded. -/
abbrev State.taskMoves (s : State) (t n : Nat) : Prop := s.turn = .task t n ∧ s.fault = none ∧ t < s.tasks.length

/-- The receive interrupt of reader `g`, which exists, has the turn, and no fault is recorded. -/
abbrev State.irqMoves (s : State) (g : Nat) : Prop := s.issuer = some (.uartRx g, 0) ∧ s.fault = none ∧ g < s.readers.length

/-- Bus `b` exists and has been initialised. -/
abbrev State.busReady (s : State) (b : Nat) : Prop := b < s.buses.length ∧ (s.bus b).initDone = true

/-- Every byte of the buffer may be written (20_memory.md R49). -/
abbrev State.bufWritable (s : State) (buf len : Nat) : Prop := ∀ i < len, canWrite s.cfg (buf + i) = true

/-- Every byte of the buffer may be read (20_memory.md R49). -/
abbrev State.bufReadable (s : State) (buf len : Nat) : Prop := ∀ i < len, canRead s.cfg (buf + i) = true

/-- The buffer's range is legal (42_i2c_transfers.md R102). -/
abbrev lenLegal (len buf : Nat) : Prop := 1 ≤ len ∧ len < 2 ^ 31 ∧ buf + len ≤ 2 ^ 32

/-! ### The first fault that applies to a command (60_exceptions.md R124, R125), as one chain for each shape of command -/

/-- The agent runs in task context (10_state.md R42). -/
def Agent.inTask : Agent → Bool
  | .task _ => true
  | .uartRx _ => false

/-- The agent owns the lock of the bus (42_i2c_transfers.md R101). -/
def Agent.owns (g : Agent) (u : Bus) : Bool :=
  match g with
  | .task t => decide (u.lock = .owned t)
  | .uartRx _ => false

/-- The opening of a byte transfer is legal: the rows of the table of 42_i2c_transfers.md R103. -/
def openingInTable (nostart : Bool) (p : Phase) (d : Dir) (addr : Addr7) : Bool :=
  match nostart, p, d with
  | false, .idle, _ => true
  | false, .heldW _, _ => true
  | false, .heldR _, _ => false
  | true, .idle, _ => false
  | true, .heldW a, .write => decide (a = addr)
  | true, .heldR a, .read => decide (a = addr)
  | true, .heldW _, .read => false
  | true, .heldR _, .write => false

/-- Transfers (42_i2c_transfers.md R101 to R103). -/
def transferFault (s : State) (g : Agent) (b len buf : Nat) (opening : Bool) : Option FaultCode :=
  if s.buses.length ≤ b then some .invalidIndex
  else if g.inTask = false then some .wrongContext
  else if (s.bus b).initDone = false then some .notInitialised
  else if len = 0 ∨ 2 ^ 31 ≤ len ∨ 2 ^ 32 < buf + len then some .invalidOperand
  else if g.owns (s.bus b) = false then some .lockNotOwned
  else if opening = false then some .badContinuation
  else none

/-- The first fault of a command issued by agent `g`, in the order of 60_exceptions.md R125 from InvalidIndex on. -/
def commandFault (s : State) (g : Agent) : Instr → Option FaultCode
  | .i2cInit b =>
    if s.buses.length ≤ b then some .invalidIndex
    else if g.inTask = false then some .wrongContext
    else if (s.bus b).initDone = true then some .doubleInit
    else none
  | .i2cAcquire b =>
    if s.buses.length ≤ b then some .invalidIndex
    else if g.inTask = false then some .wrongContext
    else if (s.bus b).initDone = false then some .notInitialised
    else none
  | .i2cRelease b =>
    if s.buses.length ≤ b then some .invalidIndex
    else if g.inTask = false then some .wrongContext
    else if (s.bus b).initDone = false then some .notInitialised
    else if g.owns (s.bus b) = false then some .lockNotOwned
    else none
  | .i2cRead b addr f len buf => transferFault s g b len buf (openingInTable f.nostart (s.bus b).phase .read addr)
  | .i2cWrite b addr f len buf => transferFault s g b len buf (openingInTable f.nostart (s.bus b).phase .write addr)
  | .i2cReadRegs b addr _ _ len buf => transferFault s g b len buf (openingInTable false (s.bus b).phase .write addr)
  | .i2cWriteRegs b addr _ _ len buf => transferFault s g b len buf (openingInTable false (s.bus b).phase .write addr)
  | .sfrPush r _ =>
    if s.readers.length ≤ r then some .invalidIndex
    else if g.inTask = true then some .wrongContext
    else none
  | .sfrRead r n buf _ =>
    if s.readers.length ≤ r then some .invalidIndex
    else if g.inTask = false then some .wrongContext
    else if 2 ^ 31 ≤ n ∨ 2 ^ 32 < buf + n then some .invalidOperand
    else if (s.reader r).consumer ≠ none then some .concurrentReader
    else none
  | .sfrReadUntil r patlen max buf _ pat =>
    if s.readers.length ≤ r then some .invalidIndex
    else if g.inTask = false then some .wrongContext
    else if patlen = 0 ∨ max = 0 ∨ 2 ^ 31 ≤ max ∨ 2 ^ 32 < buf + max ∨ 2 ^ 32 < pat + patlen then some .invalidOperand
    else if (s.reader r).consumer ≠ none then some .concurrentReader
    else none

/-- The first fault of a descriptor (60_exceptions.md R125): ReservedEncoding comes first. -/
def descFault (s : State) (g : Agent) (d : Desc) : Option FaultCode :=
  match decode d with
  | .ok i => commandFault s g i
  | .error _ => some .reservedEncoding

/-- The descriptor is reserved: the clauses of 30_encoding.md R71 on word 0. -/
def reservedWord (w : Word) : Prop :=
  let op := field w 3 0
  op = 0 ∨ 11 ≤ op ∨ ((op = 1 ∨ op = 2 ∨ op = 3) ∧ field w 31 8 ≠ 0) ∨
    (4 ≤ op ∧ op ≤ 7 ∧ (field w 15 15 ≠ 0 ∨ field w 31 28 ≠ 0)) ∨ ((op = 4 ∨ op = 5) ∧ field w 27 20 ≠ 0) ∨
    ((op = 8 ∨ op = 10) ∧ field w 31 16 ≠ 0) ∨ (op = 9 ∧ field w 31 8 ≠ 0)

end Sys2Proof.Machine

namespace Sys2Proof

/-! ### What a command may change -/

/-- The bus a command works on. -/
def Instr.busOf : Instr → Option Nat
  | .i2cInit b => some b
  | .i2cAcquire b => some b
  | .i2cRelease b => some b
  | .i2cRead b _ _ _ _ => some b
  | .i2cWrite b _ _ _ _ => some b
  | .i2cReadRegs b _ _ _ _ _ => some b
  | .i2cWriteRegs b _ _ _ _ _ => some b
  | .sfrPush _ _ => none
  | .sfrRead _ _ _ _ => none
  | .sfrReadUntil _ _ _ _ _ _ => none

/-- The reader a command works on. -/
def Instr.readerOf : Instr → Option Nat
  | .i2cInit _ => none
  | .i2cAcquire _ => none
  | .i2cRelease _ => none
  | .i2cRead _ _ _ _ _ => none
  | .i2cWrite _ _ _ _ _ => none
  | .i2cReadRegs _ _ _ _ _ _ => none
  | .i2cWriteRegs _ _ _ _ _ _ => none
  | .sfrPush r _ => some r
  | .sfrRead r _ _ _ => some r
  | .sfrReadUntil r _ _ _ _ _ => some r

/-- The command is one of the four transfers. -/
def Instr.isTransfer : Instr → Bool
  | .i2cRead _ _ _ _ _ => true
  | .i2cWrite _ _ _ _ _ => true
  | .i2cReadRegs _ _ _ _ _ _ => true
  | .i2cWriteRegs _ _ _ _ _ _ => true
  | _ => false

/-- The buffer a command may store to: its first address and its length (20_memory.md R51); length 0 for the commands that store
nothing. -/
def Instr.storesTo : Instr → Nat × Nat
  | .i2cRead _ _ _ len buf => (buf, len)
  | .i2cReadRegs _ _ _ _ len buf => (buf, len)
  | .sfrRead _ n buf _ => (buf, n)
  | .sfrReadUntil _ _ max buf _ _ => (buf, max)
  | .i2cInit _ => (0, 0)
  | .i2cAcquire _ => (0, 0)
  | .i2cRelease _ => (0, 0)
  | .i2cWrite _ _ _ _ _ => (0, 0)
  | .i2cWriteRegs _ _ _ _ _ _ => (0, 0)
  | .sfrPush _ _ => (0, 0)

/-- The address lies in the buffer the command may store to. -/
def Instr.storesAt (i : Instr) (a : Nat) : Bool := decide (i.storesTo.1 ≤ a) && decide (a < i.storesTo.1 + i.storesTo.2)

end Sys2Proof

namespace Sys2Proof.Machine

/-- What a command issued by agent `g`, or a later turn of it, leaves unchanged: every byte of host memory outside the buffer it may store
to, the parameters, the time, the schedule, every other bus, every other reader (but the list of results of the interrupt that issues
it), every other task. -/
def State.changesOnly (s : State) (i : Instr) (g : Agent) (s' : State) : Prop :=
  (∀ a, a < i.storesTo.1 ∨ i.storesTo.1 + i.storesTo.2 ≤ a → s'.mem.read a = s.mem.read a) ∧
  s'.cfg = s.cfg ∧ s'.now = s.now ∧ s'.turns = s.turns ∧
  (∀ b, i.busOf ≠ some b → s'.bus b = s.bus b) ∧
  (∀ r, i.readerOf ≠ some r → g ≠ .uartRx r → s'.reader r = s.reader r) ∧
  (∀ t, g ≠ .task t → s'.task t = s.task t)

/-- What a transfer leaves alone on its own bus `b` and elsewhere. -/
def State.controlKept (s : State) (b : Nat) (s' : State) : Prop :=
  (s'.bus b).handle = (s.bus b).handle ∧ (s'.bus b).initDone = (s.bus b).initDone ∧ (s'.bus b).lock = (s.bus b).lock ∧
  (s'.bus b).waiters = (s.bus b).waiters ∧ (s'.bus b).clkEn = (s.bus b).clkEn ∧ (s'.bus b).ctl.pe = (s.bus b).ctl.pe ∧
  (s'.bus b).ctl.ccr = (s.bus b).ctl.ccr ∧ (s'.bus b).ctl.fs = (s.bus b).ctl.fs ∧ (s'.bus b).ctl.pins = (s.bus b).ctl.pins ∧
  s'.pmDeepBlocks = s.pmDeepBlocks ∧ s'.readers = s.readers ∧ s'.draws = s.draws ∧
  ∀ t, (s'.task t).prog = (s.task t).prog

/-- What I2C_ACQUIRE and I2C_RELEASE leave alone on their bus `b` and elsewhere. -/
def State.engineKept (s : State) (b : Nat) (s' : State) : Prop :=
  (s'.bus b).ctl = (s.bus b).ctl ∧ (s'.bus b).trace = (s.bus b).trace ∧ (s'.bus b).phase = (s.bus b).phase ∧
  (s'.bus b).answers = (s.bus b).answers ∧ (s'.bus b).handle = (s.bus b).handle ∧ (s'.bus b).initDone = (s.bus b).initDone ∧
  s'.mem = s.mem ∧ s'.readers = s.readers ∧ s'.draws = s.draws

/-- What I2C_INIT leaves alone on its bus `b` and elsewhere. -/
def State.initKeeps (s : State) (b : Nat) (s' : State) : Prop :=
  s'.pmDeepBlocks = s.pmDeepBlocks ∧ (s'.bus b).ctl.master = (s.bus b).ctl.master ∧ (s'.bus b).ctl.ackEn = (s.bus b).ctl.ackEn ∧
  (s'.bus b).handle = (s.bus b).handle ∧ s'.mem = s.mem ∧ s'.readers = s.readers

/-- What every serial command leaves alone. -/
def State.busesKept (s s' : State) : Prop :=
  s'.buses = s.buses ∧ s'.pmDeepBlocks = s.pmDeepBlocks ∧ s'.draws = s.draws ∧ ∀ x, (s'.reader x).cap = (s.reader x).cap

/-- What a serial read does to its reader `r` at most: it takes bytes from the front of the queue. -/
def State.takesOnly (s : State) (r : Nat) (s' : State) : Prop :=
  (∃ k, (s'.reader r).q = (s.reader r).q.drop k) ∧ (s'.reader r).rxResults = (s.reader r).rxResults

/-! ### Where a command in progress can be -/

/-- A micro-step that the transfer `i` on bus `b` may have to run. -/
def Micro.ofTransfer (i : Instr) (b : Nat) : Micro → Bool
  | .waitNotBusy c | .genStart c _ _ _ | .askStart c _ _ _ _ | .gotStart c _ _ _ _ _ | .askAddr c _ _ _ | .gotAddr c _ _ _ _
  | .askSend c _ | .gotSend c _ _ | .setAckEn c _ | .askStop c | .noteStop c | .closeBus c | .setPhase c _
  | .busFail c _ | .abort c _ | .sendLoop c _ _ _ | .loadSend c _ => decide (c = b)
  | .askRecv c _ a | .gotRecv c _ a _ => decide (c = b) && i.storesAt a
  | .recvLoop c buf len _ _ => decide (c = b) && decide ((buf, len) = i.storesTo)
  | .memStore a _ => i.storesAt a
  | .holdForever | .ret _ => true
  | _ => false

/-- A micro-step that the serial read `i` on reader `r` may have to run. -/
def Micro.ofRead (i : Instr) (r : Nat) : Micro → Bool
  | .enterRead c | .leaveRead c => decide (c = r)
  | .armRead c n buf _ | .readLoop c n buf _ _ | .readAll c n buf _ => decide (c = r) && decide ((buf, n) = i.storesTo)
  | .loadPattern c max buf _ _ _ _ | .armUntil c max buf _ _ =>
    decide (c = r) && decide ((buf, max) = i.storesTo) && decide (0 < max)
  | .untilLoop c max buf _ _ got => decide (c = r) && decide ((buf, max) = i.storesTo) && decide (got.length < max)
  | .untilTest c max buf _ _ got => decide (c = r) && decide ((buf, max) = i.storesTo) && decide (got.length ≤ max)
  | .memStore a _ => i.storesAt a
  | .ret _ => true
  | _ => false

/-- The micro-steps still to run are some that the command comes to. -/
def Cmd.fits (c : Cmd) : Prop :=
  match c.instr with
  | .i2cInit b => c.code <:+ initCode b ∨ c.code <:+ recoverCode b ++ (initCode b).drop 8
  | .i2cAcquire b => c.code <:+ acquireCode b
  | .i2cRelease b => c.code <:+ releaseCode b
  | .i2cRead b _ _ _ _ => ∀ m ∈ c.code, m.ofTransfer c.instr b = true
  | .i2cWrite b _ _ _ _ => ∀ m ∈ c.code, m.ofTransfer c.instr b = true
  | .i2cReadRegs b _ _ _ _ _ => ∀ m ∈ c.code, m.ofTransfer c.instr b = true
  | .i2cWriteRegs b _ _ _ _ _ => ∀ m ∈ c.code, m.ofTransfer c.instr b = true
  | .sfrPush _ _ => False
  | .sfrRead r _ _ _ => ∀ m ∈ c.code, m.ofRead c.instr r = true
  | .sfrReadUntil r _ _ _ _ _ => ∀ m ∈ c.code, m.ofRead c.instr r = true

/-- Every command in progress is somewhere it can have come to. -/
def State.cmdsFit (s : State) : Prop := ∀ t c, (s.task t).cmd = some c → c.fits

/-- Task `t` may be inside the command where it is: it owns the lock it needs (42_i2c_transfers.md R101), and the bus is initialised, or not
yet (41_i2c_bus_control.md R97 to R99). -/
def Cmd.mayStand (s : State) (t : Nat) (c : Cmd) : Prop :=
  match c.instr with
  | .i2cInit b => b < s.buses.length ∧
    (.setInitDone b ∈ c.code → (s.bus b).initDone = false ∧ (.clock b false ∉ c.code → (s.bus b).clkEn = false))
  | .i2cAcquire b => s.busReady b ∧ (.takeLock b ∉ c.code → (s.bus b).lock = .owned t)
  | .i2cRelease b => s.busReady b ∧ (.freeLock b ∈ c.code → (s.bus b).lock = .owned t)
  | .i2cRead b _ _ _ _ => s.busReady b ∧ (s.bus b).lock = .owned t
  | .i2cWrite b _ _ _ _ => s.busReady b ∧ (s.bus b).lock = .owned t
  | .i2cReadRegs b _ _ _ _ _ => s.busReady b ∧ (s.bus b).lock = .owned t
  | .i2cWriteRegs b _ _ _ _ _ => s.busReady b ∧ (s.bus b).lock = .owned t
  | .sfrPush _ _ => True
  | .sfrRead _ _ _ _ => True
  | .sfrReadUntil _ _ _ _ _ _ => True

/-- No two tasks are inside I2C_INIT of one bus (70_reset_and_hazards.md R142 asks a program for exactly one; log 17). -/
def State.initsApart (s : State) : Prop :=
  ∀ t t' b c c', (s.task t).cmd = some c → (s.task t').cmd = some c' → c.instr = .i2cInit b → c'.instr = .i2cInit b → t = t'

/-- The turn issues no I2C_INIT of a bus on which another task is inside I2C_INIT (70_reset_and_hazards.md R142; log 17). -/
def State.initNotDoubled (s : State) : Prop :=
  ∀ t n d b t' c, s.turn = .task t n → (s.task t).cmd = none → s.fetch t = some d → decode d = .ok (.i2cInit b) →
    (s.task t').cmd = some c → c.instr ≠ .i2cInit b

/-- Every command in progress is where it can be, and a bus not yet initialised has its lock free and no transaction open. -/
def State.placed (s : State) : Prop :=
  s.cmdsFit ∧ (∀ t c, (s.task t).cmd = some c → c.mayStand s t) ∧ s.initsApart ∧
    ∀ b, b < s.buses.length → (s.bus b).initDone = false → (s.bus b).lock = .free ∧ (s.bus b).phase = .idle

/-! ### Good states -/

/-- The sets of waiters are in canonical form (10_state.md R28). -/
def State.waitersOk (s : State) : Prop := ∀ u ∈ s.buses, risingFrom u.waiters = true

/-- No reader queue is over its capacity (10_state.md R38, 43_serial_frame_reader.md R120). -/
def State.queuesOk (s : State) : Prop := ∀ d ∈ s.readers, d.q.length ≤ d.cap

/-- Every task has one result for every command it has completed (10_state.md R24, R25). -/
def State.resultsOk (s : State) : Prop := ∀ k ∈ s.tasks, k.pc = k.results.length

/-- No task is inside a command. -/
def State.quiet (s : State) : Prop := ∀ k ∈ s.tasks, k.cmd = none

/-- The buses whose lock is held (10_state.md R45). -/
def State.heldLocks (s : State) : Nat := s.buses.countP fun u => decide (u.lock ≠ .free)

/-- 10_state.md R45: the clock of a bus is on exactly while its lock is held, and the power-block count is the number of held locks;
a bus not yet initialised has its lock free. -/
def State.powerOk (s : State) : Prop :=
  (∀ u ∈ s.buses, (u.initDone = true → u.clkEn = decide (u.lock ≠ .free)) ∧ (u.initDone = false → u.lock = .free)) ∧
    s.pmDeepBlocks = s.heldLocks

/-- The task is inside I2C_ACQUIRE of bus `b` with the lock taken and the clock still to turn on, or inside I2C_RELEASE with the clock off and
the lock still to free (41_i2c_bus_control.md R98, R99). -/
def Cmd.clockPending (b : Nat) (c : Cmd) : Bool :=
  decide (c.instr = .i2cAcquire b ∧ .takeLock b ∉ c.code ∧ .clock b true ∈ c.code) ||
    decide (c.instr = .i2cRelease b ∧ .clock b false ∉ c.code ∧ .freeLock b ∈ c.code)

/-- The same of the power-block count: the lock is taken and the deepest sleep not yet blocked, or it is unblocked and the lock not yet
free. -/
def Cmd.blockPending (b : Nat) (c : Cmd) : Bool :=
  decide (c.instr = .i2cAcquire b ∧ .takeLock b ∉ c.code ∧ .pmBlock ∈ c.code) ||
    decide (c.instr = .i2cRelease b ∧ .pmUnblock ∉ c.code ∧ .freeLock b ∈ c.code)

/-- The lock of bus `b` is held, by a task that is not between the two halves of an acquire or release of it. -/
def State.settled (s : State) (pending : Nat → Cmd → Bool) (b : Nat) : Bool :=
  match (s.bus b).lock with
  | .free => false
  | .owned t => !((s.task t).cmd.any (pending b))

/-- 10_state.md R45 at every micro-step: the clock of an initialised bus is on exactly while its lock is held, and the power-block count is
the number of held locks, both corrected by the micro-steps that the owners inside I2C_ACQUIRE and I2C_RELEASE have still to run. -/
def State.powerTrue (s : State) : Prop :=
  (∀ b, b < s.buses.length → (s.bus b).initDone = true → (s.bus b).clkEn = s.settled Cmd.clockPending b) ∧
    s.pmDeepBlocks = (List.range s.buses.length).countP (s.settled Cmd.blockPending)

/-- No task is inside I2C_ACQUIRE or I2C_RELEASE, the premise of 10_state.md R45. -/
def State.betweenPairs (s : State) : Prop :=
  ∀ t c b, (s.task t).cmd = some c → c.instr ≠ .i2cAcquire b ∧ c.instr ≠ .i2cRelease b

/-- 10_state.md R46 at one bus: a transaction held open means the lock is owned, the engine is master and the bus is busy. -/
def heldOk (u : Bus) : Prop := u.phase ≠ .idle → u.lock ≠ .free ∧ u.ctl.master = true ∧ u.ctl.busy = true

/-- Micro-steps of a transfer, with the engine master or not before them, that go on to an address byte and hold a transaction open only as
master (40_i2c_handshake.md R86, R87, R90; 42_i2c_transfers.md R106). -/
def gripped : Bool → List Micro → Bool
  | _, [] => true
  | _, .genStart _ _ _ _ :: rest => gripped true rest
  | master, .askStart _ _ _ _ first :: rest => (first || master) && gripped true rest
  | master, .gotStart _ _ _ _ first _ :: rest => (first || master) && gripped true rest
  | master, .askAddr _ _ _ _ :: rest => master && gripped master rest
  | master, .gotAddr _ _ _ _ _ :: rest => master && gripped master rest
  | master, .setPhase _ p :: rest => (decide (p = .idle) || master) && gripped master rest
  | _, .closeBus _ :: rest => gripped false rest
  | master, _ :: rest => gripped master rest

/-- What 10_state.md R46 needs of a command in progress: a transfer's micro-steps rely on no mastership that it has not, and a release that has
seen the bus not busy, its lock not yet freed, has no transaction open (41_i2c_bus_control.md R99). -/
def Cmd.holdsOn (s : State) (c : Cmd) : Prop :=
  match c.instr with
  | .i2cRead b _ _ _ _ => gripped (s.bus b).ctl.master c.code = true
  | .i2cWrite b _ _ _ _ => gripped (s.bus b).ctl.master c.code = true
  | .i2cReadRegs b _ _ _ _ _ => gripped (s.bus b).ctl.master c.code = true
  | .i2cWriteRegs b _ _ _ _ _ => gripped (s.bus b).ctl.master c.code = true
  | .i2cRelease b => .waitNotBusy b ∉ c.code → .freeLock b ∈ c.code → (s.bus b).phase = .idle
  | .i2cInit _ => True
  | .i2cAcquire _ => True
  | .sfrPush _ _ => True
  | .sfrRead _ _ _ _ => True
  | .sfrReadUntil _ _ _ _ _ _ => True

/-- 10_state.md R46 at every bus; and, besides, a master keeps its bus busy, and only an initialised bus has one. -/
def State.heldTrue (s : State) : Prop :=
  (∀ b, b < s.buses.length → heldOk (s.bus b) ∧ ((s.bus b).ctl.master = true → (s.bus b).ctl.busy = true) ∧
    ((s.bus b).initDone = false → (s.bus b).ctl.master = false)) ∧
  ∀ t c, (s.task t).cmd = some c → c.holdsOn s

/-- The power-management collaborator may enter the deepest sleep state (60_exceptions.md R137). -/
def State.deepSleepAllowed (s : State) : Bool := decide (s.pmDeepBlocks = 0)

/-- No resource leak at the end of a run (70_reset_and_hazards.md R143). -/
def State.noLeak (s : State) : Bool := s.buses.all (fun u => decide (u.lock = .free)) && s.deepSleepAllowed

/-- The parameters are legal (00_scope.md R6, R9, R12). -/
def State.parametersLegal (s : State) : Bool :=
  decide (1 ≤ s.buses.length) && decide (s.buses.length ≤ 16) && decide (1 ≤ s.readers.length) && decide (s.readers.length ≤ 16)
    && s.readers.all (fun d => decide (1 ≤ d.cap)) && s.cfg.errCodes.legal

/-! ### One owner of a bus (20_memory.md R57) -/

/-- The bus a micro-step works on. -/
def Micro.bus? : Micro → Option Nat
  | .resetLock b | .clock b _ | .pins b _ | .enable b _ | .setCcr b | .setFs b | .recoverIfBusy b | .askRecover b | .noteRecover b
  | .drawBusy b | .setPhase b _ | .setInitDone b | .joinWaiters b | .takeLock b | .waitNotBusy b | .freeLock b
  | .genStart b _ _ _ | .askStart b _ _ _ _ | .gotStart b _ _ _ _ _ | .askAddr b _ _ _ | .gotAddr b _ _ _ _ | .askSend b _
  | .gotSend b _ _ | .setAckEn b _ | .askRecv b _ _ | .gotRecv b _ _ _ | .askStop b | .noteStop b | .closeBus b
  | .busFail b _ | .abort b _ | .recvLoop b _ _ _ _ | .sendLoop b _ _ _ | .loadSend b _ => some b
  | .pmBlock | .pmUnblock | .holdForever | .memStore _ _ | .enterRead _ | .armRead _ _ _ _ | .readLoop _ _ _ _ _ | .readAll _ _ _ _
  | .loadPattern _ _ _ _ _ _ _ | .armUntil _ _ _ _ _ | .untilLoop _ _ _ _ _ _ | .untilTest _ _ _ _ _ _ | .leaveRead _ | .ret _ => none

/-- The bus whose environment a micro-step asks (40_i2c_handshake.md R82, R83). -/
def Micro.asks? : Micro → Option Nat
  | .askStart b _ _ _ _ | .askAddr b _ _ _ | .askSend b _ | .askRecv b _ _ | .askStop b | .askRecover b => some b
  | _ => none

/-- The answers that end a transfer early, by the micro-step that asks: the event they leave on the wire and the error they are
(40_i2c_handshake.md R86 to R89, R93). -/
def Micro.failure : Micro → Answer → Option (WireEvent × ErrorKind)
  | .askStart _ _ _ _ _, .arbLost => some (.lost, .arbLost)
  | .askAddr _ _ _ _, .arbLost => some (.lost, .arbLost)
  | .askAddr _ _ _ _, .busError => some (.berr, .busError)
  | .askSend _ v, .nack => some (.tx v .nack, .dataNack)
  | .askSend _ _, .arbLost => some (.lost, .arbLost)
  | .askSend _ _, .busError => some (.berr, .busError)
  | .askRecv _ _ _, .arbLost => some (.lost, .arbLost)
  | .askRecv _ _ _, .busError => some (.berr, .busError)
  | .askRecv _ _ _, .overrun => some (.ovr, .overrun)
  | _, _ => none

/-- The bus after such an answer, with `e` on the wire, `rest` answers undrawn: lost arbitration ends mastership and the transaction
(40_i2c_handshake.md R86 to R89; 10_state.md R46; the latter the model's choice, log 18). -/
def busFailed (u : Bus) (e : WireEvent) (k : ErrorKind) (rest : List Answer) : Bus :=
  { u with
    trace := u.trace ++ [e]
    answers := rest
    phase := if k = .arbLost then .idle else u.phase
    ctl := { u.ctl with ev := {}, master := u.ctl.master && decide (k ≠ .arbLost) } }

/-- The bus after the engine has given it up: no transaction open, not master (40_i2c_handshake.md R90, R94). -/
def busClosed (u : Bus) (events : List WireEvent) (rest : List Answer) : Bus :=
  { u with
    trace := u.trace ++ events
    answers := rest
    phase := .idle
    ctl := { u.ctl with ev := {}, master := false, busy := false } }

/-- The micro-steps do not touch bus `b`: none works on it, or the task waits in I2C_ACQUIRE for its lock. -/
def offBus (b : Nat) (code : List Micro) : Prop :=
  (∀ m ∈ code, m.bus? ≠ some b) ∨ code = acquireCode b ∨ code = (acquireCode b).tail

/-- Task `t` owns the lock of the initialised bus `b`, and no other task's command in progress touches it. -/
def State.exclusive (s : State) (b t : Nat) : Prop :=
  s.busReady b ∧ (s.bus b).lock = .owned t ∧ ∀ t', t' ≠ t → ∀ c, (s.task t').cmd = some c → offBus b c.code

/-! ### A whole transfer: the environment's answers and the wire events -/

/-- `n` refused START and address rounds, then an acknowledged one; nothing for a continuation. -/
def openAnswers (nostart : Bool) (n : Nat) : List Answer :=
  if nostart then [] else (List.replicate n [Answer.ok, Answer.nack]).flatten ++ [.ok, .ack]

/-- The answer to the STOP that ends a transfer, where there is one. -/
def closeAnswers (nostop : Bool) : List Answer := if nostop then [] else [.ok]

/-- The event of a START: `S` from the idle bus, `Sr` where the engine is master (40_i2c_handshake.md R86). -/
def startEvent (master : Bool) : WireEvent := if master then .restart else .start

/-- The events of an opening with `n` refused rounds (40_i2c_handshake.md R91, 42_i2c_transfers.md R113). -/
def openEvents (master : Bool) (v : Byte) : Nat → List WireEvent
  | 0 => [startEvent master, .addr v .ack]
  | n + 1 => startEvent master :: .addr v .nack :: openEvents true v n

/-- The events of the opening of a transfer (42_i2c_transfers.md R104). -/
def openTrace (nostart master : Bool) (v : Byte) (n : Nat) : List WireEvent := if nostart then [] else openEvents master v n

/-- The events of received bytes: all acknowledged but the last, which is acknowledged exactly if the read is held open
(42_i2c_transfers.md R105). -/
def rxEvents (nostop : Bool) : List Byte → List WireEvent
  | [] => []
  | [v] => [.rx v (if nostop then .ack else .nack)]
  | v :: w :: vs => .rx v .ack :: rxEvents nostop (w :: vs)

/-- The events of acknowledged sent bytes (40_i2c_handshake.md R88). -/
def txEvents (vs : List Byte) : List WireEvent := vs.map fun v => .tx v .ack

/-- The event of the STOP, where there is one (42_i2c_transfers.md R106). -/
def closeEvents (nostop : Bool) : List WireEvent := if nostop then [] else [.stop]

/-- The bus after a successful transfer that emitted `events` and left `rest` answers undrawn (42_i2c_transfers.md R106). `ackEn` is the
last acknowledge setting. -/
def busAfter (u : Bus) (addr : Addr7) (d : Dir) (f : XferFlags) (ackEn : Bool) (events : List WireEvent) (rest : List Answer) : Bus :=
  { u with
    phase := if f.nostop then heldPhase d addr else .idle
    trace := u.trace ++ events
    answers := rest
    ctl :=
      { u.ctl with
        ackEn := ackEn
        ev := {}
        master := if f.nostop then (if f.nostart then u.ctl.master else true) else false
        busy := if f.nostop then (if f.nostart || u.ctl.master then u.ctl.busy else true) else false } }

/-- A first START needs a bus that is not busy; a repeated START, and a continuation, do not (40_i2c_handshake.md R86). -/
abbrev startFree (u : Bus) (nostart : Bool) : Prop := nostart = false → u.ctl.master = false → u.ctl.busy = false

/-! ### Serial reads -/

/-- No nonempty front part of `vs` ends with the pattern (43_serial_frame_reader.md R118). -/
def noMatchBefore (vs pat : List Byte) : Prop := ∀ k, 1 ≤ k → k ≤ vs.length → endsWith (vs.take k) pat = false

/-- Reader `r` after a read took `taken` bytes and ended. -/
def readerAfter (taken : Nat) (d : Reader) : Reader := { d with q := d.q.drop taken, consumer := none }

end Sys2Proof.Machine
end

