-- ==== Sys2Proof/Certificates/Slice0/Obligations.lean ====
section
/-! DEFINITION. The statements for the provers. Every statement is about the machine; none about a program. Where a statement has a
premise `k <= n` on the micro-steps of the turn, it says that the turn is long enough for the whole command (log 2). -/

open Sys2Proof Sys2Proof.Machine

/-! ### Encoding -/

/-- Decoding the descriptor of a well-formed command gives the command back, every operand at every value its field can hold
(30_encoding.md R64 to R69, R73). -/
def Obligations.DecodeOfEncode : Prop := ∀ i : Instr, i.wellFormed = true → decode (encode i) = .ok i

/-- A decoded command is well-formed, and its descriptor is the one decoded: the same word 0, and the same operand words as far as
the command's length reaches (30_encoding.md R67, R72, R73). -/
def Obligations.EncodeOfDecode : Prop :=
  ∀ (d : Desc) (i : Instr), decode d = .ok i →
    i.wellFormed = true ∧ i.word0 = d.w0 ∧
      (3 ≤ descLength (field d.w0 3 0) → (encode i).w1 = d.w1 ∧ (encode i).w2 = d.w2) ∧
      (4 ≤ descLength (field d.w0 3 0) → (encode i).w3 = d.w3) ∧
      (5 ≤ descLength (field d.w0 3 0) → (encode i).w4 = d.w4)

/-- 30_encoding.md R71: a descriptor is refused by the decoder exactly where one of the rule's clauses holds of word 0, and an agent
that issues it raises Fault(ReservedEncoding) with no other effect (the turn passes). -/
def Obligations.ReservedDescriptorsFault : Prop :=
  (∀ d : Desc, (∃ r, decode d = .error r) ↔ reservedWord d.w0) ∧
  (∀ (s : State) (t n : Nat) (d : Desc), s.taskMoves t n → (s.task t).cmd = none → s.fetch t = some d → reservedWord d.w0 →
    step s = .next { s with fault := some ⟨.reservedEncoding, .task t, d.w0⟩ }.endTurn) ∧
  (∀ (s : State) (r : Nat) (d : Desc), s.turn = .uart r d → s.fault = none → r < s.readers.length → reservedWord d.w0 →
    step s = .next { s with fault := some ⟨.reservedEncoding, .uartRx r, d.w0⟩ }.endTurn)

/-- The worked encodings of 30_encoding.md R81: each word decodes to its command, and the command is encoded as that word. -/
def Obligations.WorkedEncodings : Prop :=
  (decode { w0 := 0x00000001 } = .ok (.i2cInit 0) ∧ (Instr.i2cInit 0).word0 = 0x00000001) ∧
  (decode { w0 := 0x00000012 } = .ok (.i2cAcquire 1) ∧ (Instr.i2cAcquire 1).word0 = 0x00000012) ∧
  (decode { w0 := 0x00000003 } = .ok (.i2cRelease 0) ∧ (Instr.i2cRelease 0).word0 = 0x00000003) ∧
  (∀ len buf : Word, decode { w0 := 0x00004804, w1 := len, w2 := buf } = .ok (.i2cRead 0 0x48 {} len.toNat buf.toNat) ∧
    (Instr.i2cRead 0 0x48 {} len.toNat buf.toNat).word0 = 0x00004804) ∧
  (∀ len buf : Word, decode { w0 := 0x00044805, w1 := len, w2 := buf } =
      .ok (.i2cWrite 0 0x48 { nostop := true } len.toNat buf.toNat) ∧
    (Instr.i2cWrite 0 0x48 { nostop := true } len.toNat buf.toNat).word0 = 0x00044805) ∧
  (∀ len buf : Word, decode { w0 := 0x00004806, w1 := len, w2 := buf } = .ok (.i2cReadRegs 0 0x48 0x00 {} len.toNat buf.toNat) ∧
    (Instr.i2cReadRegs 0 0x48 0x00 {} len.toNat buf.toNat).word0 = 0x00004806) ∧
  (∀ len buf : Word, decode { w0 := 0x00104807, w1 := len, w2 := buf } = .ok (.i2cWriteRegs 0 0x48 0x01 {} len.toNat buf.toNat) ∧
    (Instr.i2cWriteRegs 0 0x48 0x01 {} len.toNat buf.toNat).word0 = 0x00104807) ∧
  (decode { w0 := 0x00004308 } = .ok (.sfrPush 0 0x43) ∧ (Instr.sfrPush 0 0x43).word0 = 0x00004308) ∧
  (∀ n buf t : Word, decode { w0 := 0x00000009, w1 := n, w2 := buf, w3 := t } = .ok (.sfrRead 0 n.toNat buf.toNat t.toNat) ∧
    (Instr.sfrRead 0 n.toNat buf.toNat t.toNat).word0 = 0x00000009) ∧
  (∀ max buf t pat : Word, decode { w0 := 0x0000040A, w1 := max, w2 := buf, w3 := t, w4 := pat } =
      .ok (.sfrReadUntil 0 4 max.toNat buf.toNat t.toNat pat.toNat) ∧
    (Instr.sfrReadUntil 0 4 max.toNat buf.toNat t.toNat pat.toNat).word0 = 0x0000040A)

/-- 30_encoding.md R74: the address byte is `(addr << 1) | rw`, with `rw = 1` for a read and `rw = 0` for a write. -/
def Obligations.AddressByteIsShiftedAddress : Prop :=
  ∀ addr : Addr7,
    addrByte addr .read = ((addr.zeroExtend 8) <<< 1) ||| 1 ∧ addrByte addr .write = (addr.zeroExtend 8) <<< 1 ∧
    (addrByte addr .read).toNat = 2 * addr.toNat + 1 ∧ (addrByte addr .write).toNat = 2 * addr.toNat

/-- 30_encoding.md R75: the result the host sees, an i32, is the count `n` of `Ok(n)`, or `ERR_CODE(k)`, negative (of legal codes, 00_scope.md
R12, the kinds told apart). -/
def Obligations.ResultCodeSign : Prop :=
  ∀ c : Config,
    (∀ n, n < 2 ^ 31 → (resultCode c (.ok n)).toInt = n) ∧
    (c.errCodes.legal = true → ∀ k, resultCode c (.err k) = c.errCodes.code k ∧ (resultCode c (.err k)).toInt < 0) ∧
    (c.errCodes.legal = true → ∀ k k', resultCode c (.err k) = resultCode c (.err k') → k = k')

/-! ### Steps -/

/-- A step runs the decoded command: where the turn is a task's that is not inside a command, and the descriptor at its command
pointer decodes to `i`, the step is exec of `i` at that very state, the turn then over. -/
def Obligations.StepRunsTaskCommand : Prop :=
  ∀ (s : State) (t n : Nat) (d : Desc) (i : Instr), s.taskMoves t n → (s.task t).cmd = none → s.fetch t = some d →
    decode d = .ok i → step s = afterTurn (exec i s)

/-- The same of the receive interrupt, which brings its descriptor with it. 60_exceptions.md R128 gives it SFR_WRITE_ONE only; that it may
bring any descriptor, and so come to Fault(WrongContext) (R133), is the model's choice, log 15. -/
def Obligations.StepRunsInterruptCommand : Prop :=
  ∀ (s : State) (r : Nat) (d : Desc) (i : Instr), s.turn = .uart r d → s.fault = none → r < s.readers.length →
    decode d = .ok i → step s = afterTurn (exec i s)

/-- A task inside a command goes on with it, from the micro-step it had come to (60_exceptions.md R132); a task whose program is
finished has no command to run (10_state.md R24). That the turn of such a task, or of one that does not exist, passes and changes nothing
is the model's choice, log 20. -/
def Obligations.StepResumesTask : Prop :=
  (∀ (s : State) (t n : Nat) (c : Cmd), s.taskMoves t n → (s.task t).cmd = some c →
    step s = .next (runCode t c.instr n c.code s).endTurn) ∧
  (∀ (s : State) (t n : Nat), s.turn = .task t n → s.fault = none →
    s.tasks.length ≤ t ∨ ((s.task t).cmd = none ∧ (s.task t).prog.length ≤ (s.task t).pc) → step s = .next s.endTurn)

/-- 60_exceptions.md R127: there is no return from a fault; no agent steps after the first fault, and no command runs. -/
def Obligations.FaultedBlockNeverSteps : Prop :=
  ∀ s : State, s.fault.isSome = true → step s = .fault .halted ∧ ∀ i, exec i s = .fault .halted

/-- A block without a recorded fault always has a next state: no descriptor, no operand, no environment and no schedule stops it. -/
def Obligations.UnfaultedStepAnswersNext : Prop := ∀ s : State, s.fault = none → ∃ s', step s = .next s'

/-- Where in a command the turns of its task end does not matter while nobody else moves: a turn of `m` micro-steps and then one of `n`
leave what one turn of `m + n` leaves, whether the command has ended, holds, or has raised a fault (00_scope.md R17; log 2). -/
def Obligations.TurnsOfOneTaskAddUp : Prop :=
  ∀ (s : State) (t : Nat) (i : Instr) (code : List Micro) (m n : Nat), t < s.tasks.length →
    (runCode t i m code s).resume t n = runCode t i (m + n) code s

/-! ### Faults -/

/-- 60_exceptions.md R125 and R126: a task, or the receive interrupt, that issues a descriptor raises the first fault that applies, in
the rule's order, before any effect: the state is that before, plus the record with the agent and word 0 (the turn passes), and no
agent has a further step. -/
def Obligations.FirstFaultIsRaised : Prop :=
  (∀ (s : State) (t n : Nat) (d : Desc) (c : FaultCode), s.taskMoves t n → (s.task t).cmd = none → s.fetch t = some d →
    descFault s (.task t) d = some c →
    let s' := { s with fault := some ⟨c, .task t, d.w0⟩ }.endTurn
    step s = .next s' ∧ step s' = .fault .halted) ∧
  (∀ (s : State) (r : Nat) (d : Desc) (c : FaultCode), s.turn = .uart r d → s.fault = none → r < s.readers.length →
    descFault s (.uartRx r) d = some c →
    let s' := { s with fault := some ⟨c, .uartRx r, d.w0⟩ }.endTurn
    step s = .next s' ∧ step s' = .fault .halted)

/-- 60_exceptions.md R133: each command is legal in one context, SFR_WRITE_ONE in interrupt context and every other in task context. In
the other context, its index being legal (R125), it raises Fault(WrongContext) and changes nothing else; in its own it never does. -/
def Obligations.WrongContextFaults : Prop :=
  (∀ (i : Instr) (s : State) (g : Agent) (n : Nat), s.fault = none → s.issuer = some (g, n) →
    (∀ b, i.busOf = some b → b < s.buses.length) → (∀ r, i.readerOf = some r → r < s.readers.length) →
    ((∃ r v, i = .sfrPush r v) ↔ g.inTask = true) → exec i s = .next { s with fault := some ⟨.wrongContext, g, i.word0⟩ }) ∧
  (∀ (i : Instr) (s s' : State) (g : Agent) (n : Nat), s.fault = none → s.issuer = some (g, n) →
    ((∃ r v, i = .sfrPush r v) ↔ g.inTask = false) → exec i s = .next s' → ∀ f, s'.fault = some f → f.code ≠ .wrongContext)

/-- A command whose checks all hold raises none: it answers a next state without a fault record. -/
def Obligations.NoFaultWhereNoneApplies : Prop :=
  ∀ (s : State) (g : Agent) (n : Nat) (i : Instr), s.fault = none → s.issuer = some (g, n) → commandFault s g i = none →
    ∃ s', exec i s = .next s' ∧ s'.fault = none

/-! ### Bus control -/

/-- I2C_INIT (41_i2c_bus_control.md R97, with 40_i2c_handshake.md R95, R96) on a bus not yet initialised, from a task. On a bus that is
not busy: lock free, waiters empty, clock off, CCR and FS from the Bus Handle, pins I2C, enabled, Idle, initialised, no wire event,
Ok(0). On a busy bus whose environment answers: the same with one RECOVER event and BUSY a free value. On a busy bus whose environment
does not answer, or is wedged, the task waits inside the recovery, the controller disabled, the pins GPIO and the clock on. Nothing else
changes. -/
def Obligations.InitCompletes : Prop :=
  ∀ (s : State) (t n b : Nat), s.taskMoves t n → 21 ≤ n → b < s.buses.length → (s.bus b).initDone = false →
    let u := s.bus b
    let c := { u.ctl with pe := true, ccr := u.handle.ccrCfg, fs := decide (u.handle.speed = .fast), pins := .i2c }
    let v := { u with lock := .free, waiters := [], clkEn := false, phase := .idle, initDone := true }
    (u.ctl.busy = false → exec (.i2cInit b) s = .next ((s.setBus b { v with ctl := c }).complete t (.ok 0))) ∧
    (∀ rest, u.ctl.busy = true → u.answers = .ok :: rest →
      exec (.i2cInit b) s = .next (((s.setBus b { v with
        ctl := { c with busy := Config.busyAfterRecovery s.draws, ev := {} }
        answers := rest
        trace := u.trace ++ [.recover s.cfg.recoveryPulses] }).setDraws (s.draws + 1)).complete t (.ok 0))) ∧
    (u.ctl.busy = true → u.answers = [] ∨ u.answers.head? = some .wedged →
      exec (.i2cInit b) s = .next ((s.setBus b { u with
        lock := .free
        waiters := []
        clkEn := true
        ctl := { c with pe := false, pins := .gpio } }).park t
        ⟨.i2cInit b, .askRecover b :: ((recoverCode b).drop 3 ++ (initCode b).drop 8)⟩))

/-- I2C_ACQUIRE (41_i2c_bus_control.md R98) of a free lock: the lock owned by the task, the task no waiter, the deepest sleep blocked
once more, the clock on, Ok(0). Nothing else changes. -/
def Obligations.AcquireTakesFreeLock : Prop :=
  ∀ (s : State) (t n b : Nat), s.taskMoves t n → 5 ≤ n → s.busReady b → (s.bus b).lock = .free →
    exec (.i2cAcquire b) s = .next (((s.setBus b { s.bus b with
      lock := .owned t, waiters := setErase t (s.bus b).waiters, clkEn := true }).setPm (s.pmDeepBlocks + 1)).complete t (.ok 0))

/-- I2C_ACQUIRE of a lock that is held, by another task or by the caller itself (the lock is not recursive, 41_i2c_bus_control.md R98):
the task waits, inside the command, as a waiter; a later turn finds it there, and changes nothing while the lock is held. -/
def Obligations.AcquireWaitsForHeldLock : Prop :=
  (∀ (s : State) (t n b : Nat), s.taskMoves t n → 2 ≤ n → s.busReady b → (s.bus b).lock ≠ .free →
    exec (.i2cAcquire b) s = .next ((s.setBus b { s.bus b with waiters := setInsert t (s.bus b).waiters }).park t
      ⟨.i2cAcquire b, (acquireCode b).tail⟩)) ∧
  (∀ (s : State) (t n b : Nat), s.taskMoves t n → (s.task t).cmd = some ⟨.i2cAcquire b, (acquireCode b).tail⟩ →
    (s.bus b).lock ≠ .free → step s = .next s.endTurn)

/-- I2C_RELEASE (41_i2c_bus_control.md R99) by the owner, the bus not busy: the clock off, the deepest sleep blocked once less, the lock
free, Ok(0). Nothing else changes. -/
def Obligations.ReleaseFreesLock : Prop :=
  ∀ (s : State) (t n b : Nat), s.taskMoves t n → 5 ≤ n → s.busReady b → (s.bus b).lock = .owned t → (s.bus b).ctl.busy = false →
    exec (.i2cRelease b) s = .next (((s.setBus b { s.bus b with lock := .free, clkEn := false }).setPm
      (s.pmDeepBlocks - 1)).complete t (.ok 0))

/-- 70_reset_and_hazards.md R145: I2C_RELEASE with a transaction held open (the engine master, the bus busy) waits, and goes on waiting:
no turn of BusEnv changes BUSY while the engine is master, and no turn of any agent ends the wait, as long as no other task is in the
middle of a command on the bus (R57). -/
def Obligations.ReleaseOfHeldBusHangs : Prop :=
  (∀ (s : State) (t n b : Nat), s.taskMoves t n → s.busReady b → (s.bus b).lock = .owned t → (s.bus b).ctl.busy = true →
    exec (.i2cRelease b) s = .next (s.park t ⟨.i2cRelease b, releaseCode b⟩)) ∧
  (∀ (s : State) (t n b : Nat), s.taskMoves t n → (s.task t).cmd = some ⟨.i2cRelease b, releaseCode b⟩ →
    (s.bus b).ctl.busy = true → step s = .next s.endTurn) ∧
  (∀ (s : State) (b : Nat) (v : Bool), s.turn = .busBusy b v → s.fault = none → (s.bus b).ctl.master = true →
    step s = .next s.endTurn) ∧
  (∀ (s s' : State) (t b : Nat), s.exclusive b t → (s.task t).cmd = some ⟨.i2cRelease b, releaseCode b⟩ →
    (s.bus b).ctl.master = true → (s.bus b).ctl.busy = true → step s = .next s' →
    s'.exclusive b t ∧ (s'.task t).cmd = some ⟨.i2cRelease b, releaseCode b⟩ ∧ (s'.bus b).ctl.master = true ∧
      (s'.bus b).ctl.busy = true ∧ (s'.task t).results = (s.task t).results)

/-- 41_i2c_bus_control.md R100: an acquire of a free lock and the release after it, the bus not busy, leave the lock, the clock gate and
the power-block count as they were. -/
def Obligations.AcquireThenReleaseRestores : Prop :=
  ∀ (s : State) (t n b : Nat), s.taskMoves t n → 5 ≤ n → s.busReady b → (s.bus b).lock = .free → (s.bus b).clkEn = false →
    (s.bus b).ctl.busy = false →
    ∃ s₁ s₂, exec (.i2cAcquire b) s = .next s₁ ∧ exec (.i2cRelease b) s₁ = .next s₂ ∧
      (s₂.bus b).lock = (s.bus b).lock ∧ (s₂.bus b).clkEn = (s.bus b).clkEn ∧ s₂.pmDeepBlocks = s.pmDeepBlocks ∧
      (s₂.task t).results = (s.task t).results ++ [.ok 0, .ok 0]

/-- 10_state.md R45. Every step of every agent keeps it, corrected by the micro-steps that the owners inside I2C_ACQUIRE and I2C_RELEASE have
still to run, together with where the commands in progress can be, as long as no I2C_INIT is issued on a bus that another task is
initialising (70_reset_and_hazards.md R142; log 17). Where no task is inside the two, it is R45 itself. A command run alone in one turn,
from a state and to a state in which no task is inside a command, keeps R45 whatever the rest of the state is. -/
def Obligations.PowerInvariantKept : Prop :=
  (∀ s s' : State, s.placed → s.powerTrue → s.initNotDoubled → step s = .next s' → s'.placed ∧ s'.powerTrue) ∧
  (∀ s : State, s.powerTrue → s.betweenPairs →
    (∀ b, b < s.buses.length → (s.bus b).initDone = true → (s.bus b).clkEn = decide ((s.bus b).lock ≠ .free)) ∧
      s.pmDeepBlocks = s.heldLocks) ∧
  (∀ (i : Instr) (s s' : State) (t n : Nat), s.taskMoves t n → s.quiet → s.powerOk → exec i s = .next s' → s'.quiet → s'.powerOk)

/-- 10_state.md R46, as the model reads it with 40_i2c_handshake.md R86 and R90 (log 18). Every step of every agent keeps it: a transaction
held open means that the lock is owned, the engine is master and the bus is busy. The premises say where the commands in progress can be,
and that no I2C_INIT is issued on a bus that another task is initialising (70_reset_and_hazards.md R142; log 17). -/
def Obligations.StepKeepsHeldTransactions : Prop :=
  ∀ s s' : State, s.placed → s.heldTrue → s.initNotDoubled → step s = .next s' →
    s'.heldTrue ∧ ∀ b, heldOk (s'.bus b)

/-- 20_memory.md R57: while a task owns the lock of an initialised bus and no other task is in the middle of a command on it, a turn of
any other agent keeps this so, adds no wire event, and leaves the lock, the clock, the open transaction and the controller of the bus
alone (BusEnv may change BUSY and give answers). -/
def Obligations.OtherAgentsLeaveOwnedBus : Prop :=
  ∀ (s s' : State) (b t : Nat), s.exclusive b t → (∀ n, s.turn ≠ .task t n) → step s = .next s' →
    s'.exclusive b t ∧ (s'.bus b).trace = (s.bus b).trace ∧ (s'.bus b).clkEn = (s.bus b).clkEn ∧
      (s'.bus b).phase = (s.bus b).phase ∧ ((∀ v, s.turn ≠ .busBusy b v) → (s'.bus b).ctl = (s.bus b).ctl)

/-! ### Transfers -/

/-- I2C_READ_BYTES (42_i2c_transfers.md R108, with R103 to R106): the owner of an initialised bus, a legal length and opening, a buffer
that may be written, and an environment that acknowledges the address, sends the bytes `vs` and ends: the bytes are in host memory from
BUF on, the wire shows START or repeated START (none for NOSTART), the address byte with the read flag, each byte with its acknowledge,
STOP (none for NOSTOP), and the result is Ok(LEN). Nothing else changes. -/
def Obligations.ReadBytesCompletes : Prop :=
  ∀ (s : State) (t n b : Nat) (addr : Addr7) (f : XferFlags) (buf : Nat) (vs : List Byte) (rest : List Answer),
    s.taskMoves t n → 5 * vs.length + 13 ≤ n → s.busReady b → (s.bus b).lock = .owned t → lenLegal vs.length buf →
    f.addr10 = false → f.reg16 = false → openingInTable f.nostart (s.bus b).phase .read addr = true →
    startFree (s.bus b) f.nostart → s.bufWritable buf vs.length →
    (s.bus b).answers = openAnswers f.nostart 0 ++ vs.map Answer.byte ++ closeAnswers f.nostop ++ rest →
    exec (.i2cRead b addr f vs.length buf) s = .next (((s.setBus b (busAfter (s.bus b) addr .read f f.nostop
      (openTrace f.nostart (s.bus b).ctl.master (addrByte addr .read) 0 ++ rxEvents f.nostop vs ++ closeEvents f.nostop) rest)).setMem
      (s.mem.writeBytes buf vs)).complete t (.ok vs.length))

/-- I2C_WRITE_BYTES (42_i2c_transfers.md R109, with R103, R104, R106): as the read, the bytes of host memory from BUF on sent in order,
each acknowledged. Host memory is only read. -/
def Obligations.WriteBytesCompletes : Prop :=
  ∀ (s : State) (t n b : Nat) (addr : Addr7) (f : XferFlags) (len buf : Nat) (rest : List Answer),
    s.taskMoves t n → 4 * len + 13 ≤ n → s.busReady b → (s.bus b).lock = .owned t → lenLegal len buf →
    f.addr10 = false → f.reg16 = false → openingInTable f.nostart (s.bus b).phase .write addr = true →
    startFree (s.bus b) f.nostart → s.bufReadable buf len →
    (s.bus b).answers = openAnswers f.nostart 0 ++ List.replicate len Answer.ack ++ closeAnswers f.nostop ++ rest →
    exec (.i2cWrite b addr f len buf) s = .next ((s.setBus b (busAfter (s.bus b) addr .write f (s.bus b).ctl.ackEn
      (openTrace f.nostart (s.bus b).ctl.master (addrByte addr .write) 0 ++ txEvents (s.mem.readBytes buf len) ++
        closeEvents f.nostop) rest)).complete t (.ok len))

/-- I2C_READ_REGS (42_i2c_transfers.md R110): START, address, register byte, repeated START, address with the read flag, the bytes, the
last one not acknowledged, STOP; the bytes in host memory from BUF on, Ok(LEN). Nothing else changes. -/
def Obligations.ReadRegsCompletes : Prop :=
  ∀ (s : State) (t n b : Nat) (addr : Addr7) (reg : Byte) (buf : Nat) (vs : List Byte) (rest : List Answer),
    s.taskMoves t n → 5 * vs.length + 21 ≤ n → s.busReady b → (s.bus b).lock = .owned t → lenLegal vs.length buf →
    openingInTable false (s.bus b).phase .write addr = true → startFree (s.bus b) false → s.bufWritable buf vs.length →
    (s.bus b).answers = [.ok, .ack, .ack, .ok, .ack] ++ vs.map Answer.byte ++ [.ok] ++ rest →
    exec (.i2cReadRegs b addr reg {} vs.length buf) s = .next (((s.setBus b (busAfter (s.bus b) addr .read {} false
      ([startEvent (s.bus b).ctl.master, .addr (addrByte addr .write) .ack, .tx reg .ack, .restart,
        .addr (addrByte addr .read) .ack] ++ rxEvents false vs ++ [.stop]) rest)).setMem
      (s.mem.writeBytes buf vs)).complete t (.ok vs.length))

/-- I2C_WRITE_REGS (42_i2c_transfers.md R111): START, address, register byte, the bytes of host memory from BUF on with no START
between, STOP; Ok(LEN). Nothing else changes. -/
def Obligations.WriteRegsCompletes : Prop :=
  ∀ (s : State) (t n b : Nat) (addr : Addr7) (reg : Byte) (len buf : Nat) (rest : List Answer),
    s.taskMoves t n → 4 * len + 16 ≤ n → s.busReady b → (s.bus b).lock = .owned t → lenLegal len buf →
    openingInTable false (s.bus b).phase .write addr = true → startFree (s.bus b) false → s.bufReadable buf len →
    (s.bus b).answers = [.ok, .ack, .ack] ++ List.replicate len Answer.ack ++ [.ok] ++ rest →
    exec (.i2cWriteRegs b addr reg {} len buf) s = .next ((s.setBus b (busAfter (s.bus b) addr .write {} (s.bus b).ctl.ackEn
      ([startEvent (s.bus b).ctl.master, .addr (addrByte addr .write) .ack, .tx reg .ack] ++
        txEvents (s.mem.readBytes buf len) ++ [.stop]) rest)).complete t (.ok len))

/-- 42_i2c_transfers.md R107: after the checks, a byte transfer with ADDR10 or REG16 and a register transfer with any flag return
Err(Unsupported), with no bus or memory activity. -/
def Obligations.UnsupportedFlagsRefused : Prop :=
  ∀ (s : State) (t n b : Nat) (addr : Addr7) (reg : Byte) (f : XferFlags) (len buf : Nat), s.taskMoves t n → 1 ≤ n →
    (f.addr10 = true ∨ f.reg16 = true → commandFault s (.task t) (.i2cRead b addr f len buf) = none →
      exec (.i2cRead b addr f len buf) s = .next (s.complete t (.err .unsupported))) ∧
    (f.addr10 = true ∨ f.reg16 = true → commandFault s (.task t) (.i2cWrite b addr f len buf) = none →
      exec (.i2cWrite b addr f len buf) s = .next (s.complete t (.err .unsupported))) ∧
    (f ≠ {} → commandFault s (.task t) (.i2cReadRegs b addr reg f len buf) = none →
      exec (.i2cReadRegs b addr reg f len buf) s = .next (s.complete t (.err .unsupported))) ∧
    (f ≠ {} → commandFault s (.task t) (.i2cWriteRegs b addr reg f len buf) = none →
      exec (.i2cWriteRegs b addr reg f len buf) s = .next (s.complete t (.err .unsupported)))

/-- 42_i2c_transfers.md R113: with no retry limit, an environment that refuses the address `k` times and then acknowledges it gives `S`
(or `Sr` where the engine is master), ADDR(v, N), then `Sr`, ADDR(v, N) for each further refusal, then `Sr`, ADDR(v, A), and the transfer
goes on from there: it completes as an acknowledged first attempt does. For every transfer with a START. -/
def Obligations.AddressRetriesUntilAcked : Prop :=
  ∀ (s : State) (t n b : Nat) (addr : Addr7) (d : Dir) (k : Nat) (i : Instr) (code : List Micro) (rest : List Answer),
    b < s.buses.length → s.cfg.retryLimit = none → startFree (s.bus b) false →
    (s.bus b).answers = openAnswers false k ++ rest →
    ∃ m, m ≤ 5 * k + 6 ∧ runCode t i (n + m) (.genStart b addr d 0 :: code) s =
      runCode t i n code (s.setBus b { s.bus b with
        trace := (s.bus b).trace ++ openEvents (s.bus b).ctl.master (addrByte addr d) k
        answers := rest
        ctl := { (s.bus b).ctl with
          ev := {}
          master := true
          busy := if (s.bus b).ctl.master then (s.bus b).ctl.busy else true } })

/-- With `ADDR_NACK_RETRY_LIMIT = some k` (40_i2c_handshake.md R91) and an address refused `k + 1` times, a transfer sends STOP and
returns Err(NoAck), after `k + 1` attempts: each byte transfer, each register transfer in its first address phase, and I2C_READ_REGS in
its second. Nothing else changes. -/
def Obligations.RetryLimitGivesNoAck : Prop :=
  (∀ (s : State) (t n b k : Nat) (addr : Addr7) (reg : Byte) (f : XferFlags) (len buf : Nat) (rest : List Answer),
    s.taskMoves t n → 5 * k + 13 ≤ n → s.cfg.retryLimit = some k → f.nostart = false → f.addr10 = false → f.reg16 = false →
    startFree (s.bus b) false →
    (s.bus b).answers = (List.replicate (k + 1) [Answer.ok, Answer.nack]).flatten ++ .ok :: rest →
    let after := fun d => ((s.setBus b (busAfter (s.bus b) addr d {} (s.bus b).ctl.ackEn
      ((openEvents (s.bus b).ctl.master (addrByte addr d) (k + 1)).take (2 * (k + 1)) ++ [.stop]) rest)).complete t (.err .noAck))
    (commandFault s (.task t) (.i2cRead b addr f len buf) = none → exec (.i2cRead b addr f len buf) s = .next (after .read)) ∧
    (commandFault s (.task t) (.i2cWrite b addr f len buf) = none → exec (.i2cWrite b addr f len buf) s = .next (after .write)) ∧
    (commandFault s (.task t) (.i2cReadRegs b addr reg {} len buf) = none →
      exec (.i2cReadRegs b addr reg {} len buf) s = .next (after .write)) ∧
    (commandFault s (.task t) (.i2cWriteRegs b addr reg {} len buf) = none →
      exec (.i2cWriteRegs b addr reg {} len buf) s = .next (after .write))) ∧
  (∀ (s : State) (t n b k : Nat) (addr : Addr7) (reg : Byte) (len buf : Nat) (rest : List Answer),
    s.taskMoves t n → 5 * k + 21 ≤ n → s.cfg.retryLimit = some k → startFree (s.bus b) false →
    commandFault s (.task t) (.i2cReadRegs b addr reg {} len buf) = none →
    (s.bus b).answers = [.ok, .ack, .ack] ++ (List.replicate (k + 1) [Answer.ok, Answer.nack]).flatten ++ .ok :: rest →
    exec (.i2cReadRegs b addr reg {} len buf) s = .next ((s.setBus b (busAfter (s.bus b) addr .read {} (s.bus b).ctl.ackEn
      ([startEvent (s.bus b).ctl.master, .addr (addrByte addr .write) .ack, .tx reg .ack] ++
        (openEvents true (addrByte addr .read) (k + 1)).take (2 * (k + 1)) ++ [.stop]) rest)).complete t (.err .noAck)))

/-- 40_i2c_handshake.md R93 on a refused data byte of I2C_WRITE_BYTES, `j` bytes acknowledged before it, and on a refused register byte
of a register transfer: with Hang the task holds for ever after the event, inside the command; with Report the engine sends STOP and
the command returns Err(DataNack). -/
def Obligations.DataNackFollowsPolicy : Prop :=
  (∀ (s : State) (t n b : Nat) (addr : Addr7) (f : XferFlags) (len buf j : Nat) (rest : List Answer),
    s.taskMoves t n → 4 * j + 18 ≤ n → commandFault s (.task t) (.i2cWrite b addr f len buf) = none →
    f.addr10 = false → f.reg16 = false → f.nostart = false → j < len → startFree (s.bus b) false → s.bufReadable buf len →
    (s.bus b).answers = [.ok, .ack] ++ List.replicate j Answer.ack ++ .nack :: rest →
    let u := s.bus b
    let events := [startEvent u.ctl.master, .addr (addrByte addr .write) .ack] ++ txEvents (s.mem.readBytes buf j) ++
      [.tx (s.mem.read (buf + j)) .nack]
    (s.cfg.busErrorPolicy = .hang → exec (.i2cWrite b addr f len buf) s = .next ((s.setBus b { u with
      trace := u.trace ++ events, answers := rest,
      ctl := { u.ctl with ev := {}, master := true, busy := if u.ctl.master then u.ctl.busy else true } }).park t
      ⟨.i2cWrite b addr f len buf, [.holdForever]⟩)) ∧
    (∀ rest', s.cfg.busErrorPolicy = .report → rest = .ok :: rest' → exec (.i2cWrite b addr f len buf) s =
      .next ((s.setBus b (busAfter u addr .write {} u.ctl.ackEn (events ++ [.stop]) rest')).complete t (.err .dataNack)))) ∧
  (∀ (s : State) (t n b : Nat) (addr : Addr7) (reg : Byte) (i : Instr) (len buf : Nat) (rest : List Answer),
    s.taskMoves t n → 18 ≤ n → i = .i2cReadRegs b addr reg {} len buf ∨ i = .i2cWriteRegs b addr reg {} len buf →
    commandFault s (.task t) i = none → startFree (s.bus b) false → (s.bus b).answers = [.ok, .ack, .nack] ++ rest →
    let u := s.bus b
    let events := [startEvent u.ctl.master, .addr (addrByte addr .write) .ack, .tx reg .nack]
    (s.cfg.busErrorPolicy = .hang → exec i s = .next ((s.setBus b { u with
      trace := u.trace ++ events, answers := rest,
      ctl := { u.ctl with ev := {}, master := true, busy := if u.ctl.master then u.ctl.busy else true } }).park t
      ⟨i, [.holdForever]⟩)) ∧
    (∀ rest', s.cfg.busErrorPolicy = .report → rest = .ok :: rest' → exec i s =
      .next ((s.setBus b (busAfter u addr .write {} u.ctl.ackEn (events ++ [.stop]) rest')).complete t (.err .dataNack)))) ∧
  (∀ (s : State) (t n : Nat) (i : Instr), s.taskMoves t n → (s.task t).cmd = some ⟨i, [.holdForever]⟩ → step s = .next s.endTurn)

/-- 40_i2c_handshake.md R93 and R94. After lost arbitration in the address phase of a byte transfer, with Report: no STOP, the engine no
longer master, the bus as the winner has it, the transaction Idle, Err(ArbLost). That the transaction is Idle from the step that loses
arbitration on, and so with Hang too, which comes to no line that writes it, is the model's choice, log 18 (`busFailed`). And wherever a task inside a transfer has asked for a
START, an address byte, a data byte sent or a data byte received, and is answered a refused byte, lost arbitration, a bus error or an
overrun: with Hang the task holds for ever after the event; with Report it returns the error, with a STOP before it where the engine is
still master. -/
def Obligations.LostArbitrationReported : Prop :=
  (∀ (s : State) (t n b : Nat) (addr : Addr7) (f : XferFlags) (len buf : Nat) (rest : List Answer),
    s.taskMoves t n → 10 ≤ n → s.cfg.busErrorPolicy = .report → f.nostart = false → f.addr10 = false → f.reg16 = false →
    startFree (s.bus b) false → (s.bus b).answers = .ok :: .arbLost :: rest →
    let u := s.bus b
    let s' := (s.setBus b { u with
      phase := .idle
      trace := u.trace ++ [startEvent u.ctl.master, .lost]
      answers := rest
      ctl := { u.ctl with ev := {}, master := false, busy := if u.ctl.master then u.ctl.busy else true } }).complete t (.err .arbLost)
    (commandFault s (.task t) (.i2cRead b addr f len buf) = none → exec (.i2cRead b addr f len buf) s = .next s') ∧
    (commandFault s (.task t) (.i2cWrite b addr f len buf) = none → exec (.i2cWrite b addr f len buf) s = .next s')) ∧
  (∀ (s : State) (t n b : Nat) (i : Instr) (m : Micro) (code : List Micro) (a : Answer) (rest : List Answer) (e : WireEvent)
    (kind : ErrorKind), s.taskMoves t n → (s.task t).cmd = some ⟨i, m :: code⟩ → m.asks? = some b → (s.bus b).answers = a :: rest →
    m.failure a = some (e, kind) →
    let u := s.bus b
    (s.cfg.busErrorPolicy = .hang → 3 ≤ n →
      step s = .next ((s.setBus b (busFailed u e kind rest)).park t ⟨i, [.holdForever]⟩).endTurn) ∧
    (s.cfg.busErrorPolicy = .report → 6 ≤ n → kind = .arbLost ∨ u.ctl.master = false → step s =
      .next ((s.setBus b { busFailed u e kind rest with phase := .idle }).complete t (.err kind)).endTurn) ∧
    (∀ rest', s.cfg.busErrorPolicy = .report → 10 ≤ n → kind ≠ .arbLost → u.ctl.master = true → rest = .ok :: rest' → step s =
      .next ((s.setBus b (busClosed u [e, .stop] rest')).complete t (.err kind)).endTurn))

/-- 40_i2c_handshake.md R94 after an overrun, with Report, `vs` received before it: the engine sends STOP and returns Err(Overrun); the
bytes received stay in host memory. -/
def Obligations.OverrunKeepsReceivedBytes : Prop :=
  ∀ (s : State) (t n b : Nat) (addr : Addr7) (f : XferFlags) (len buf : Nat) (vs : List Byte) (rest : List Answer),
    s.taskMoves t n → 5 * vs.length + 18 ≤ n → commandFault s (.task t) (.i2cRead b addr f len buf) = none →
    s.cfg.busErrorPolicy = .report → f.addr10 = false → f.reg16 = false → f.nostart = false → vs.length < len →
    startFree (s.bus b) false → s.bufWritable buf len →
    (s.bus b).answers = [.ok, .ack] ++ vs.map Answer.byte ++ .overrun :: .ok :: rest →
    exec (.i2cRead b addr f len buf) s = .next (((s.setBus b (busAfter (s.bus b) addr .read {}
      (decide (rxAck len vs.length f.nostop = .ack))
      ([startEvent (s.bus b).ctl.master, .addr (addrByte addr .read) .ack] ++ vs.map (fun v => .rx v .ack) ++ [.ovr, .stop])
      rest)).setMem (s.mem.writeBytes buf vs)).complete t (.err .overrun))

/-- 40_i2c_handshake.md R82: a task that has asked the environment of a bus for an answer holds while there is none, and for ever once
the environment is wedged: no turn of any agent takes the wedged answer back. R86: a first START on a bus that is busy and whose engine is
not master waits, with nothing on the wire, the bus as it was, in whichever transfer it is; a later turn finds the task there, and changes
nothing while the bus is busy (70_reset_and_hazards.md R147). -/
def Obligations.UnansweredTaskHolds : Prop :=
  (∀ (s : State) (t n b : Nat) (i : Instr) (m : Micro) (code : List Micro), s.taskMoves t n →
    (s.task t).cmd = some ⟨i, m :: code⟩ → m.asks? = some b →
    (s.bus b).answers = [] ∨ (s.bus b).answers.head? = some .wedged → step s = .next s.endTurn) ∧
  (∀ (s s' : State) (b : Nat), (s.bus b).answers.head? = some .wedged → step s = .next s' →
    (s'.bus b).answers.head? = some .wedged) ∧
  (∀ (s : State) (t n b k : Nat) (addr : Addr7) (d : Dir) (i : Instr) (code : List Micro), 1 ≤ n → (s.bus b).ctl.master = false →
    (s.bus b).ctl.busy = true → runCode t i n (.genStart b addr d k :: code) s =
      s.park t ⟨i, .waitNotBusy b :: .askStart b addr d k true :: code⟩) ∧
  (∀ (s : State) (t n b : Nat) (addr : Addr7) (reg : Byte) (f : XferFlags) (len buf : Nat) (i : Instr), s.taskMoves t n → 1 ≤ n →
    f.nostart = false → f.addr10 = false → f.reg16 = false →
    i = .i2cRead b addr f len buf ∨ i = .i2cWrite b addr f len buf ∨ i = .i2cReadRegs b addr reg {} len buf ∨
      i = .i2cWriteRegs b addr reg {} len buf →
    commandFault s (.task t) i = none → (s.bus b).ctl.master = false → (s.bus b).ctl.busy = true →
    ∃ code, exec i s = .next (s.park t ⟨i, .waitNotBusy b :: code⟩)) ∧
  (∀ (s : State) (t n b : Nat) (i : Instr) (code : List Micro), s.taskMoves t n →
    (s.task t).cmd = some ⟨i, .waitNotBusy b :: code⟩ → (s.bus b).ctl.busy = true → step s = .next s.endTurn)

/-- 20_memory.md R49: a task that comes to an access to host memory that the launch memory refuses has no step. -/
def Obligations.RefusedAccessHoldsTask : Prop :=
  ∀ (s : State) (t n a : Nat) (i : Instr) (m : Micro) (code : List Micro), s.taskMoves t n →
    (s.task t).cmd = some ⟨i, m :: code⟩ →
    ((∃ b, m = .loadSend b a) ∧ canRead s.cfg a = false) ∨ ((∃ v, m = .memStore a v) ∧ canWrite s.cfg a = false) ∨
      ((∃ r max buf timeout left acc, m = .loadPattern r max buf timeout a (left + 1) acc) ∧ canRead s.cfg a = false) →
    step s = .next s.endTurn

/-- 42_i2c_transfers.md R112: with no error and the same answers, I2C_WRITE_REGS leaves the wire trace, the host memory and the phase that
I2C_WRITE_BYTES of the register byte with NOSTOP and then I2C_WRITE_BYTES of the data with NOSTART leave; and I2C_READ_REGS those that
I2C_WRITE_BYTES of the register byte with NOSTOP and then I2C_READ_BYTES leave, where a read with NOSTART as the second command raises
Fault(BadContinuation) (90_conflicts.md C1). -/
def Obligations.RegisterTransfersAreTwoByteTransfers : Prop :=
  ∀ (s : State) (t n b : Nat) (addr : Addr7) (reg : Byte) (p buf : Nat) (rest : List Answer),
    s.taskMoves t n → s.busReady b → (s.bus b).lock = .owned t → openingInTable false (s.bus b).phase .write addr = true →
    startFree (s.bus b) false → lenLegal 1 p → s.bufReadable p 1 → s.mem.read p = reg →
    (∀ len, lenLegal len buf → s.bufReadable buf len → 4 * len + 17 ≤ n →
      (s.bus b).answers = [.ok, .ack, .ack] ++ List.replicate len Answer.ack ++ [.ok] ++ rest →
      ∃ s₁ s₂ s', exec (.i2cWrite b addr { nostop := true } 1 p) s = .next s₁ ∧
        exec (.i2cWrite b addr { nostart := true } len buf) s₁ = .next s₂ ∧ exec (.i2cWriteRegs b addr reg {} len buf) s = .next s' ∧
        (s₂.bus b).trace = (s'.bus b).trace ∧ s₂.mem = s'.mem ∧ (s₂.bus b).phase = (s'.bus b).phase) ∧
    (∀ vs : List Byte, lenLegal vs.length buf → s.bufWritable buf vs.length → 5 * vs.length + 21 ≤ n →
      (s.bus b).answers = [.ok, .ack, .ack, .ok, .ack] ++ vs.map Answer.byte ++ [.ok] ++ rest →
      ∃ s₁ s₂ s', exec (.i2cWrite b addr { nostop := true } 1 p) s = .next s₁ ∧
        exec (.i2cRead b addr {} vs.length buf) s₁ = .next s₂ ∧ exec (.i2cReadRegs b addr reg {} vs.length buf) s = .next s' ∧
        (s₂.bus b).trace = (s'.bus b).trace ∧ s₂.mem = s'.mem ∧ (s₂.bus b).phase = (s'.bus b).phase ∧
        ∃ s₃, exec (.i2cRead b addr { nostart := true } vs.length buf) s₁ = .next s₃ ∧
          s₃.fault = some ⟨.badContinuation, .task t, (Instr.i2cRead b addr { nostart := true } vs.length buf).word0⟩)

/-! ### Serial frame reader -/

/-- SFR_WRITE_ONE (43_serial_frame_reader.md R116, R115) from interrupt context: stored at the end of the queue with Ok(1) where there is
room, dropped with Ok(0) where there is none. Nothing else changes, but the producer's list of results. That list, and a push to a reader
by the interrupt of another, are the model's choice, log 15. -/
def Obligations.PushStoresOrDrops : Prop :=
  ∀ (s : State) (g r : Nat) (v : Byte), s.irqMoves g → r < s.readers.length →
    ((s.reader r).q.length < (s.reader r).cap → ∃ s', exec (.sfrPush r v) s = .next s' ∧
      s' = ((s.setReader r { s.reader r with q := (s.reader r).q ++ [v] }).modReader g
        fun d => { d with rxResults := d.rxResults ++ [.ok 1] }) ∧ (s'.reader r).q = (s.reader r).q ++ [v]) ∧
    ((s.reader r).cap ≤ (s.reader r).q.length → ∃ s', exec (.sfrPush r v) s = .next s' ∧
      s' = s.modReader g (fun d => { d with rxResults := d.rxResults ++ [.ok 0] }) ∧ (s'.reader r).q = (s.reader r).q)

/-- SFR_READ_TIMEOUT (43_serial_frame_reader.md R117) with at least N bytes in the queue, under both policies: the first N bytes leave the
queue and stand in host memory from BUF on, the reader is free again, Ok(N), whatever the time-out; N = 0 returns Ok(0) at once.
Nothing else changes. -/
def Obligations.ReadTakesBufferedBytes : Prop :=
  ∀ (s : State) (t n r count buf timeout : Nat), s.taskMoves t n → 2 * count + 5 ≤ n →
    commandFault s (.task t) (.sfrRead r count buf timeout) = none →
    (1 ≤ count → count ≤ (s.reader r).q.length → s.bufWritable buf count →
      exec (.sfrRead r count buf timeout) s = .next (((s.setReader r (readerAfter count (s.reader r))).setMem
        (s.mem.writeBytes buf ((s.reader r).q.take count))).complete t (.ok count))) ∧
    (count = 0 → exec (.sfrRead r count buf timeout) s = .next (s.complete t (.ok 0)))

/-- 43_serial_frame_reader.md R114 on a time-out: TIMEOUT = 0 and fewer than N bytes in the queue. Incremental keeps the bytes it took:
they are in host memory and gone from the queue. AllOrNothing has taken none. Err(Timeout) either way, and nothing else changes. -/
def Obligations.TimedOutReadFollowsPolicy : Prop :=
  ∀ (s : State) (t n r count buf : Nat), s.taskMoves t n → 2 * count + 5 ≤ n →
    commandFault s (.task t) (.sfrRead r count buf 0) = none → (s.reader r).q.length < count → s.bufWritable buf count →
    (s.cfg.timeoutConsume = .incremental → exec (.sfrRead r count buf 0) s =
      .next (((s.setReader r { s.reader r with q := [] }).setMem (s.mem.writeBytes buf (s.reader r).q)).complete t (.err .timeout))) ∧
    (s.cfg.timeoutConsume = .allOrNothing → exec (.sfrRead r count buf 0) s = .next (s.complete t (.err .timeout)))

/-- 70_reset_and_hazards.md R157 and 43_serial_frame_reader.md R117, R118, R120: a serial read that finds too little in the queue waits, its
deadline the time at its start plus TIMEOUT; a turn before the deadline changes nothing; a turn from the deadline on ends the read with
Err(Timeout), the queue as it is. For SFR_READ_TIMEOUT under both policies (with fewer than N bytes under AllOrNothing, with none under
Incremental) and for SFR_READ_UNTIL. -/
def Obligations.ReadWaitsUntilDeadline : Prop :=
  (∀ (s : State) (t n r count buf timeout : Nat), s.taskMoves t n → 3 ≤ n →
    commandFault s (.task t) (.sfrRead r count buf timeout) = none → 1 ≤ count → 1 ≤ timeout → (s.reader r).q = [] →
    s.cfg.timeoutConsume = .incremental →
    exec (.sfrRead r count buf timeout) s = .next ((s.setReader r { s.reader r with consumer := some t }).park t
      ⟨.sfrRead r count buf timeout, [.readLoop r count buf 0 (s.now + timeout)]⟩)) ∧
  (∀ (s : State) (t n r count buf got deadline : Nat) (i : Instr), s.taskMoves t n → r < s.readers.length →
    (s.task t).cmd = some ⟨i, [.readLoop r count buf got deadline]⟩ → got < count → (s.reader r).q = [] →
    (s.now < deadline → step s = .next s.endTurn) ∧
    (deadline ≤ s.now → 3 ≤ n → step s = .next ((s.setReader r { s.reader r with consumer := none }).complete t
      (.err .timeout)).endTurn)) ∧
  (∀ (s : State) (t n r count buf timeout : Nat), s.taskMoves t n → 3 ≤ n →
    commandFault s (.task t) (.sfrRead r count buf timeout) = none → 1 ≤ timeout → (s.reader r).q.length < count →
    s.cfg.timeoutConsume = .allOrNothing →
    exec (.sfrRead r count buf timeout) s = .next ((s.setReader r { s.reader r with consumer := some t }).park t
      ⟨.sfrRead r count buf timeout, [.readAll r count buf (s.now + timeout)]⟩)) ∧
  (∀ (s : State) (t n r count buf deadline : Nat) (i : Instr), s.taskMoves t n → r < s.readers.length →
    (s.task t).cmd = some ⟨i, [.readAll r count buf deadline]⟩ → (s.reader r).q.length < count →
    (s.now < deadline → step s = .next s.endTurn) ∧
    (deadline ≤ s.now → 3 ≤ n → step s = .next ((s.setReader r { s.reader r with consumer := none }).complete t
      (.err .timeout)).endTurn)) ∧
  (∀ (s : State) (t n r patlen max buf timeout pat : Nat), s.taskMoves t n → patlen + 4 ≤ n →
    commandFault s (.task t) (.sfrReadUntil r patlen max buf timeout pat) = none → 1 ≤ timeout → (s.reader r).q = [] →
    s.bufReadable pat patlen →
    exec (.sfrReadUntil r patlen max buf timeout pat) s = .next ((s.setReader r { s.reader r with consumer := some t }).park t
      ⟨.sfrReadUntil r patlen max buf timeout pat,
        [.untilLoop r max buf (s.now + timeout) (s.mem.readBytes pat patlen) []]⟩)) ∧
  (∀ (s : State) (t n r max buf deadline : Nat) (pat got : List Byte) (i : Instr), s.taskMoves t n → r < s.readers.length →
    (s.task t).cmd = some ⟨i, [.untilLoop r max buf deadline pat got]⟩ → (s.reader r).q = [] →
    (s.now < deadline → step s = .next s.endTurn) ∧
    (deadline ≤ s.now → 3 ≤ n → step s = .next ((s.setReader r { s.reader r with consumer := none }).complete t
      (.err .timeout)).endTurn))

/-- SFR_READ_UNTIL (43_serial_frame_reader.md R118) where the queue begins with `got`, at most MAX bytes, that end with the pattern in host
memory, and no shorter front part does: exactly `got` leaves the queue and stands in host memory from BUF on, the reader is free again,
the result is the number of bytes. Nothing else changes. -/
def Obligations.ReadUntilStopsAtFirstMatch : Prop :=
  ∀ (s : State) (t n r patlen max buf timeout pat : Nat) (got later : List Byte), s.taskMoves t n →
    patlen + 3 * got.length + 5 ≤ n → commandFault s (.task t) (.sfrReadUntil r patlen max buf timeout pat) = none →
    s.bufReadable pat patlen → s.bufWritable buf max → (s.reader r).q = got ++ later → got.length ≤ max → got ≠ [] →
    endsWith got (s.mem.readBytes pat patlen) = true → noMatchBefore got.dropLast (s.mem.readBytes pat patlen) →
    exec (.sfrReadUntil r patlen max buf timeout pat) s = .next (((s.setReader r (readerAfter got.length (s.reader r))).setMem
      (s.mem.writeBytes buf got)).complete t (.ok got.length))

/-- SFR_READ_UNTIL without a match (43_serial_frame_reader.md R118): MAX bytes taken with none of their front parts ending with the pattern
give Err(NoMatch); an empty queue at the deadline (TIMEOUT = 0) before MAX bytes gives Err(Timeout). The bytes taken stay taken. -/
def Obligations.ReadUntilWithoutMatch : Prop :=
  ∀ (s : State) (t n r patlen max buf pat : Nat) (got later : List Byte), s.taskMoves t n →
    patlen + 3 * got.length + 6 ≤ n → s.bufReadable pat patlen → s.bufWritable buf max → (s.reader r).q = got ++ later →
    noMatchBefore got (s.mem.readBytes pat patlen) →
    let after := (s.setReader r (readerAfter got.length (s.reader r))).setMem (s.mem.writeBytes buf got)
    (∀ timeout, commandFault s (.task t) (.sfrReadUntil r patlen max buf timeout pat) = none → got.length = max →
      exec (.sfrReadUntil r patlen max buf timeout pat) s = .next (after.complete t (.err .noMatch))) ∧
    (commandFault s (.task t) (.sfrReadUntil r patlen max buf 0 pat) = none → got.length < max → later = [] →
      exec (.sfrReadUntil r patlen max buf 0 pat) s = .next (after.complete t (.err .timeout)))

/-- The model's choice of log 13: a task that comes to `S.consumer[r] <- Some(t)` while another is inside a read of the reader raises
Fault(ConcurrentReader) there, nothing else of the block changed but that the command is no longer in progress. -/
def Obligations.SecondConsumerFaultsOnEntry : Prop :=
  ∀ (s : State) (t n r : Nat) (i : Instr) (code : List Micro), s.taskMoves t n → 1 ≤ n → (s.reader r).consumer ≠ none →
    (s.task t).cmd = some ⟨i, .enterRead r :: code⟩ →
    step s = .next { s.setTask t { s.task t with cmd := none } with fault := some ⟨.concurrentReader, .task t, i.word0⟩ }.endTurn

/-! ### Frames -/

/-- What no command changes, in the turn that issues it (exec answers a next state) and in every later turn of the task inside it: every
byte of host memory outside the buffer it may store to (all of memory for the commands that store nothing), the parameters, the time, the
schedule, every other bus, every other reader (but the list of results of the interrupt that issues it), every other task. The premise on
a command in progress, that its micro-steps are some it comes to, holds after reset and is kept by every step. -/
def Obligations.CommandsChangeOnlyTheirUnits : Prop :=
  (∀ (i : Instr) (s s' : State) (g : Agent) (n : Nat), s.issuer = some (g, n) → exec i s = .next s' → s.changesOnly i g s') ∧
  (∀ (s : State) (t n : Nat) (c : Cmd), (s.task t).cmd = some c → c.fits → s.changesOnly c.instr (.task t) (s.resume t n)) ∧
  (∀ s s' : State, s.cmdsFit → step s = .next s' → s'.cmdsFit)

/-- What a transfer leaves alone on its own bus and elsewhere, whatever the environment answers, in the turn that issues it and in every
later turn: the Bus Handle, the initialisation, the lock, the waiters, the clock gate, PE, CCR, FS and PINS, the power-block count, every
reader, every task's program, and the counter of the free values. -/
def Obligations.TransfersLeaveControlState : Prop :=
  (∀ (i : Instr) (s s' : State) (b : Nat), i.isTransfer = true → i.busOf = some b → exec i s = .next s' → s.controlKept b s') ∧
  (∀ (s : State) (t n b : Nat) (c : Cmd), (s.task t).cmd = some c → c.fits → c.instr.isTransfer = true → c.instr.busOf = some b →
    s.controlKept b (s.resume t n))

/-- What bus control leaves alone, in the turn that issues it and in every later turn: I2C_ACQUIRE and I2C_RELEASE the controller, the
trace, the open transaction, the answers, the Bus Handle, all of memory and every reader; I2C_INIT the power-block count, MASTER, ACK_EN,
the Bus Handle, memory and readers. -/
def Obligations.BusControlLeavesTheRest : Prop :=
  (∀ (b : Nat) (s s' : State),
    (exec (.i2cAcquire b) s = .next s' ∨ exec (.i2cRelease b) s = .next s' → s.engineKept b s') ∧
    (exec (.i2cInit b) s = .next s' → s.initKeeps b s')) ∧
  (∀ (s : State) (t n b : Nat) (c : Cmd), (s.task t).cmd = some c → c.fits →
    (c.instr = .i2cAcquire b ∨ c.instr = .i2cRelease b → s.engineKept b (s.resume t n)) ∧
    (c.instr = .i2cInit b → s.initKeeps b (s.resume t n)))

/-- What the serial commands leave alone, in the turn that issues them and in every later turn: every bus, the power-block count, the
capacity of every reader; a read only takes bytes from the front of its queue and leaves the producer's results; SFR_WRITE_ONE leaves
memory, the tasks and who is inside a read. -/
def Obligations.SerialCommandsLeaveTheRest : Prop :=
  (∀ (i : Instr) (s s' : State) (r : Nat), i.readerOf = some r → exec i s = .next s' →
    s.busesKept s' ∧ ((∀ v, i ≠ .sfrPush r v) → s.takesOnly r s') ∧
    (∀ v, i = .sfrPush r v → s'.mem = s.mem ∧ s'.tasks = s.tasks ∧ ∀ x, (s'.reader x).consumer = (s.reader x).consumer)) ∧
  (∀ (s : State) (t n r : Nat) (c : Cmd), (s.task t).cmd = some c → c.fits → c.instr.readerOf = some r →
    s.busesKept (s.resume t n) ∧ s.takesOnly r (s.resume t n))

/-! ### The machine as a whole -/

/-- Host memory keeps its canonical form over every step (20_memory.md R49; log 11). -/
def Obligations.StepKeepsMemoryCanonical : Prop := ∀ s s' : State, s.mem.wf = true → step s = .next s' → s'.mem.wf = true

/-- 43_serial_frame_reader.md R120, first clause, and 10_state.md R38: no queue is ever over its capacity. -/
def Obligations.StepKeepsQueuesBounded : Prop := ∀ s s' : State, s.queuesOk → step s = .next s' → s'.queuesOk

/-- 20_memory.md R58: a step takes bytes from the front of a queue only, and only in a turn of a task; it appends one byte at the end at
most, and only in a turn of the receive interrupt. -/
def Obligations.QueuesAreFirstInFirstOut : Prop :=
  ∀ (s s' : State) (r : Nat), step s = .next s' →
    ∃ k more, (s'.reader r).q = (s.reader r).q.drop k ++ more ∧ (k = 0 ∨ ∃ t n, s.turn = .task t n) ∧
      (more = [] ∨ ((∃ v, more = [v]) ∧ k = 0 ∧ ∃ g d, s.turn = .uart g d))

/-- 10_state.md R24, R25: the command pointer advances exactly when a result is appended. -/
def Obligations.StepKeepsResultsCounted : Prop := ∀ s s' : State, s.resultsOk → step s = .next s' → s'.resultsOk

/-- 10_state.md R28: the waiters of a bus stay a set in canonical form. -/
def Obligations.StepKeepsWaitersCanonical : Prop := ∀ s s' : State, s.waitersOk → step s = .next s' → s'.waitersOk

/-- Every invariant, those of 10_state.md R45 and R46 among them, holds after reset, whatever the parameters, programs and memory. -/
def Obligations.ResetIsGood : Prop :=
  ∀ (cfg : Config) (handles : List (BusHandle × Bool)) (caps : List Nat) (progs : List (List Desc)) (mem : Memory), mem.wf = true →
    let s := State.resetWith cfg handles caps progs mem
    s.mem.wf = true ∧ s.queuesOk ∧ s.resultsOk ∧ s.waitersOk ∧ s.quiet ∧ s.powerOk ∧ s.placed ∧ s.powerTrue ∧ s.heldTrue ∧
      ∀ b, heldOk (s.bus b)

/-- 70_reset_and_hazards.md R140: every field after reset, for every bus, reader and task, and both values of BUSY. -/
def Obligations.ResetValues : Prop :=
  (∀ (cfg : Config) (handles : List (BusHandle × Bool)) (caps : List Nat) (progs : List (List Desc)) (mem : Memory),
    let s := State.resetWith cfg handles caps progs mem
    s.pmDeepBlocks = 0 ∧ s.now = 0 ∧ s.fault = none ∧ s.mem = mem ∧ s.cfg = cfg ∧ s.buses.length = handles.length ∧
    s.readers.length = caps.length ∧ s.tasks.length = progs.length ∧
    (∀ b (h : b < handles.length), s.bus b = { handle := handles[b].1, ctl := { busy := handles[b].2 } } ∧
      (s.bus b).initDone = false ∧ (s.bus b).lock = .free ∧ (s.bus b).waiters = [] ∧ (s.bus b).clkEn = false ∧
      (s.bus b).phase = .idle ∧ (s.bus b).trace = [] ∧ (s.bus b).ctl.pe = false ∧ (s.bus b).ctl.ccr = 0 ∧
      (s.bus b).ctl.fs = false ∧ (s.bus b).ctl.ackEn = false ∧ (s.bus b).ctl.pins = .unconfigured ∧
      (s.bus b).ctl.master = false ∧ (s.bus b).ctl.ev = {}) ∧
    (∀ r, r < caps.length → (s.reader r).q = [] ∧ (s.reader r).consumer = none) ∧
    (∀ t, t < progs.length → (s.task t).pc = 0 ∧ (s.task t).results = [] ∧ (s.task t).cmd = none)) ∧
  ∃ cfg handles caps progs, State.reset = State.resetWith cfg handles caps progs []

/-- The parameters, the Bus Handles, the capacities and the programs never change (00_scope.md R7, R9; 10_state.md R24). -/
def Obligations.StepKeepsParameters : Prop :=
  ∀ s s' : State, step s = .next s' →
    s'.cfg = s.cfg ∧ s'.buses.map Bus.handle = s.buses.map Bus.handle ∧ s'.readers.map Reader.cap = s.readers.map Reader.cap ∧
      s'.tasks.map Task.prog = s.tasks.map Task.prog

/-- The wire trace of a bus, the results of a task and an initialisation are never taken back: a step only appends to the trace and to the
results (10_state.md R25, R26, R36). -/
def Obligations.StepOnlyAppends : Prop :=
  ∀ s s' : State, step s = .next s' →
    (∀ b, (s.bus b).trace <+: (s'.bus b).trace) ∧ (∀ t, (s.task t).results <+: (s'.task t).results) ∧
      ∀ b, (s.bus b).initDone = true → (s'.bus b).initDone = true

/-- 10_state.md R40: only Clock writes the time, and adds its `d` to it. -/
def Obligations.OnlyClockMovesTime : Prop :=
  ∀ s s' : State, step s = .next s' →
    (∀ d, s.turn = .clock d → s'.now = s.now + d) ∧ ((∀ d, s.turn ≠ .clock d) → s'.now = s.now)

/-- A turn of BusEnv, Clock or another agent's store: what each changes, and that it changes nothing else. That BUSY may change while
MASTER = 0 and the time at any step is 10_state.md R33, R40. The rest is the model's choice: that answers are drawn in advance into a list
(log 3), that a store may go to any address whatever the launch memory says (log 21), that a clock turn of 0 and a turn of a bus that does
not exist change nothing (log 20). -/
def Obligations.EnvironmentTurns : Prop :=
  ∀ s : State, s.fault = none →
    (∀ b v, s.turn = .busBusy b v → (s.bus b).ctl.master = false →
      step s = .next (s.setBus b { s.bus b with ctl := { (s.bus b).ctl with busy := v } }).endTurn) ∧
    (∀ b a, s.turn = .busAnswer b a →
      step s = .next (s.setBus b { s.bus b with answers := (s.bus b).answers ++ [a] }).endTurn) ∧
    (∀ d, s.turn = .clock d → step s = .next { s with now := s.now + d }.endTurn) ∧
    (∀ a v, s.turn = .hostStore a v → a < 2 ^ 32 → step s = .next (s.setMem (s.mem.write a v)).endTurn)

/-- The pseudo-instructions of 30_encoding.md R80, each exactly one command. -/
def Obligations.PseudoInstructionsExpand : Prop :=
  ∀ (b : Nat) (addr : Addr7) (reg : Byte) (buf : Nat),
    pseudoReadReg b addr reg buf = .i2cReadRegs b addr reg {} 1 buf ∧
    pseudoWriteReg b addr reg buf = .i2cWriteRegs b addr reg {} 1 buf ∧
    pseudoReadByte b addr buf = .i2cRead b addr {} 1 buf ∧ pseudoWriteByte b addr buf = .i2cWrite b addr {} 1 buf
end

