-- ==== Sys2Proof/Laws/State.lean ====
section
/-! SUPPORT. One lemma for each field of State under each update, and the normal form of a chain of updates: setBus innermost, then
setReader, setTask, setPm, setDraws, setMem. -/

namespace Sys2Proof.Machine

variable (s : State)

/-! ### setBus -/

@[simp] theorem setBus_cfg (b : Nat) (u : Bus) : (s.setBus b u).cfg = s.cfg := rfl
@[simp] theorem setBus_buses (b : Nat) (u : Bus) : (s.setBus b u).buses = s.buses.set b u := rfl
@[simp] theorem setBus_pmDeepBlocks (b : Nat) (u : Bus) : (s.setBus b u).pmDeepBlocks = s.pmDeepBlocks := rfl
@[simp] theorem setBus_readers (b : Nat) (u : Bus) : (s.setBus b u).readers = s.readers := rfl
@[simp] theorem setBus_tasks (b : Nat) (u : Bus) : (s.setBus b u).tasks = s.tasks := rfl
@[simp] theorem setBus_now (b : Nat) (u : Bus) : (s.setBus b u).now = s.now := rfl
@[simp] theorem setBus_fault (b : Nat) (u : Bus) : (s.setBus b u).fault = s.fault := rfl
@[simp] theorem setBus_mem (b : Nat) (u : Bus) : (s.setBus b u).mem = s.mem := rfl
@[simp] theorem setBus_turns (b : Nat) (u : Bus) : (s.setBus b u).turns = s.turns := rfl
@[simp] theorem setBus_draws (b : Nat) (u : Bus) : (s.setBus b u).draws = s.draws := rfl
@[simp] theorem setBus_reader (b : Nat) (u : Bus) (i : Nat) : (s.setBus b u).reader i = s.reader i := rfl
@[simp] theorem setBus_task (b : Nat) (u : Bus) (i : Nat) : (s.setBus b u).task i = s.task i := rfl
@[simp] theorem setBus_turn (b : Nat) (u : Bus) : (s.setBus b u).turn = s.turn := rfl
@[simp] theorem setBus_issuer (b : Nat) (u : Bus) : (s.setBus b u).issuer = s.issuer := rfl

/-! ### setReader -/

@[simp] theorem setReader_cfg (r : Nat) (d : Reader) : (s.setReader r d).cfg = s.cfg := rfl
@[simp] theorem setReader_buses (r : Nat) (d : Reader) : (s.setReader r d).buses = s.buses := rfl
@[simp] theorem setReader_pmDeepBlocks (r : Nat) (d : Reader) : (s.setReader r d).pmDeepBlocks = s.pmDeepBlocks := rfl
@[simp] theorem setReader_readers (r : Nat) (d : Reader) : (s.setReader r d).readers = s.readers.set r d := rfl
@[simp] theorem setReader_tasks (r : Nat) (d : Reader) : (s.setReader r d).tasks = s.tasks := rfl
@[simp] theorem setReader_now (r : Nat) (d : Reader) : (s.setReader r d).now = s.now := rfl
@[simp] theorem setReader_fault (r : Nat) (d : Reader) : (s.setReader r d).fault = s.fault := rfl
@[simp] theorem setReader_mem (r : Nat) (d : Reader) : (s.setReader r d).mem = s.mem := rfl
@[simp] theorem setReader_turns (r : Nat) (d : Reader) : (s.setReader r d).turns = s.turns := rfl
@[simp] theorem setReader_draws (r : Nat) (d : Reader) : (s.setReader r d).draws = s.draws := rfl
@[simp] theorem setReader_bus (r : Nat) (d : Reader) (i : Nat) : (s.setReader r d).bus i = s.bus i := rfl
@[simp] theorem setReader_task (r : Nat) (d : Reader) (i : Nat) : (s.setReader r d).task i = s.task i := rfl
@[simp] theorem setReader_turn (r : Nat) (d : Reader) : (s.setReader r d).turn = s.turn := rfl
@[simp] theorem setReader_issuer (r : Nat) (d : Reader) : (s.setReader r d).issuer = s.issuer := rfl

/-! ### setTask -/

@[simp] theorem setTask_cfg (t : Nat) (k : Task) : (s.setTask t k).cfg = s.cfg := rfl
@[simp] theorem setTask_buses (t : Nat) (k : Task) : (s.setTask t k).buses = s.buses := rfl
@[simp] theorem setTask_pmDeepBlocks (t : Nat) (k : Task) : (s.setTask t k).pmDeepBlocks = s.pmDeepBlocks := rfl
@[simp] theorem setTask_readers (t : Nat) (k : Task) : (s.setTask t k).readers = s.readers := rfl
@[simp] theorem setTask_tasks (t : Nat) (k : Task) : (s.setTask t k).tasks = s.tasks.set t k := rfl
@[simp] theorem setTask_now (t : Nat) (k : Task) : (s.setTask t k).now = s.now := rfl
@[simp] theorem setTask_fault (t : Nat) (k : Task) : (s.setTask t k).fault = s.fault := rfl
@[simp] theorem setTask_mem (t : Nat) (k : Task) : (s.setTask t k).mem = s.mem := rfl
@[simp] theorem setTask_turns (t : Nat) (k : Task) : (s.setTask t k).turns = s.turns := rfl
@[simp] theorem setTask_draws (t : Nat) (k : Task) : (s.setTask t k).draws = s.draws := rfl
@[simp] theorem setTask_bus (t : Nat) (k : Task) (i : Nat) : (s.setTask t k).bus i = s.bus i := rfl
@[simp] theorem setTask_reader (t : Nat) (k : Task) (i : Nat) : (s.setTask t k).reader i = s.reader i := rfl
@[simp] theorem setTask_turn (t : Nat) (k : Task) : (s.setTask t k).turn = s.turn := rfl
@[simp] theorem setTask_issuer (t : Nat) (k : Task) : (s.setTask t k).issuer = s.issuer := rfl

/-! ### setMem -/

@[simp] theorem setMem_cfg (m : Memory) : (s.setMem m).cfg = s.cfg := rfl
@[simp] theorem setMem_buses (m : Memory) : (s.setMem m).buses = s.buses := rfl
@[simp] theorem setMem_pmDeepBlocks (m : Memory) : (s.setMem m).pmDeepBlocks = s.pmDeepBlocks := rfl
@[simp] theorem setMem_readers (m : Memory) : (s.setMem m).readers = s.readers := rfl
@[simp] theorem setMem_tasks (m : Memory) : (s.setMem m).tasks = s.tasks := rfl
@[simp] theorem setMem_now (m : Memory) : (s.setMem m).now = s.now := rfl
@[simp] theorem setMem_fault (m : Memory) : (s.setMem m).fault = s.fault := rfl
@[simp] theorem setMem_mem (m : Memory) : (s.setMem m).mem = m := rfl
@[simp] theorem setMem_turns (m : Memory) : (s.setMem m).turns = s.turns := rfl
@[simp] theorem setMem_draws (m : Memory) : (s.setMem m).draws = s.draws := rfl
@[simp] theorem setMem_bus (m : Memory) (i : Nat) : (s.setMem m).bus i = s.bus i := rfl
@[simp] theorem setMem_reader (m : Memory) (i : Nat) : (s.setMem m).reader i = s.reader i := rfl
@[simp] theorem setMem_task (m : Memory) (i : Nat) : (s.setMem m).task i = s.task i := rfl
@[simp] theorem setMem_turn (m : Memory) : (s.setMem m).turn = s.turn := rfl
@[simp] theorem setMem_issuer (m : Memory) : (s.setMem m).issuer = s.issuer := rfl

/-! ### setPm -/

@[simp] theorem setPm_cfg (n : Nat) : (s.setPm n).cfg = s.cfg := rfl
@[simp] theorem setPm_buses (n : Nat) : (s.setPm n).buses = s.buses := rfl
@[simp] theorem setPm_pmDeepBlocks (n : Nat) : (s.setPm n).pmDeepBlocks = n := rfl
@[simp] theorem setPm_readers (n : Nat) : (s.setPm n).readers = s.readers := rfl
@[simp] theorem setPm_tasks (n : Nat) : (s.setPm n).tasks = s.tasks := rfl
@[simp] theorem setPm_now (n : Nat) : (s.setPm n).now = s.now := rfl
@[simp] theorem setPm_fault (n : Nat) : (s.setPm n).fault = s.fault := rfl
@[simp] theorem setPm_mem (n : Nat) : (s.setPm n).mem = s.mem := rfl
@[simp] theorem setPm_turns (n : Nat) : (s.setPm n).turns = s.turns := rfl
@[simp] theorem setPm_draws (n : Nat) : (s.setPm n).draws = s.draws := rfl
@[simp] theorem setPm_bus (n : Nat) (i : Nat) : (s.setPm n).bus i = s.bus i := rfl
@[simp] theorem setPm_reader (n : Nat) (i : Nat) : (s.setPm n).reader i = s.reader i := rfl
@[simp] theorem setPm_task (n : Nat) (i : Nat) : (s.setPm n).task i = s.task i := rfl
@[simp] theorem setPm_turn (n : Nat) : (s.setPm n).turn = s.turn := rfl
@[simp] theorem setPm_issuer (n : Nat) : (s.setPm n).issuer = s.issuer := rfl

/-! ### setDraws -/

@[simp] theorem setDraws_cfg (n : Nat) : (s.setDraws n).cfg = s.cfg := rfl
@[simp] theorem setDraws_buses (n : Nat) : (s.setDraws n).buses = s.buses := rfl
@[simp] theorem setDraws_pmDeepBlocks (n : Nat) : (s.setDraws n).pmDeepBlocks = s.pmDeepBlocks := rfl
@[simp] theorem setDraws_readers (n : Nat) : (s.setDraws n).readers = s.readers := rfl
@[simp] theorem setDraws_tasks (n : Nat) : (s.setDraws n).tasks = s.tasks := rfl
@[simp] theorem setDraws_now (n : Nat) : (s.setDraws n).now = s.now := rfl
@[simp] theorem setDraws_fault (n : Nat) : (s.setDraws n).fault = s.fault := rfl
@[simp] theorem setDraws_mem (n : Nat) : (s.setDraws n).mem = s.mem := rfl
@[simp] theorem setDraws_turns (n : Nat) : (s.setDraws n).turns = s.turns := rfl
@[simp] theorem setDraws_draws (n : Nat) : (s.setDraws n).draws = n := rfl
@[simp] theorem setDraws_bus (n : Nat) (i : Nat) : (s.setDraws n).bus i = s.bus i := rfl
@[simp] theorem setDraws_reader (n : Nat) (i : Nat) : (s.setDraws n).reader i = s.reader i := rfl
@[simp] theorem setDraws_task (n : Nat) (i : Nat) : (s.setDraws n).task i = s.task i := rfl

/-! ### Reading what was just set -/

theorem getD_set_self {α : Type} (l : List α) (i : Nat) (x d : α) (h : i < l.length) : (l.set i x).getD i d = x := by
  simp [List.getD, h]

theorem getD_set_ne {α : Type} (l : List α) (i j : Nat) (x d : α) (h : i ≠ j) : (l.set i x).getD j d = l.getD j d := by
  simp [List.getD, h]

@[simp] theorem setBus_bus_self (b : Nat) (u : Bus) (h : b < s.buses.length) : (s.setBus b u).bus b = u :=
  getD_set_self _ _ _ _ h

theorem setBus_bus_ne (b b' : Nat) (u : Bus) (h : b ≠ b') : (s.setBus b u).bus b' = s.bus b' := getD_set_ne _ _ _ _ _ h

@[simp] theorem setReader_reader_self (r : Nat) (d : Reader) (h : r < s.readers.length) : (s.setReader r d).reader r = d :=
  getD_set_self _ _ _ _ h

theorem setReader_reader_ne (r r' : Nat) (d : Reader) (h : r ≠ r') : (s.setReader r d).reader r' = s.reader r' :=
  getD_set_ne _ _ _ _ _ h

@[simp] theorem setTask_task_self (t : Nat) (k : Task) (h : t < s.tasks.length) : (s.setTask t k).task t = k :=
  getD_set_self _ _ _ _ h

theorem setTask_task_ne (t t' : Nat) (k : Task) (h : t ≠ t') : (s.setTask t k).task t' = s.task t' := getD_set_ne _ _ _ _ _ h

/-! ### Two updates of one place -/

@[simp] theorem setBus_setBus (b : Nat) (u v : Bus) : (s.setBus b u).setBus b v = s.setBus b v := by
  simp [State.setBus]

@[simp] theorem setReader_setReader (r : Nat) (d e : Reader) : (s.setReader r d).setReader r e = s.setReader r e := by
  simp [State.setReader]

@[simp] theorem setTask_setTask (t : Nat) (k l : Task) : (s.setTask t k).setTask t l = s.setTask t l := by
  simp [State.setTask]

@[simp] theorem setMem_setMem (x y : Memory) : (s.setMem x).setMem y = s.setMem y := rfl
@[simp] theorem setPm_setPm (x y : Nat) : (s.setPm x).setPm y = s.setPm y := rfl
@[simp] theorem setDraws_setDraws (x y : Nat) : (s.setDraws x).setDraws y = s.setDraws y := rfl

/-! ### The order of updates of different places -/

@[simp] theorem setReader_setBus (b : Nat) (u : Bus) (r : Nat) (d : Reader) :
    (s.setReader r d).setBus b u = (s.setBus b u).setReader r d := rfl
@[simp] theorem setTask_setBus (b : Nat) (u : Bus) (t : Nat) (k : Task) :
    (s.setTask t k).setBus b u = (s.setBus b u).setTask t k := rfl
@[simp] theorem setPm_setBus (b : Nat) (u : Bus) (p : Nat) :
    (s.setPm p).setBus b u = (s.setBus b u).setPm p := rfl
@[simp] theorem setDraws_setBus (b : Nat) (u : Bus) (n : Nat) :
    (s.setDraws n).setBus b u = (s.setBus b u).setDraws n := rfl
@[simp] theorem setMem_setBus (b : Nat) (u : Bus) (m : Memory) :
    (s.setMem m).setBus b u = (s.setBus b u).setMem m := rfl
@[simp] theorem setTask_setReader (r : Nat) (d : Reader) (t : Nat) (k : Task) :
    (s.setTask t k).setReader r d = (s.setReader r d).setTask t k := rfl
@[simp] theorem setPm_setReader (r : Nat) (d : Reader) (p : Nat) :
    (s.setPm p).setReader r d = (s.setReader r d).setPm p := rfl
@[simp] theorem setDraws_setReader (r : Nat) (d : Reader) (n : Nat) :
    (s.setDraws n).setReader r d = (s.setReader r d).setDraws n := rfl
@[simp] theorem setMem_setReader (r : Nat) (d : Reader) (m : Memory) :
    (s.setMem m).setReader r d = (s.setReader r d).setMem m := rfl
@[simp] theorem setPm_setTask (t : Nat) (k : Task) (p : Nat) :
    (s.setPm p).setTask t k = (s.setTask t k).setPm p := rfl
@[simp] theorem setDraws_setTask (t : Nat) (k : Task) (n : Nat) :
    (s.setDraws n).setTask t k = (s.setTask t k).setDraws n := rfl
@[simp] theorem setMem_setTask (t : Nat) (k : Task) (m : Memory) :
    (s.setMem m).setTask t k = (s.setTask t k).setMem m := rfl
@[simp] theorem setDraws_setPm (p : Nat) (n : Nat) :
    (s.setDraws n).setPm p = (s.setPm p).setDraws n := rfl
@[simp] theorem setMem_setPm (p : Nat) (m : Memory) :
    (s.setMem m).setPm p = (s.setPm p).setMem m := rfl
@[simp] theorem setMem_setDraws (n : Nat) (m : Memory) :
    (s.setMem m).setDraws n = (s.setDraws n).setMem m := rfl

/-! ### The other updates, by these -/

@[simp] theorem modBus_eq (b : Nat) (f : Bus → Bus) : s.modBus b f = s.setBus b (f (s.bus b)) := rfl
@[simp] theorem modReader_eq (r : Nat) (f : Reader → Reader) : s.modReader r f = s.setReader r (f (s.reader r)) := rfl
@[simp] theorem modTask_eq (t : Nat) (f : Task → Task) : s.modTask t f = s.setTask t (f (s.task t)) := rfl
@[simp] theorem modCtl_eq (b : Nat) (f : Ctl → Ctl) :
    s.modCtl b f = s.setBus b { s.bus b with ctl := f (s.bus b).ctl } := rfl
@[simp] theorem emit_eq (b : Nat) (e : WireEvent) :
    s.emit b e = s.setBus b { s.bus b with trace := (s.bus b).trace ++ [e] } := rfl
@[simp] theorem clearFlags_eq (b : Nat) :
    s.clearFlags b = s.setBus b { s.bus b with ctl := { (s.bus b).ctl with ev := {} } } := rfl
@[simp] theorem complete_eq (t : Nat) (res : Result) : s.complete t res = s.setTask t ((s.task t).finish res) := rfl
@[simp] theorem park_eq (t : Nat) (c : Cmd) : s.park t c = s.setTask t { s.task t with cmd := some c } := rfl

/-! ### Setting a place to what it holds -/

theorem set_getD_self {α : Type} (l : List α) (i : Nat) (d : α) : l.set i (l.getD i d) = l := by
  by_cases h : i < l.length
  · simp [List.getD, h]
  · exact List.set_eq_of_length_le (Nat.le_of_not_lt h)

@[simp] theorem setBus_bus (b : Nat) : s.setBus b (s.bus b) = s := by
  simp only [State.setBus, State.bus, set_getD_self]

@[simp] theorem setReader_reader (r : Nat) : s.setReader r (s.reader r) = s := by
  simp only [State.setReader, State.reader, set_getD_self]

@[simp] theorem setTask_task (t : Nat) : s.setTask t (s.task t) = s := by
  simp only [State.setTask, State.task, set_getD_self]

/-- A task that stays where it was in its command. -/
theorem park_self {t : Nat} {c : Cmd} (h : (s.task t).cmd = some c) : s.park t c = s := by
  have : { s.task t with cmd := some c } = s.task t := by rw [← h]
  rw [park_eq, this, setTask_task]

/-! ### Turns, and the fault record -/

theorem turn_cons {u : Turn} {us : List Turn} (h : s.turns = u :: us) : s.turn = u := by simp [State.turn, h]

theorem issuer_task {t n : Nat} (h : s.turn = .task t n) : s.issuer = some (.task t, n) := by simp [State.issuer, h]

theorem issuer_uart {r : Nat} {d : Desc} (h : s.turn = .uart r d) : s.issuer = some (.uartRx r, 0) := by simp [State.issuer, h]

theorem raise_of_none {c : FaultCode} {g : Agent} {w : Word} (h : s.fault = none) :
    s.raise c g w = { s with fault := some ⟨c, g, w⟩ } := by simp [State.raise, h]

@[simp] theorem Task.finish_pc (k : Task) (res : Result) : (k.finish res).pc = k.pc + 1 := rfl
@[simp] theorem Task.finish_results (k : Task) (res : Result) : (k.finish res).results = k.results ++ [res] := rfl
@[simp] theorem Task.finish_cmd (k : Task) (res : Result) : (k.finish res).cmd = none := rfl
@[simp] theorem Task.finish_prog (k : Task) (res : Result) : (k.finish res).prog = k.prog := rfl

end Sys2Proof.Machine
end

