-- ==== Sys2Proof/Laws/Memory.lean ====
section
/-! SUPPORT. Host memory: every operation keeps the canonical form, and reading gives what was last written. -/

namespace Sys2Proof.Machine

/-- Every address listed in a write's result was listed before, or is the one written. -/
theorem mem_write_keys {m : Memory} {a : Nat} {v : Byte} {c : Host.Cell} (h : c ∈ m.write a v) : c ∈ m ∨ c.1 = a := by
  induction m with
  | nil =>
    simp only [Memory.write] at h
    split at h <;> simp_all
  | cons x m ih =>
    obtain ⟨k, u⟩ := x
    simp only [Memory.write] at h
    split at h
    · split at h
      · exact .inl h
      · rcases List.mem_cons.1 h with rfl | h
        · exact .inr rfl
        · exact .inl h
    · split at h
      · split at h
        · exact .inl (List.mem_cons_of_mem _ h)
        · rcases List.mem_cons.1 h with rfl | h
          · exact .inr rfl
          · exact .inl (List.mem_cons_of_mem _ h)
      · rcases List.mem_cons.1 h with rfl | h
        · exact .inl (List.mem_cons_self ..)
        · rcases ih h with h | h
          · exact .inl (List.mem_cons_of_mem _ h)
          · exact .inr h

/-- A write keeps the canonical form. -/
theorem wf_write {m : Memory} (a : Nat) (v : Byte) (h : m.wf = true) : (m.write a v).wf = true := by
  induction m with
  | nil => simp only [Memory.write]; split <;> simp_all [Memory.wf]
  | cons x m ih =>
    obtain ⟨k, u⟩ := x
    simp only [Memory.wf, Bool.and_eq_true, decide_eq_true_eq, List.all_eq_true] at h
    obtain ⟨⟨hu, hk⟩, hm⟩ := h
    simp only [Memory.write]
    split
    · split
      · simp only [Memory.wf, Bool.and_eq_true, decide_eq_true_eq, List.all_eq_true]
        exact ⟨⟨hu, hk⟩, hm⟩
      · rename_i hak hv
        simp only [Memory.wf, Bool.and_eq_true, decide_eq_true_eq, List.all_eq_true, List.mem_cons]
        refine ⟨⟨hv, ?_⟩, ⟨hu, hk⟩, hm⟩
        rintro c (rfl | hc)
        · exact hak
        · exact lt_trans hak (hk c hc)
    · split
      · split
        · exact hm
        · rename_i hak hv
          simp only [Memory.wf, Bool.and_eq_true, decide_eq_true_eq, List.all_eq_true]
          exact ⟨⟨hv, fun c hc => by have := hk c hc; omega⟩, hm⟩
      · simp only [Memory.wf, Bool.and_eq_true, decide_eq_true_eq, List.all_eq_true]
        refine ⟨⟨hu, fun c hc => ?_⟩, ih hm⟩
        rcases mem_write_keys hc with hc | hc
        · exact hk c hc
        · omega

/-- An address below every listed one is unlisted. -/
theorem read_of_lt {m : Memory} {a : Nat} (h : ∀ c ∈ m, a < c.1) : m.read a = Memory.blank := by
  induction m with
  | nil => rfl
  | cons x m ih =>
    obtain ⟨k, u⟩ := x
    have : k ≠ a := by have := h (k, u) (List.mem_cons_self ..); simp at this; omega
    simp only [Memory.read, if_neg this]
    exact ih fun c hc => h c (List.mem_cons_of_mem _ hc)

/-- The byte just written is read back. -/
theorem read_write_self {m : Memory} (a : Nat) (v : Byte) (h : m.wf = true) : (m.write a v).read a = v := by
  induction m with
  | nil => simp only [Memory.write]; split <;> simp_all [Memory.read]
  | cons x m ih =>
    obtain ⟨k, u⟩ := x
    simp only [Memory.wf, Bool.and_eq_true, decide_eq_true_eq, List.all_eq_true] at h
    obtain ⟨⟨hu, hk⟩, hm⟩ := h
    simp only [Memory.write]
    split
    · rename_i hak
      split
      · rename_i hv
        rw [hv]
        refine read_of_lt ?_
        rintro c hc
        rcases List.mem_cons.1 hc with rfl | hc
        · exact hak
        · exact lt_trans hak (hk c hc)
      · simp [Memory.read]
    · split
      · rename_i hka
        subst hka
        split
        · rename_i hv
          rw [hv]
          exact read_of_lt hk
        · simp [Memory.read]
      · rename_i h1 h2
        have : k ≠ a := fun e => h2 e.symm
        simp only [Memory.read, if_neg this]
        exact ih hm

/-- A write leaves every other byte alone. -/
theorem read_write_ne (m : Memory) {a a' : Nat} (v : Byte) (h : a ≠ a') : (m.write a v).read a' = m.read a' := by
  induction m with
  | nil => simp only [Memory.write]; split <;> simp_all [Memory.read]
  | cons x m ih =>
    obtain ⟨k, u⟩ := x
    simp only [Memory.write]
    split
    · split <;> simp_all [Memory.read]
    · split
      · split <;> simp_all [Memory.read]
      · simp only [Memory.read, ih]

/-- Storing a frame keeps the canonical form. -/
theorem wf_writeBytes {m : Memory} (a : Nat) (vs : List Byte) (h : m.wf = true) : (m.writeBytes a vs).wf = true := by
  induction vs generalizing m a with
  | nil => exact h
  | cons v vs ih => exact ih (a + 1) (wf_write a v h)

/-- Storing a frame leaves every byte outside it alone. -/
theorem read_writeBytes_outside (m : Memory) (a : Nat) (vs : List Byte) {x : Nat} (h : x < a ∨ a + vs.length ≤ x) :
    (m.writeBytes a vs).read x = m.read x := by
  induction vs generalizing m a with
  | nil => rfl
  | cons v vs ih =>
    simp only [List.length_cons] at h
    rw [Memory.writeBytes, ih _ _ (by omega), read_write_ne _ _ (by omega)]

/-- Every byte of a stored frame is read back. -/
theorem read_writeBytes_inside {m : Memory} (a : Nat) (vs : List Byte) (h : m.wf = true) {j : Nat} (hj : j < vs.length) :
    (m.writeBytes a vs).read (a + j) = vs[j] := by
  induction vs generalizing m a j with
  | nil => simp at hj
  | cons v vs ih =>
    rw [Memory.writeBytes]
    cases j with
    | zero =>
      rw [read_writeBytes_outside _ _ _ (by omega), Nat.add_zero, read_write_self _ _ h]
      rfl
    | succ j =>
      have := ih (a := a + 1) (wf_write a v h) (j := j) (by simpa using hj)
      rw [show a + (j + 1) = a + 1 + j by omega, this]
      rfl

end Sys2Proof.Machine
end

