-- ==== Sys2Proof/Laws/Run.lean ====
section
/-! SUPPORT. Running a command: one lemma a kind of micro-step outcome, the induction over a turn's micro-steps packaged once, what an
ask can do, and what issuing a command can do. -/

namespace Sys2Proof.Machine

variable {t n : Nat} {i : Instr} {m : Micro} {rest ops : List Micro} {s s' : State}

theorem runCode_go (h : microStep t m s = .go s' ops) : runCode t i (n + 1) (m :: rest) s = runCode t i n (ops ++ rest) s' := by
  simp [runCode, h]

theorem runCode_jump (h : microStep t m s = .jump s' ops) : runCode t i (n + 1) (m :: rest) s = runCode t i n ops s' := by
  simp [runCode, h]

theorem runCode_hold (h : microStep t m s = .hold) : runCode t i (n + 1) (m :: rest) s = s.park t ⟨i, m :: rest⟩ := by
  simp [runCode, h]

theorem runCode_done (h : microStep t m s = .done s') : runCode t i (n + 1) (m :: rest) s = s' := by
  simp [runCode, h]

theorem runCode_raise {c : FaultCode} (h : microStep t m s = .raise c) :
    runCode t i (n + 1) (m :: rest) s = s.raiseInside c t i.word0 := by
  simp [runCode, h]

/-- What one micro-step keeps: `P` in the state it leaves, `Q` of the micro-steps it leaves to run, and `R` where the run ends. -/
def microKeeps (P R : State → Prop) (Q : Micro → Prop) (t : Nat) (i : Instr) (m : Micro) (s : State) : Prop :=
  match microStep t m s with
  | .go s' ops => P s' ∧ ∀ o ∈ ops, Q o
  | .jump s' ops => P s' ∧ ∀ o ∈ ops, Q o
  | .hold => True
  | .done s' => R s'
  | .raise c => R (s.raiseInside c t i.word0)

/-- The induction over a turn: what every micro-step keeps holds where the turn ends. -/
theorem runCode_keeps {P R : State → Prop} {Q : Micro → Prop} (hstep : ∀ m s, Q m → P s → microKeeps P R Q t i m s)
    (hpark : ∀ s code, (∀ m ∈ code, Q m) → P s → R (s.park t ⟨i, code⟩)) :
    ∀ n code s, (∀ m ∈ code, Q m) → P s → R (runCode t i n code s) := by
  intro n
  induction n with
  | zero => exact fun code s hc hp => hpark s code hc hp
  | succ n ih =>
    intro code s hc hp
    cases code with
    | nil => exact hpark s [] hc hp
    | cons m rest =>
      have hm := hstep m s (hc m (List.mem_cons_self ..)) hp
      have hr : ∀ o ∈ rest, Q o := fun o ho => hc o (List.mem_cons_of_mem _ ho)
      unfold microKeeps at hm
      cases hs : microStep t m s with
      | go s' ops =>
        rw [hs] at hm
        rw [runCode_go hs]
        refine ih _ _ (fun o ho => ?_) hm.1
        rcases List.mem_append.1 ho with ho | ho
        · exact hm.2 o ho
        · exact hr o ho
      | jump s' ops =>
        rw [hs] at hm
        rw [runCode_jump hs]
        exact ih _ _ hm.2 hm.1
      | hold =>
        rw [runCode_hold hs]
        exact hpark s _ hc hp
      | done s' =>
        rw [hs] at hm
        rw [runCode_done hs]
        exact hm
      | raise c =>
        rw [hs] at hm
        rw [runCode_raise hs]
        exact hm

/-- The induction over a turn, for what depends on all the micro-steps still to run: what every micro-step keeps of them and of the state
holds where the turn ends. -/
theorem runCode_keeps_code {P : List Micro → State → Prop} {R : State → Prop}
    (hstep : ∀ m rest s, P (m :: rest) s →
      (∀ s' ops, microStep t m s = .go s' ops → P (ops ++ rest) s') ∧ (∀ s' ops, microStep t m s = .jump s' ops → P ops s') ∧
      (∀ s', microStep t m s = .done s' → R s') ∧ ∀ c, microStep t m s = .raise c → R (s.raiseInside c t i.word0))
    (hpark : ∀ code s, P code s → R (s.park t ⟨i, code⟩)) : ∀ n code s, P code s → R (runCode t i n code s) := by
  intro n
  induction n with
  | zero => exact fun code s hp => hpark code s hp
  | succ n ih =>
    intro code s hp
    cases code with
    | nil => exact hpark [] s hp
    | cons m rest =>
      obtain ⟨hgo, hjump, hdone, hraise⟩ := hstep m rest s hp
      cases hs : microStep t m s with
      | go s' ops => rw [runCode_go hs]; exact ih _ _ (hgo _ _ hs)
      | jump s' ops => rw [runCode_jump hs]; exact ih _ _ (hjump _ _ hs)
      | hold => rw [runCode_hold hs]; exact hpark _ s hp
      | done s' => rw [runCode_done hs]; exact hdone _ hs
      | raise c => rw [runCode_raise hs]; exact hraise _ hs

/-- What an ask can do: hold, or draw the next answer, which is a member of the answer set (40_i2c_handshake.md R82, R83). -/
theorem ask_cases (b : Nat) (p : Prim) (k : Answer → List Micro) (s : State) :
    ask b p k s = .hold ∨ ∃ a rest, (s.bus b).answers = a :: rest ∧ answerAllowed p a = true ∧
      ask b p k s = .go (s.setBus b { s.bus b with answers := rest, ctl := { (s.bus b).ctl with ev := flagsSet p a } }) (k a) := by
  unfold ask
  split
  · exact .inl rfl
  · rename_i a rest ha
    split
    · exact .inr ⟨a, rest, ha, ‹_›, rfl⟩
    · exact .inl rfl

/-- An ask whose next answer is a member of the answer set. -/
theorem ask_answered {b : Nat} {p : Prim} {k : Answer → List Micro} {s : State} {a : Answer} {rest : List Answer}
    (h : (s.bus b).answers = a :: rest) (ha : answerAllowed p a = true) :
    ask b p k s = .go (s.setBus b { s.bus b with answers := rest, ctl := { (s.bus b).ctl with ev := flagsSet p a } }) (k a) := by
  simp [ask, h, ha]

/-- The checks all hold exactly where none is the first that does not. -/
theorem firstFault_none_iff (l : List (Bool × FaultCode)) : firstFault l = none ↔ ∀ c ∈ l, c.1 = true := by
  induction l with
  | nil => simp [firstFault]
  | cons c l ih =>
    obtain ⟨h, c⟩ := c
    cases h <;> simp [firstFault, ih]

/-- Issuing a task command from task context, where every check holds. -/
theorem issueTask_ok {idxOk : Bool} {checks : Nat → List (Bool × FaultCode)} {code : List Micro} (hf : s.fault = none)
    (ht : s.issuer = some (.task t, n)) (hi : idxOk = true) (hc : ∀ c ∈ checks t, c.1 = true) :
    issueTask i idxOk checks code s = .next (runCode t i n code s) := by
  have : firstFault (checks t) = none := (firstFault_none_iff _).2 hc
  simp [issueTask, hf, ht, hi, firstFault, this]

/-- Issuing a task command from task context, where a check does not hold. -/
theorem issueTask_fault {idxOk : Bool} {checks : Nat → List (Bool × FaultCode)} {code : List Micro} {c : FaultCode}
    (hf : s.fault = none) (ht : s.issuer = some (.task t, n)) (hc : firstFault ((idxOk, .invalidIndex) :: checks t) = some c) :
    issueTask i idxOk checks code s = .next (s.raise c (.task t) i.word0) := by
  simp [issueTask, hf, ht, hc]

/-- Everything that issuing a task command can do, where it answers a next state. -/
theorem issueTask_next {idxOk : Bool} {checks : Nat → List (Bool × FaultCode)} {code : List Micro}
    (h : issueTask i idxOk checks code s = .next s') :
    (∃ c g, s' = s.raise c g i.word0) ∨ (∃ t n, s.issuer = some (.task t, n) ∧ idxOk = true ∧ (∀ c ∈ checks t, c.1 = true) ∧
      s' = runCode t i n code s) := by
  unfold issueTask at h
  split at h
  · cases h
  · split at h
    · cases h
    · cases h; exact .inl ⟨_, _, rfl⟩
    · rename_i t n hi
      split at h
      · cases h; exact .inl ⟨_, _, rfl⟩
      · rename_i hff
        cases h
        rw [firstFault_none_iff] at hff
        exact .inr ⟨t, n, hi, hff _ (List.mem_cons_self ..), fun c hc => hff c (List.mem_cons_of_mem _ hc), rfl⟩

/-- Everything that issuing an interrupt command can do, where it answers a next state. -/
theorem issueIrq_next {idxOk : Bool} {effect : Nat → State → State} (h : issueIrq i idxOk effect s = .next s') :
    (∃ c g, s' = s.raise c g i.word0) ∨ (∃ r n, s.issuer = some (.uartRx r, n) ∧ idxOk = true ∧ s' = effect r s) := by
  unfold issueIrq at h
  split at h
  · cases h
  · split at h
    · cases h
    · cases h; exact .inl ⟨_, _, rfl⟩
    · rename_i r n hi
      split at h
      · cases h; exact .inr ⟨r, n, hi, ‹_›, rfl⟩
      · cases h; exact .inl ⟨_, _, rfl⟩

end Sys2Proof.Machine
end

