-- ==== Sys2Proof/Laws/Issue.lean ====
section
/-! SUPPORT. Issuing a command: the checks of each meaning are the chain `commandFault` of 60_exceptions.md R125, and a command whose
checks all hold runs its micro-steps. -/

namespace Sys2Proof.Machine

/-! ### The checks, one by one -/

theorem firstFault_cons (a : Bool) (c : FaultCode) (l : List (Bool × FaultCode)) :
    firstFault ((a, c) :: l) = if a = false then some c else firstFault l := by cases a <;> rfl

theorem firstFault_nil : firstFault [] = none := rfl

theorem busExists_false (s : State) (b : Nat) : s.busExists b = false ↔ s.buses.length ≤ b := by simp [State.busExists]

theorem readerExists_false (s : State) (r : Nat) : s.readerExists r = false ↔ s.readers.length ≤ r := by simp [State.readerExists]

theorem transferOperandsOk_false (len buf : Nat) :
    transferOperandsOk len buf = false ↔ len = 0 ∨ 2 ^ 31 ≤ len ∨ 2 ^ 32 < buf + len := by
  simp [transferOperandsOk, countTop, memTop]; omega

theorem readOperandsOk_false (n buf : Nat) : readOperandsOk n buf = false ↔ 2 ^ 31 ≤ n ∨ 2 ^ 32 < buf + n := by
  simp [readOperandsOk, countTop, memTop]; omega

theorem untilOperandsOk_false (patlen max buf pat : Nat) : untilOperandsOk patlen max buf pat = false ↔
    patlen = 0 ∨ max = 0 ∨ 2 ^ 31 ≤ max ∨ 2 ^ 32 < buf + max ∨ 2 ^ 32 < pat + patlen := by
  simp [untilOperandsOk, countTop, memTop]; omega

/-- The table of 42_i2c_transfers.md R103, read in two ways. -/
theorem openingLegal_eq (nostart : Bool) (p : Phase) (d : Dir) (addr : Addr7) :
    openingLegal nostart p d addr = openingInTable nostart p d addr := by
  cases nostart <;> cases p <;> cases d <;> simp [openingLegal, openingInTable, startLegal, heldPhase]

/-! ### The whole chain -/

/-- The checks of a command issued by task `t`, as its meaning lists them. -/
def checksOf (s : State) (t : Nat) : Instr → List (Bool × FaultCode)
  | .i2cInit b => [(s.busExists b, .invalidIndex), (!(s.bus b).initDone, .doubleInit)]
  | .i2cAcquire b => [(s.busExists b, .invalidIndex), ((s.bus b).initDone, .notInitialised)]
  | .i2cRelease b =>
    [(s.busExists b, .invalidIndex), ((s.bus b).initDone, .notInitialised), (ownsLock s b t, .lockNotOwned)]
  | .i2cRead b addr f len buf => (s.busExists b, .invalidIndex) :: transferChecks s b addr .read f.nostart len buf t
  | .i2cWrite b addr f len buf => (s.busExists b, .invalidIndex) :: transferChecks s b addr .write f.nostart len buf t
  | .i2cReadRegs b addr _ _ len buf => (s.busExists b, .invalidIndex) :: transferChecks s b addr .write false len buf t
  | .i2cWriteRegs b addr _ _ len buf => (s.busExists b, .invalidIndex) :: transferChecks s b addr .write false len buf t
  | .sfrPush r _ => [(s.readerExists r, .invalidIndex), (false, .wrongContext)]
  | .sfrRead r n buf _ =>
    [(s.readerExists r, .invalidIndex), (readOperandsOk n buf, .invalidOperand), (noConsumer s r, .concurrentReader)]
  | .sfrReadUntil r patlen max buf _ pat =>
    [(s.readerExists r, .invalidIndex), (untilOperandsOk patlen max buf pat, .invalidOperand),
      (noConsumer s r, .concurrentReader)]

theorem transferChecks_eq (s : State) (b : Nat) (addr : Addr7) (d : Dir) (nostart : Bool) (len buf t : Nat) :
    firstFault ((s.busExists b, .invalidIndex) :: transferChecks s b addr d nostart len buf t) =
      transferFault s (.task t) b len buf (openingInTable nostart (s.bus b).phase d addr) := by
  simp only [transferChecks, firstFault_cons, firstFault_nil, transferFault, openingLegal_eq, ← busExists_false,
    ← transferOperandsOk_false]
  rfl

/-- The first check that does not hold is the fault of the chain. -/
theorem firstFault_checksOf (s : State) (t : Nat) (i : Instr) : firstFault (checksOf s t i) = commandFault s (.task t) i := by
  cases i
  case i2cRead => exact transferChecks_eq ..
  case i2cWrite => exact transferChecks_eq ..
  case i2cReadRegs => exact transferChecks_eq ..
  case i2cWriteRegs => exact transferChecks_eq ..
  all_goals simp only [checksOf, firstFault_cons, firstFault_nil, commandFault, ← busExists_false, ← readerExists_false,
    ← readOperandsOk_false, ← untilOperandsOk_false]
  case i2cInit b => cases (s.bus b).initDone <;> rfl
  case i2cAcquire => rfl
  case i2cRelease => rfl
  case sfrPush => rfl
  all_goals
    refine if_congr Iff.rfl rfl ((if_neg (by simp [Agent.inTask])).trans
      (if_congr Iff.rfl rfl (if_congr (by simp [noConsumer]) rfl rfl))).symm

/-! ### What a command then runs -/

/-- The micro-steps of a command in task context, after its checks. -/
def codeOf : Instr → List Micro
  | .i2cInit b => initCode b
  | .i2cAcquire b => acquireCode b
  | .i2cRelease b => releaseCode b
  | .i2cRead b addr f len buf => readBytesCode b addr f len buf
  | .i2cWrite b addr f len buf => writeBytesCode b addr f len buf
  | .i2cReadRegs b addr reg f len buf => readRegsCode b addr reg f len buf
  | .i2cWriteRegs b addr reg f len buf => writeRegsCode b addr reg f len buf
  | .sfrPush _ _ => []
  | .sfrRead r n buf timeout => sfrReadCode r n buf timeout
  | .sfrReadUntil r patlen max buf timeout pat => sfrUntilCode r patlen max buf timeout pat

/-- SFR_WRITE_ONE always faults from a task. -/
theorem push_faults (s : State) (t r : Nat) (v : Byte) : commandFault s (.task t) (.sfrPush r v) ≠ none := by
  simp only [commandFault, Agent.inTask]
  split <;> simp

/-- A task's command whose checks all hold runs its micro-steps. -/
theorem exec_runs {s : State} {t n : Nat} {i : Instr} (h : s.taskMoves t n) (hc : commandFault s (.task t) i = none) :
    exec i s = .next (runCode t i n (codeOf i) s) := by
  have hi := issuer_task s h.1
  rw [← firstFault_checksOf, firstFault_none_iff] at hc
  cases i
  case sfrPush r v => exact absurd (hc _ (List.mem_cons_of_mem _ (List.mem_cons_self ..))) (by simp)
  all_goals
    simp only [exec, execI2cInit, execI2cAcquire, execI2cRelease, execI2cRead, execI2cWrite, execI2cReadRegs, execI2cWriteRegs,
      execSfrRead, execSfrReadUntil]
    exact issueTask_ok h.2.1 hi (hc _ (List.mem_cons_self ..)) (fun c hm => hc c (List.mem_cons_of_mem _ hm))

/-- A task's command of which a check does not hold raises the first such fault. -/
theorem exec_raises {s : State} {t n : Nat} {i : Instr} {c : FaultCode} (h : s.taskMoves t n)
    (hc : commandFault s (.task t) i = some c) : exec i s = .next { s with fault := some ⟨c, .task t, i.word0⟩ } := by
  have hi := issuer_task s h.1
  rw [← raise_of_none s h.2.1]
  cases i
  case sfrPush r v =>
    simp only [exec, execSfrPush, issueIrq, h.2.1, hi, commandFault, Agent.inTask, ← readerExists_false] at hc ⊢
    cases hr : s.readerExists r <;> simp_all
  all_goals
    rw [← firstFault_checksOf] at hc
    exact issueTask_fault h.2.1 hi hc

end Sys2Proof.Machine
end

