-- ==== Sys2Proof/Laws/Micro.lean ====
section
/-! SUPPORT. What one micro-step can do to the state, said once: it changes one bus, one reader, one byte of host memory, the power-block
count or nothing; only `return` ends a command; and what a task's command in progress is does not matter to it. -/

namespace Sys2Proof.Machine

/-- The state a micro-step that goes on leaves. -/
def MicroOut.next? : MicroOut → Option State
  | .go s _ => some s
  | .jump s _ => some s
  | .hold => none
  | .done _ => none
  | .raise _ => none

theorem clearEmit_setBus (s : State) (b : Nat) (e : WireEvent) : ∃ u, (s.clearFlags b).emit b e = s.setBus b u :=
  ⟨_, setBus_setBus ..⟩

theorem lose_setBus (s : State) (b : Nat) : ∃ u, s.lose b = s.setBus b u := by
  obtain ⟨u, hu⟩ := clearEmit_setBus s b .lost
  rw [State.lose, hu, modBus_eq, setBus_setBus]
  exact ⟨_, rfl⟩

theorem started_setBus (s : State) (b : Nat) (first : Bool) : ∃ u, s.started b first = s.setBus b u := by
  cases first
  · exact clearEmit_setBus s b .restart
  · obtain ⟨u, hu⟩ := clearEmit_setBus s b .start
    simp only [State.started, if_true, hu, modCtl_eq, setBus_setBus]
    exact ⟨_, rfl⟩

/-- Every micro-step that goes on changes one unit only. -/
theorem microStep_next {t : Nat} {m : Micro} {s s' : State} (h : (microStep t m s).next? = some s') :
    s' = s ∨ (∃ b u, m.bus? = some b ∧ s' = s.setBus b u) ∨
      (∃ b u, m = .drawBusy b ∧ s' = (s.setBus b u).setDraws (s.draws + 1)) ∨
      (∃ r d, m.bus? = none ∧ d.cap = (s.reader r).cap ∧ d.rxResults = (s.reader r).rxResults ∧
        (∃ k, d.q = (s.reader r).q.drop k) ∧ s' = s.setReader r d) ∨
      (∃ a v, m = .memStore a v ∧ canWrite s.cfg a = true ∧ s' = s.setMem (s.mem.write a v)) ∨
      (m = .pmBlock ∧ s' = s.setPm (s.pmDeepBlocks + 1)) ∨ (m = .pmUnblock ∧ s' = s.setPm (s.pmDeepBlocks - 1)) := by
  cases m <;> simp only [microStep] at h
  all_goals
    first
    | (injection h with h; subst h; exact .inr (.inl ⟨_, _, rfl, rfl⟩))
    | (injection h with h; subst h; exact .inr (.inr (.inl ⟨_, _, rfl, rfl⟩)))
    | (injection h with h; subst h; exact .inl rfl)
    | (simp [microLeaveRead, microPmBlock, microPmUnblock, MicroOut.next?] at h; subst h; simp)
    | cases h
    | skip
  all_goals
    first
    | (simp only [microAskStart, microAskAddr, microAskSend, microAskRecv, microAskStop, microAskRecover] at h
       rcases ask_cases _ _ _ s with ha | ⟨a, rest, -, -, ha⟩
       · rw [ha] at h; cases h
       · rw [ha] at h; injection h with h; subst h; exact .inr (.inl ⟨_, _, rfl, rfl⟩))
    | skip
  case leaveRead r =>
    exact .inr (.inr ⟨rfl, r, { s.reader r with consumer := none }, rfl, rfl, ⟨0, rfl⟩, rfl⟩)
  case memStore a v =>
    simp only [microMemStore] at h
    split at h
    · injection h with h; subst h
      exact .inr (.inr (.inr (.inr (.inl ⟨_, _, rfl, ‹_›, rfl⟩))))
    · cases h
  case gotStart b addr d retries first a =>
    simp only [microGotStart] at h
    split at h
    · injection h with h; subst h
      obtain ⟨u, hu⟩ := started_setBus s b first; exact .inr (.inl ⟨b, u, rfl, hu⟩)
    · injection h with h; subst h
      obtain ⟨u, hu⟩ := lose_setBus s b; exact .inr (.inl ⟨b, u, rfl, hu⟩)
    · cases h
  case gotAddr b addr d retries a =>
    simp only [microGotAddr] at h
    split at h
    · injection h with h; subst h; obtain ⟨u, hu⟩ := clearEmit_setBus s b _; exact .inr (.inl ⟨b, u, rfl, hu⟩)
    · split at h <;> (injection h with h; subst h; obtain ⟨u, hu⟩ := clearEmit_setBus s b _; exact .inr (.inl ⟨b, u, rfl, hu⟩))
    · injection h with h; subst h; obtain ⟨u, hu⟩ := lose_setBus s b; exact .inr (.inl ⟨b, u, rfl, hu⟩)
    · injection h with h; subst h; obtain ⟨u, hu⟩ := clearEmit_setBus s b _; exact .inr (.inl ⟨b, u, rfl, hu⟩)
    · cases h
  case gotSend b v a =>
    simp only [microGotSend] at h
    split at h
    · injection h with h; subst h; obtain ⟨u, hu⟩ := clearEmit_setBus s b _; exact .inr (.inl ⟨b, u, rfl, hu⟩)
    · injection h with h; subst h; obtain ⟨u, hu⟩ := clearEmit_setBus s b _; exact .inr (.inl ⟨b, u, rfl, hu⟩)
    · injection h with h; subst h; obtain ⟨u, hu⟩ := lose_setBus s b; exact .inr (.inl ⟨b, u, rfl, hu⟩)
    · injection h with h; subst h; obtain ⟨u, hu⟩ := clearEmit_setBus s b _; exact .inr (.inl ⟨b, u, rfl, hu⟩)
    · cases h
  case gotRecv b k dst a =>
    simp only [microGotRecv] at h
    split at h
    · injection h with h; subst h; obtain ⟨u, hu⟩ := clearEmit_setBus s b _; exact .inr (.inl ⟨b, u, rfl, hu⟩)
    · injection h with h; subst h; obtain ⟨u, hu⟩ := lose_setBus s b; exact .inr (.inl ⟨b, u, rfl, hu⟩)
    · injection h with h; subst h; obtain ⟨u, hu⟩ := clearEmit_setBus s b _; exact .inr (.inl ⟨b, u, rfl, hu⟩)
    · injection h with h; subst h; obtain ⟨u, hu⟩ := clearEmit_setBus s b _; exact .inr (.inl ⟨b, u, rfl, hu⟩)
    · cases h
  case takeLock b =>
    simp only [microTakeLock] at h
    split at h
    · injection h with h; subst h; exact .inr (.inl ⟨b, _, rfl, rfl⟩)
    · cases h
  case enterRead r =>
    simp only [microEnterRead] at h
    split at h
    · injection h with h; subst h; exact .inr (.inr (.inr (.inl ⟨r, { s.reader r with consumer := some t }, rfl, rfl, rfl, ⟨0, rfl⟩, rfl⟩)))
    · cases h
  case readLoop r n buf got dl =>
    simp only [microReadLoop] at h
    split at h
    · split at h
      · rename_i v rest hq
        injection h with h; subst h
        exact .inr (.inr (.inr (.inl ⟨r, { s.reader r with q := rest }, rfl, rfl, rfl, ⟨1, by rw [hq]; rfl⟩, rfl⟩)))
      · split at h <;> cases h; exact .inl rfl
    · cases h; exact .inl rfl
  case readAll r n buf dl =>
    simp only [microReadAll] at h
    split at h
    · injection h with h; subst h
      exact .inr (.inr (.inr (.inl ⟨r, { s.reader r with q := (s.reader r).q.drop n }, rfl, rfl, rfl, ⟨n, rfl⟩, rfl⟩)))
    · split at h <;> cases h; exact .inl rfl
  case untilLoop r mx buf dl pat got =>
    simp only [microUntilLoop] at h
    split at h
    · rename_i v rest hq
      injection h with h; subst h
      exact .inr (.inr (.inr (.inl ⟨r, { s.reader r with q := rest }, rfl, rfl, rfl, ⟨1, by rw [hq]; rfl⟩, rfl⟩)))
    · split at h <;> cases h; exact .inl rfl
  all_goals
    simp only [microWaitNotBusy, microGenStart, microBusFail, microAbort, microRecvLoop, microSendLoop, microLoadSend, microArmRead,
      microLoadPattern, microUntilTest] at h
    refine .inl ?_
    revert h
    repeat' split
    all_goals (intro h; cases h; try rfl)

/-- A micro-step that goes on changes no task, no parameter, not the time, the schedule or the fault record. -/
theorem microStep_rest {t : Nat} {m : Micro} {s s' : State} (h : (microStep t m s).next? = some s') :
    s'.tasks = s.tasks ∧ s'.cfg = s.cfg ∧ s'.now = s.now ∧ s'.turns = s.turns ∧ s'.fault = s.fault := by
  rcases microStep_next h with rfl | ⟨b, u, -, rfl⟩ | ⟨b, u, -, rfl⟩ | ⟨r, d, -, -, -, -, rfl⟩ | ⟨a, v, -, -, rfl⟩ | ⟨-, rfl⟩ | ⟨-, rfl⟩
  all_goals exact ⟨rfl, rfl, rfl, rfl, rfl⟩

/-- Only `return` ends a command. -/
theorem microStep_done {t : Nat} {m : Micro} {s s' : State} (h : microStep t m s = .done s') :
    ∃ res, m = .ret res ∧ s' = s.complete t res := by
  cases m <;> simp only [microStep] at h
  case ret res => cases h; exact ⟨res, rfl, rfl⟩
  all_goals
    first
    | cases h
    | (simp only [microAskStart, microAskAddr, microAskSend, microAskRecv, microAskStop, microAskRecover] at h
       rcases ask_cases _ _ _ s with ha | ⟨a, rest, -, -, ha⟩ <;> rw [ha] at h <;> cases h)
    | (simp only [microTakeLock, microWaitNotBusy, microGenStart, microGotStart, microGotAddr, microGotSend, microGotRecv, microBusFail,
        microAbort, microRecvLoop, microSendLoop, microLoadSend, microMemStore, microEnterRead, microArmRead, microReadLoop,
        microReadAll, microLoadPattern, microUntilLoop, microUntilTest] at h
       revert h
       repeat' split
       all_goals (intro h; cases h))

/-- Only entering a read raises a fault, and only ConcurrentReader. -/
theorem microStep_raise {t : Nat} {m : Micro} {s : State} {c : FaultCode} (h : microStep t m s = .raise c) :
    ∃ r, m = .enterRead r ∧ c = .concurrentReader ∧ (s.reader r).consumer ≠ none := by
  cases m <;> simp only [microStep] at h
  case enterRead r =>
    simp only [microEnterRead] at h
    split at h
    · cases h
    · cases h; exact ⟨r, rfl, rfl, ‹_›⟩
  all_goals
    first
    | cases h
    | (simp only [microAskStart, microAskAddr, microAskSend, microAskRecv, microAskStop, microAskRecover] at h
       rcases ask_cases _ _ _ s with ha | ⟨a, rest, -, -, ha⟩ <;> rw [ha] at h <;> cases h)
    | (simp only [microTakeLock, microWaitNotBusy, microGenStart, microGotStart, microGotAddr, microGotSend, microGotRecv, microBusFail,
        microAbort, microRecvLoop, microSendLoop, microLoadSend, microMemStore, microArmRead, microReadLoop,
        microReadAll, microLoadPattern, microUntilLoop, microUntilTest] at h
       revert h
       repeat' split
       all_goals (intro h; cases h))

end Sys2Proof.Machine
end

