-- ==== Sys2Proof/Laws/PerInstr.lean ====
section
/-! SUPPORT. Statements made for every constructor of Instr, one lemma each. -/

namespace Sys2Proof.Laws

/-- The operation code of a command (30_encoding.md R68). -/
def opOf : Instr → Nat
  | .i2cInit _ => 1
  | .i2cAcquire _ => 2
  | .i2cRelease _ => 3
  | .i2cRead _ _ _ _ _ => 4
  | .i2cWrite _ _ _ _ _ => 5
  | .i2cReadRegs _ _ _ _ _ _ => 6
  | .i2cWriteRegs _ _ _ _ _ _ => 7
  | .sfrPush _ _ => 8
  | .sfrRead _ _ _ _ => 9
  | .sfrReadUntil _ _ _ _ _ _ => 10

/-- OP of an I2C command's word 0. -/
theorem op_i2cWord0 (op b addr flags reg : Nat) (h : op < 16) : field (i2cWord0 op b addr flags reg) 3 0 = op := by
  simp only [field, i2cWord0, wordOf, BitVec.toNat_ofNat]
  omega

/-- OP of a serial command's word 0. -/
theorem op_sfrWord0 (op r byte : Nat) (h : op < 16) : field (sfrWord0 op r byte) 3 0 = op := by
  simp only [field, sfrWord0, wordOf, BitVec.toNat_ofNat]
  omega

/-- The OP field of the encoded word 0 is the operation code of the table, whatever the operands. -/
def OpField.Statement (i : Instr) : Prop := field i.word0 3 0 = opOf i

theorem OpField.i2cInit (b : Nat) : OpField.Statement (.i2cInit b) := op_i2cWord0 _ _ _ _ _ (by decide)
theorem OpField.i2cAcquire (b : Nat) : OpField.Statement (.i2cAcquire b) := op_i2cWord0 _ _ _ _ _ (by decide)
theorem OpField.i2cRelease (b : Nat) : OpField.Statement (.i2cRelease b) := op_i2cWord0 _ _ _ _ _ (by decide)
theorem OpField.i2cRead (b : Nat) (addr : Addr7) (flags : XferFlags) (len buf : Nat) :
    OpField.Statement (.i2cRead b addr flags len buf) := op_i2cWord0 _ _ _ _ _ (by decide)
theorem OpField.i2cWrite (b : Nat) (addr : Addr7) (flags : XferFlags) (len buf : Nat) :
    OpField.Statement (.i2cWrite b addr flags len buf) := op_i2cWord0 _ _ _ _ _ (by decide)
theorem OpField.i2cReadRegs (b : Nat) (addr : Addr7) (reg : Byte) (flags : XferFlags) (len buf : Nat) :
    OpField.Statement (.i2cReadRegs b addr reg flags len buf) := op_i2cWord0 _ _ _ _ _ (by decide)
theorem OpField.i2cWriteRegs (b : Nat) (addr : Addr7) (reg : Byte) (flags : XferFlags) (len buf : Nat) :
    OpField.Statement (.i2cWriteRegs b addr reg flags len buf) := op_i2cWord0 _ _ _ _ _ (by decide)
theorem OpField.sfrPush (r : Nat) (byte : Byte) : OpField.Statement (.sfrPush r byte) := op_sfrWord0 _ _ _ (by decide)
theorem OpField.sfrRead (r n buf timeout : Nat) : OpField.Statement (.sfrRead r n buf timeout) := op_sfrWord0 _ _ _ (by decide)
theorem OpField.sfrReadUntil (r patlen max buf timeout pat : Nat) : OpField.Statement (.sfrReadUntil r patlen max buf timeout pat) :=
  op_sfrWord0 _ _ _ (by decide)

end Sys2Proof.Laws
end

