-- ==== Sys2Proof/Laws/Step.lean ====
section
/-! SUPPORT. Everything one step can do, said once: whose turn it was, and what that agent did before its turn was over. -/

namespace Sys2Proof.Machine

variable {s s' : State}

/-- What the agent whose turn it is does to a block without a fault, before its turn is over. -/
inductive Moves (s : State) : State → Prop where
  /-- A task that does not exist, has finished, or a reader that does not exist. -/
  | idle : Moves s s
  /-- A task or the receive interrupt raises a fault at issue. -/
  | fault (c : FaultCode) (g : Agent) (w : Word) : Moves s { s with fault := some ⟨c, g, w⟩ }
  /-- A task goes on with its command. -/
  | resume (t n : Nat) (c : Cmd) : s.turn = .task t n → t < s.tasks.length → (s.task t).cmd = some c →
    Moves s (runCode t c.instr n c.code s)
  /-- A task issues the next command of its program. -/
  | issue (t n : Nat) (d : Desc) (i : Instr) : s.turn = .task t n → t < s.tasks.length → (s.task t).cmd = none → s.fetch t = some d →
    decode d = .ok i → commandFault s (.task t) i = none → Moves s (runCode t i n (codeOf i) s)
  /-- The receive interrupt delivers a byte. -/
  | push (g r : Nat) (d : Desc) (v : Byte) : s.turn = .uart g d → decode d = .ok (.sfrPush r v) → r < s.readers.length →
    Moves s (s.push r v g)
  | answer (b : Nat) (a : Answer) : s.turn = .busAnswer b a → Moves s (s.addAnswer b a)
  | busy (b : Nat) (v : Bool) : s.turn = .busBusy b v → Moves s (s.envBusy b v)
  | clock (d : Nat) : s.turn = .clock d → Moves s (s.tick d)
  | store (a : Nat) (v : Byte) : s.turn = .hostStore a v → Moves s (s.hostStore a v)

/-- A command issued by the receive interrupt raises a fault, or is a push. -/
theorem exec_irq {i : Instr} {g : Nat} (hf : s.fault = none) (hi : s.issuer = some (.uartRx g, 0)) (h : exec i s = .next s') :
    (∃ c a w, s' = { s with fault := some ⟨c, a, w⟩ }) ∨
      ∃ r v, i = .sfrPush r v ∧ r < s.readers.length ∧ s' = s.push r v g := by
  cases i
  case sfrPush r v =>
    simp only [exec, execSfrPush] at h
    rcases issueIrq_next h with ⟨c, a, rfl⟩ | ⟨g', n, hg, hr, rfl⟩
    · exact .inl ⟨_, _, _, raise_of_none s hf⟩
    · rw [hi] at hg
      cases hg
      exact .inr ⟨r, v, rfl, by simpa [State.readerExists] using hr, rfl⟩
  all_goals
    simp only [exec, execI2cInit, execI2cAcquire, execI2cRelease, execI2cRead, execI2cWrite, execI2cReadRegs, execI2cWriteRegs,
      execSfrRead, execSfrReadUntil] at h
    rcases issueTask_next h with ⟨c, a, rfl⟩ | ⟨t, n, ht, -⟩
    · exact .inl ⟨_, _, _, raise_of_none s hf⟩
    · rw [hi] at ht; cases ht

/-- Everything a step can do. -/
theorem step_moves (h : step s = .next s') : s.fault = none ∧ ∃ s₁, Moves s s₁ ∧ s' = s₁.endTurn := by
  unfold step at h
  split at h
  · cases h
  · rename_i hf
    have hf : s.fault = none := by simpa using hf
    refine ⟨hf, ?_⟩
    cases hm : moveAgent s with
    | fault f => rw [hm] at h; cases h
    | refused r => rw [hm] at h; cases h
    | next s₁ =>
      rw [hm] at h
      cases h
      refine ⟨s₁, ?_, rfl⟩
      unfold moveAgent at hm
      split at hm
      · rename_i t n ht
        unfold taskTurn at hm
        split at hm
        · rename_i hl
          split at hm
          · rename_i c hc
            cases hm
            simp only [State.resume, hc]
            exact .resume t n c ht hl hc
          · rename_i hc
            split at hm
            · rename_i d hd
              unfold issueDesc at hm
              split at hm
              · rename_i i hi
                cases hcf : commandFault s (.task t) i with
                | some c =>
                  rw [exec_raises ⟨ht, hf, hl⟩ hcf] at hm
                  cases hm
                  exact .fault _ _ _
                | none =>
                  rw [exec_runs ⟨ht, hf, hl⟩ hcf] at hm
                  cases hm
                  exact .issue t n d i ht hl hc hd hi hcf
              · cases hm
                rw [raise_of_none s hf]
                exact .fault _ _ _
            · cases hm; exact .idle
        · cases hm; exact .idle
      · rename_i r d ht
        unfold uartTurn at hm
        split at hm
        · unfold issueDesc at hm
          split at hm
          · rename_i i hi
            rcases exec_irq hf (issuer_uart s ht) hm with ⟨c, a, w, rfl⟩ | ⟨r', v, rfl, hr, rfl⟩
            · exact .fault _ _ _
            · exact .push r r' d v ht hi hr
          · cases hm
            rw [raise_of_none s hf]
            exact .fault _ _ _
        · cases hm; exact .idle
      · cases hm; exact .answer _ _ ‹_›
      · cases hm; exact .busy _ _ ‹_›
      · cases hm; exact .clock _ ‹_›
      · cases hm; exact .store _ _ ‹_›

end Sys2Proof.Machine
end

