-- ==== Sys2Proof/Laws/Where.lean ====
section
/-! SUPPORT. Where a command in progress can come to, one lemma for each shape of command, and what a micro-step of a transfer leaves
alone. -/

namespace Sys2Proof.Machine

/-- Where a micro-step of a transfer leads. -/
theorem transfer_ops {i : Instr} {b t : Nat} {m : Micro} {s s' : State} {ops : List Micro} (hm : m.ofTransfer i b = true)
    (h : microStep t m s = .go s' ops ∨ microStep t m s = .jump s' ops) : ∀ o ∈ ops, o.ofTransfer i b = true := by
  cases m <;> simp only [Micro.ofTransfer, Bool.and_eq_true, decide_eq_true_eq, Bool.false_eq_true] at hm <;> simp only [microStep] at h
  all_goals first
    | (simp only [microAskStart, microAskAddr, microAskSend, microAskRecv, microAskStop] at h
       rcases ask_cases _ _ _ s with ha | ⟨a, rest, -, -, ha⟩
       · rw [ha] at h; simp at h
       · rw [ha] at h; simp at h; obtain ⟨rfl, rfl⟩ := h; intro o ho; simp at ho; try subst ho; simp_all [Micro.ofTransfer])
    | skip
  all_goals
    try simp only [microWaitNotBusy, microGenStart, microGotStart, microGotAddr, microGotSend, microGotRecv, microBusFail,
      microAbort, microRecvLoop, microSendLoop, microLoadSend, microMemStore, microSetAckEn, microNoteStop, microCloseBus,
      microSetPhase] at h
    revert h
    repeat' split
    all_goals (intro h; simp at h)
    all_goals (obtain ⟨rfl, rfl⟩ := h; intro o ho; simp [stopCode] at ho)
    all_goals (try casesm* _ ∨ _) <;> subst_vars <;> (try simp_all [Micro.ofTransfer, Instr.storesAt])
    all_goals (try (have := hm.2; rw [Prod.ext_iff] at this; simp at this; omega))

/-- Where a micro-step of a serial read leads. -/
theorem read_ops {i : Instr} {r t : Nat} {m : Micro} {s s' : State} {ops : List Micro} (hm : m.ofRead i r = true)
    (h : microStep t m s = .go s' ops ∨ microStep t m s = .jump s' ops) : ∀ o ∈ ops, o.ofRead i r = true := by
  cases m <;> simp only [Micro.ofRead, Bool.and_eq_true, decide_eq_true_eq, Bool.false_eq_true] at hm <;> simp only [microStep] at h
  case readAll r n buf dl =>
    simp only [microReadAll] at h
    have key : ∀ (l : List Byte) (a : Nat), i.storesTo.1 ≤ a → a + l.length ≤ i.storesTo.1 + i.storesTo.2 →
        ∀ o ∈ storeCode a l, o.ofRead i r = true := by
      intro l
      induction l with
      | nil => intro a _ _ o ho; cases ho
      | cons v l ih =>
        intro a h1 h2 o ho
        simp at h2
        rcases List.mem_cons.1 ho with rfl | ho
        · simp [Micro.ofRead, Instr.storesAt]; omega
        · exact ih (a + 1) (by omega) (by omega) o ho
    obtain ⟨rfl, hb⟩ := hm
    rw [Prod.ext_iff] at hb
    simp at hb
    revert h
    repeat' split
    all_goals (intro h; simp at h)
    all_goals (obtain ⟨rfl, rfl⟩ := h; intro o ho; simp [leaveCode] at ho)
    · rcases ho with ho | ho | ho
      · exact key _ _ (by omega) (by simp; omega) _ ho
      · subst ho; simp [Micro.ofRead]
      · subst ho; simp [Micro.ofRead]
    · rcases ho with ho | ho <;> subst ho <;> simp [Micro.ofRead]
  all_goals
    try simp only [microMemStore, microEnterRead, microArmRead, microReadLoop, microLoadPattern, microArmUntil, microUntilLoop,
      microUntilTest, microLeaveRead] at h
    revert h
    repeat' split
    all_goals (intro h; simp at h)
    all_goals (obtain ⟨rfl, rfl⟩ := h; intro o ho; simp [leaveCode] at ho)
    all_goals (try casesm* _ ∨ _) <;> subst_vars <;> (try simp_all [Micro.ofRead, Instr.storesAt])
    all_goals (try omega)
    all_goals (try (have := hm; rw [Prod.ext_iff] at this; simp at this; omega))

/-- The rest of a suffix is a suffix. -/
theorem suffix_tail {m : Micro} {rest l : List Micro} (h : m :: rest <:+ l) : rest <:+ l := (List.suffix_cons m rest).trans h

/-- A micro-step of I2C_INIT other than the choice of a recovery leads to the next one. -/
theorem init_straight {b t : Nat} {m : Micro} {s s' : State} {ops : List Micro} (hm : m ∈ initCode b ∨ m ∈ recoverCode b)
    (hr : m ≠ .recoverIfBusy b) : (microStep t m s = .go s' ops → ops = []) ∧ microStep t m s ≠ .jump s' ops := by
  simp [initCode, recoverCode] at hm
  casesm* _ ∨ _ <;> subst_vars
  all_goals
    simp only [microStep, microResetLock, microClock, microPins, microEnable, microSetCcr, microSetFs, microSetPhase,
      microSetInitDone, microNoteRecover, microDrawBusy, microAskRecover]
  all_goals first
    | exact absurd rfl hr
    | (rcases ask_cases _ _ _ s with ha | ⟨a, rest, -, -, ha⟩ <;> rw [ha] <;> refine ⟨?_, ?_⟩ <;> intro h <;> simp_all)
    | (refine ⟨?_, ?_⟩ <;> intro h <;> simp_all)

/-- Where a micro-step of I2C_INIT leads. -/
theorem init_ops {b t : Nat} {m : Micro} {rest : List Micro} {s s' : State} {ops : List Micro}
    (hf : (⟨.i2cInit b, m :: rest⟩ : Cmd).fits) :
    (microStep t m s = .go s' ops → (⟨.i2cInit b, ops ++ rest⟩ : Cmd).fits) ∧ microStep t m s ≠ .jump s' ops := by
  simp only [Cmd.fits] at hf ⊢
  by_cases hr : m = .recoverIfBusy b
  · subst hr
    have : rest = (initCode b).drop 8 := by
      simp [initCode, recoverCode, List.suffix_cons_iff] at hf ⊢
      tauto
    subst this
    simp only [microStep, microRecoverIfBusy]
    constructor
    · intro h; simp at h; obtain ⟨-, rfl⟩ := h
      split
      · right; exact List.suffix_refl _
      · left; simp; exact List.drop_suffix 8 _
    · simp
  · have hm : m ∈ initCode b ∨ m ∈ recoverCode b := by
      rcases hf with hf | hf
      · exact .inl (hf.subset (List.mem_cons_self ..))
      · rcases List.mem_append.1 (hf.subset (List.mem_cons_self ..)) with h | h
        · exact .inr h
        · exact .inl (List.mem_of_mem_drop h)
    refine ⟨fun h => ?_, (init_straight hm hr).2⟩
    rw [(init_straight hm hr).1 h]
    exact hf.imp suffix_tail suffix_tail

/-- Where a micro-step of I2C_ACQUIRE and I2C_RELEASE leads: to the next one. -/
theorem acqrel_ops {b t : Nat} {m : Micro} {s s' : State} {ops : List Micro}
    (hm : m ∈ acquireCode b ∨ m ∈ releaseCode b) :
    (microStep t m s = .go s' ops → ops = []) ∧ (microStep t m s ≠ .jump s' ops) := by
  simp [acquireCode, releaseCode] at hm
  casesm* _ ∨ _ <;> subst_vars
  all_goals
    simp only [microStep, microJoinWaiters, microTakeLock, microPmBlock, microPmUnblock, microClock, microWaitNotBusy, microFreeLock]
  all_goals first
    | (refine ⟨?_, ?_⟩ <;> intro h <;> simp_all; done)
    | (split <;> refine ⟨?_, ?_⟩ <;> intro h <;> simp_all)

/-- A command starts where it can be. -/
theorem codeOf_fits {s : State} {t : Nat} {i : Instr} (hc : commandFault s (.task t) i = none) : (⟨i, codeOf i⟩ : Cmd).fits := by
  cases i
  case i2cInit => exact .inl (List.suffix_refl _)
  case i2cAcquire => exact List.suffix_refl _
  case i2cRelease => exact List.suffix_refl _
  case sfrPush r v => exact absurd hc (push_faults s t r v)
  case sfrRead r n buf timeout =>
    intro m hm
    simp only [codeOf, sfrReadCode] at hm
    split at hm
    · simp at hm; subst hm; rfl
    · simp at hm; rcases hm with rfl | rfl <;> simp [Micro.ofRead, Instr.storesTo]
  case sfrReadUntil r p max buf timeout pat =>
    intro m hm
    simp only [codeOf, sfrUntilCode, List.mem_singleton] at hm
    subst hm
    simp only [commandFault] at hc
    repeat' split at hc
    all_goals try cases hc
    simp [Micro.ofRead, Instr.storesTo]; omega
  all_goals
    intro m hm
    simp only [codeOf, readBytesCode, writeBytesCode, readRegsCode, writeRegsCode] at hm
    split at hm
    · simp [unsupportedCode] at hm; subst hm; rfl
    · simp only [openCode, endCode, stopCode, regPhaseCode] at hm
      repeat' split at hm
      all_goals simp at hm
      all_goals (casesm* _ ∨ _) <;> subst_vars <;> simp [Micro.ofTransfer, Instr.storesTo]

/-- Writing a bus that does not exist changes nothing. -/
theorem setBus_oob {s : State} {b : Nat} {u : Bus} (h : ¬ b < s.buses.length) : s.setBus b u = s := by
  simp [State.setBus, List.set_eq_of_length_le (Nat.le_of_not_lt h)]

/-- What a micro-step of a transfer on bus `b` leaves alone. -/
def transferKept (s : State) (b : Nat) (s' : State) : Prop :=
  s.controlKept b s' ∧ (∀ b', b' ≠ b → s'.bus b' = s.bus b') ∧ s'.tasks = s.tasks ∧ s'.buses.length = s.buses.length

theorem transferKept_refl (s : State) (b : Nat) : transferKept s b s := by simp [transferKept, State.controlKept]

theorem transferKept_setBus (s : State) (b : Nat) (u : Bus)
    (h : u.handle = (s.bus b).handle ∧ u.initDone = (s.bus b).initDone ∧ u.lock = (s.bus b).lock ∧
      u.waiters = (s.bus b).waiters ∧ u.clkEn = (s.bus b).clkEn ∧ u.ctl.pe = (s.bus b).ctl.pe ∧
      u.ctl.ccr = (s.bus b).ctl.ccr ∧ u.ctl.fs = (s.bus b).ctl.fs ∧ u.ctl.pins = (s.bus b).ctl.pins) :
    transferKept s b (s.setBus b u) := by
  by_cases hb : b < s.buses.length
  · refine ⟨?_, fun b' h' => setBus_bus_ne _ _ _ _ (Ne.symm h'), rfl, by simp⟩
    simp only [State.controlKept, setBus_bus_self _ _ _ hb]
    simp [h]
  · rw [setBus_oob hb]; exact transferKept_refl s b

theorem transferKept_setMem (s : State) (b : Nat) (m : Memory) : transferKept s b (s.setMem m) := by
  simp [transferKept, State.controlKept]

/-- A micro-step of a transfer keeps the control state, every other bus and every task. -/
theorem transfer_kept {i : Instr} {b t : Nat} {m : Micro} {s s' : State} {ops : List Micro} (hm : m.ofTransfer i b = true)
    (h : microStep t m s = .go s' ops ∨ microStep t m s = .jump s' ops) : transferKept s b s' := by
  cases m <;> simp only [Micro.ofTransfer, Bool.and_eq_true, decide_eq_true_eq, Bool.false_eq_true] at hm <;> simp only [microStep] at h
  all_goals first
    | (simp only [microAskStart, microAskAddr, microAskSend, microAskRecv, microAskStop] at h
       rcases ask_cases _ _ _ s with ha | ⟨a, rest, -, -, ha⟩
       · rw [ha] at h; simp at h
       · rw [ha] at h; simp at h; obtain ⟨rfl, rfl⟩ := h; simp only [hm]; apply transferKept_setBus; simp)
    | skip
  all_goals
    try simp only [microWaitNotBusy, microGenStart, microGotStart, microGotAddr, microGotSend, microGotRecv, microBusFail,
      microAbort, microRecvLoop, microSendLoop, microLoadSend, microMemStore, microSetAckEn, microNoteStop, microCloseBus,
      microSetPhase] at h
    revert h
    repeat' split
    all_goals (intro h; simp at h)
    all_goals (obtain ⟨rfl, rfl⟩ := h)
    all_goals first
      | exact transferKept_refl _ _
      | exact transferKept_setMem _ _ _
      | (simp only [hm]
         unfold State.started
         split
         all_goals
           simp only [clearFlags_eq, emit_eq, modCtl_eq, setBus_setBus]
           by_cases hb : b < s.buses.length
           · apply transferKept_setBus; simp [setBus_bus_self _ _ _ hb]
           · simp only [setBus_oob hb]; exact transferKept_refl _ _)
      | (simp only [hm, State.lose, clearFlags_eq, emit_eq, modBus_eq, setBus_setBus]
         by_cases hb : b < s.buses.length
         · apply transferKept_setBus; simp [setBus_bus_self _ _ _ hb]
         · simp only [setBus_oob hb]; exact transferKept_refl _ _)

end Sys2Proof.Machine
end

