-- ==== Sys2Proof/Tests/Slice0.lean ====
section
/-! SUPPORT. Tests with expected results from spec/95_test_vectors.md and 30_encoding.md R81, a smoke test of WellFormed, and for each
statement with premises a concrete state that meets them all. -/

namespace Sys2Proof.Tests

open Sys2Proof Sys2Proof.Machine

/-! ### WellFormed refuses an ill-formed term, one for each check -/

theorem test_idx_too_wide : (Instr.i2cInit 16).wellFormed = false := by decide
theorem test_acquire_idx_too_wide : (Instr.i2cAcquire 16).wellFormed = false := by decide
theorem test_release_idx_too_wide : (Instr.i2cRelease 16).wellFormed = false := by decide
theorem test_read_idx_too_wide : (Instr.i2cRead 16 0x48 {} 1 0).wellFormed = false := by decide
theorem test_read_len_too_wide : (Instr.i2cRead 0 0x48 {} 4294967296 0).wellFormed = false := by decide
theorem test_read_buf_too_wide : (Instr.i2cRead 0 0x48 {} 1 4294967296).wellFormed = false := by decide
theorem test_write_idx_too_wide : (Instr.i2cWrite 16 0x48 {} 1 0).wellFormed = false := by decide
theorem test_write_len_too_wide : (Instr.i2cWrite 0 0x48 {} 4294967296 0).wellFormed = false := by decide
theorem test_write_buf_too_wide : (Instr.i2cWrite 0 0x48 {} 1 4294967296).wellFormed = false := by decide
theorem test_read_regs_idx_too_wide : (Instr.i2cReadRegs 16 0x48 0 {} 1 0).wellFormed = false := by decide
theorem test_read_regs_len_too_wide : (Instr.i2cReadRegs 0 0x48 0 {} 4294967296 0).wellFormed = false := by decide
theorem test_read_regs_buf_too_wide : (Instr.i2cReadRegs 0 0x48 0 {} 1 4294967296).wellFormed = false := by decide
theorem test_write_regs_idx_too_wide : (Instr.i2cWriteRegs 16 0x48 0 {} 1 0).wellFormed = false := by decide
theorem test_write_regs_len_too_wide : (Instr.i2cWriteRegs 0 0x48 0 {} 4294967296 0).wellFormed = false := by decide
theorem test_write_regs_buf_too_wide : (Instr.i2cWriteRegs 0 0x48 0 {} 1 4294967296).wellFormed = false := by decide
theorem test_push_idx_too_wide : (Instr.sfrPush 16 0).wellFormed = false := by decide
theorem test_sfr_read_idx_too_wide : (Instr.sfrRead 16 1 0 0).wellFormed = false := by decide
theorem test_sfr_read_n_too_wide : (Instr.sfrRead 0 4294967296 0 0).wellFormed = false := by decide
theorem test_sfr_read_buf_too_wide : (Instr.sfrRead 0 1 4294967296 0).wellFormed = false := by decide
theorem test_sfr_read_timeout_too_wide : (Instr.sfrRead 0 1 0 4294967296).wellFormed = false := by decide
theorem test_until_idx_too_wide : (Instr.sfrReadUntil 16 1 1 0 0 0).wellFormed = false := by decide
theorem test_until_patlen_too_wide : (Instr.sfrReadUntil 0 256 1 0 0 0).wellFormed = false := by decide
theorem test_until_max_too_wide : (Instr.sfrReadUntil 0 1 4294967296 0 0 0).wellFormed = false := by decide
theorem test_until_buf_too_wide : (Instr.sfrReadUntil 0 1 1 4294967296 0 0).wellFormed = false := by decide
theorem test_until_timeout_too_wide : (Instr.sfrReadUntil 0 1 1 0 4294967296 0).wellFormed = false := by decide
theorem test_until_pat_too_wide : (Instr.sfrReadUntil 0 1 1 0 0 4294967296).wellFormed = false := by decide
theorem test_widest_until : (Instr.sfrReadUntil 15 255 4294967295 4294967295 4294967295 4294967295).wellFormed = true := by decide

/-! ### Decoding: words written from the layouts of 30_encoding.md R64 to R69, R81, and the table of 95_test_vectors.md section 3 -/

theorem test_decode_init : decode { w0 := 0x00000011 } = .ok (.i2cInit 1) := by decide
theorem test_decode_acquire : decode { w0 := 0x00000012 } = .ok (.i2cAcquire 1) := by decide
theorem test_decode_release : decode { w0 := 0x00000003 } = .ok (.i2cRelease 0) := by decide
theorem test_decode_read : decode { w0 := 0x00004804, w1 := 2, w2 := 0x2000 } = .ok (.i2cRead 0 0x48 {} 2 0x2000) := by decide
theorem test_decode_write : decode { w0 := 0x000C4805, w1 := 2, w2 := 0x2000 } =
    .ok (.i2cWrite 0 0x48 { nostop := true, nostart := true } 2 0x2000) := by decide
theorem test_decode_write_addr10 : decode { w0 := 0x00014805, w1 := 1 } = .ok (.i2cWrite 0 0x48 { addr10 := true } 1 0) := by decide
theorem test_decode_read_regs : decode { w0 := 0x00FF7F06, w1 := 1 } =
    .ok (.i2cReadRegs 0 0x7F 0x0F { addr10 := true, reg16 := true, nostop := true, nostart := true } 1 0) := by decide
theorem test_decode_write_regs : decode { w0 := 0x00104807, w1 := 2, w2 := 0x2010 } = .ok (.i2cWriteRegs 0 0x48 0x01 {} 2 0x2010) := by
  decide
theorem test_decode_push : decode { w0 := 0x00004308 } = .ok (.sfrPush 0 0x43) := by decide
theorem test_decode_sfr_read : decode { w0 := 0x00000009, w1 := 4, w2 := 0x3000, w3 := 500000 } = .ok (.sfrRead 0 4 0x3000 500000) := by
  decide
theorem test_decode_read_until : decode { w0 := 0x0000040A, w1 := 16, w2 := 0x4000, w3 := 500000, w4 := 0x4100 } =
    .ok (.sfrReadUntil 0 4 16 0x4000 500000 0x4100) := by decide

theorem test_reserved_op0 : decode { w0 := 0x00000000 } = .error .reservedOp := by decide
theorem test_reserved_opB : decode { w0 := 0x0000000B } = .error .reservedOp := by decide
theorem test_reserved_opF : decode { w0 := 0x0000000F } = .error .reservedOp := by decide
theorem test_reserved_init_fields : decode { w0 := 0x00000101 } = .error .controlFields := by decide
theorem test_reserved_bit28 : decode { w0 := 0x10000002 } = .error .controlFields := by decide
theorem test_reserved_bit15 : decode { w0 := 0x00008004 } = .error .transferBits := by decide
theorem test_reserved_bit31 : decode { w0 := 0x80004807 } = .error .transferBits := by decide
theorem test_reserved_reg : decode { w0 := 0x00104804 } = .error .regOnBytes := by decide
theorem test_reserved_push_bit16 : decode { w0 := 0x00010008 } = .error .serialBits := by decide
theorem test_reserved_read_byte : decode { w0 := 0x00000109 } = .error .readFields := by decide

/-- A row of the opcode table, its three words counted on from bit 0 of the first. -/
theorem test_table_word : decodeTableWord 96 0x00002000_00000002_00004804 = some (.i2cRead 0 0x48 {} 2 0x2000) := by decide

/-! ### The assembler: programs 1 to 3 of 95_test_vectors.md section 7 -/

theorem test_asm_read_regs : (assemble "i2c.read_regs 0, 0x48, 0x01, 0x2020, 2").map encode =
    some { w0 := 0x00104806, w1 := 0x2, w2 := 0x2020 } := by decide
theorem test_asm_write_nostart : (assemble "i2c.write 0, 0x50, 0x3001, 2, nostart").map encode =
    some { w0 := 0x00085005, w1 := 0x2, w2 := 0x3001 } := by decide
theorem test_asm_read_until : (assemble "sfr.read_until 0, 0x4000, 16, 500000, 0x4100, 4").map encode =
    some { w0 := 0x0000040A, w1 := 0x10, w2 := 0x4000, w3 := 0x7A120, w4 := 0x4100 } := by decide

/-! ### Small states -/

/-- After reset, task 0's turn, of `n` micro-steps. -/
def fresh (n : Nat) : State := { State.reset with turns := [.task 0 n] }

/-- After reset, a turn of the receive interrupt, reader 0 holding `q`. -/
def irq (q : List Byte) (w : Word) : State := { State.reset with turns := [.uart 0 { w0 := w }], readers := [{ cap := 4, q := q }] }

/-- Bus 0 initialised, its lock free, task 0's turn. -/
def inited (n : Nat) : State := { State.reset with turns := [.task 0 n], buses := [{ initDone := true, ctl := { pe := true, pins := .i2c } }] }

/-- Bus 0 initialised and owned by task 0, whose turn it is; the environment answers `ans`. -/
def owned (n : Nat) (ans : List Answer) (mem : Memory := []) : State :=
  { State.reset with
    turns := [.task 0 n]
    mem := mem
    pmDeepBlocks := 1
    buses := [{ initDone := true, lock := .owned 0, clkEn := true, ctl := { pe := true, pins := .i2c }, answers := ans }] }

/-- The same with BUS_ERROR_POLICY = Report. -/
def reporting (n : Nat) (ans : List Answer) (mem : Memory := []) : State :=
  { owned n ans mem with cfg := { Config.initial with busErrorPolicy := .report } }

/-- The same with a retry limit. -/
def limited (n k : Nat) (ans : List Answer) : State :=
  { owned n ans with cfg := { Config.initial with retryLimit := some k } }

/-- Reader 0, of capacity 8, holding `q`; task 0's turn. -/
def queued (n : Nat) (q : List Byte) (mem : Memory := []) : State :=
  { State.reset with turns := [.task 0 n], mem := mem, readers := [{ cap := 8, q := q }] }

/-- A state in which task 0 is inside a command. -/
def inside (s : State) (c : Cmd) : State := s.park 0 c

/-- The next command of task 0 is `d`. -/
def programmed (s : State) (d : Desc) : State := s.modTask 0 fun k => { k with prog := [d] }

/-- Bus 0 with a write to 0x48 held open. -/
def held (n : Nat) (ans : List Answer) (mem : Memory := []) : State :=
  (owned n ans mem).modBus 0 fun u => { u with phase := .heldW 0x48, ctl := { u.ctl with busy := true, master := true } }

/-- An outcome is a next state. -/
def isNext : Host.Outcome State Fault Refusal → Bool
  | .next _ => true
  | .fault _ => false
  | .refused _ => false

/-- The state an outcome leaves. -/
def nextOf (s : State) : Host.Outcome State Fault Refusal → State
  | .next s' => s'
  | .fault _ => s
  | .refused _ => s

/-- The results of task 0, the trace of bus 0 and the fault record an outcome leaves. -/
def seen : Host.Outcome State Fault Refusal → Option (List Result × List WireEvent × Option FaultRec)
  | .next s => some ((s.task 0).results, (s.bus 0).trace, s.fault)
  | .fault _ => none
  | .refused _ => none

/-- The bytes from `a` on, and the queue of reader 0. -/
def stored (a n : Nat) : Host.Outcome State Fault Refusal → Option (List Byte × List Byte)
  | .next s => some (s.mem.readBytes a n, (s.reader 0).q)
  | .fault _ => none
  | .refused _ => none

/-- Lock, clock gate and power-block count of an outcome, for bus 0. -/
def gate : Host.Outcome State Fault Refusal → Option (Lock × Bool × Nat)
  | .next s => some ((s.bus 0).lock, (s.bus 0).clkEn, s.pmDeepBlocks)
  | .fault _ => none
  | .refused _ => none

/-! ### One step of each instruction (95_test_vectors.md sections 1 and 4 to 6) -/

theorem test_init : seen (step (State.reset.withFetchWord 32 0x00000001)) = some ([.ok 0], [], none) := by decide
theorem test_double_init : seen (exec (.i2cInit 0) (inited 21)) =
    some ([], [], some ⟨.doubleInit, .task 0, 0x00000001⟩) := by decide

theorem test_acquire : gate (exec (.i2cAcquire 0) (inited 5)) = some (.owned 0, true, 1) := by decide
theorem test_acquire_before_init : seen (step (State.reset.withFetchWord 32 0x00000002)) =
    some ([], [], some ⟨.notInitialised, .task 0, 0x00000002⟩) := by decide

theorem test_release : gate (exec (.i2cRelease 0) (owned 5 [])) = some (.free, false, 0) := by decide
theorem test_release_without_acquire : seen (exec (.i2cRelease 0) (inited 5)) =
    some ([], [], some ⟨.lockNotOwned, .task 0, 0x00000003⟩) := by decide

/-- L1.3: the last of three bytes is not acknowledged. -/
theorem test_read : seen (exec (.i2cRead 0 0x48 {} 3 0x2000) (owned 100 [.ok, .ack, .byte 0x11, .byte 0x22, .byte 0x33, .ok])) =
    some ([.ok 3], [.start, .addr 0x91 .ack, .rx 0x11 .ack, .rx 0x22 .ack, .rx 0x33 .nack, .stop], none) := by decide
/-- The buffer ends past 2^32. -/
theorem test_read_wraps : seen (exec (.i2cRead 0 0x48 {} 2 0xFFFFFFFF) (owned 100 [])) =
    some ([], [], some ⟨.invalidOperand, .task 0, 0x00004804⟩) := by decide

/-- L1.6: three refused addresses. -/
theorem test_write_retries : seen (exec (.i2cWrite 0 0x48 {} 1 0x2000)
      (owned 100 [.ok, .nack, .ok, .nack, .ok, .nack, .ok, .ack, .ack, .ok])) =
    some ([.ok 1], [.start, .addr 0x90 .nack, .restart, .addr 0x90 .nack, .restart, .addr 0x90 .nack, .restart, .addr 0x90 .ack,
      .tx 0x00 .ack, .stop], none) := by decide
/-- Arbitration lost at a data byte of a transfer that continues a held one, Hang: R46 holds on. -/
theorem test_lost_in_held : (nextOf State.reset (exec (.i2cWrite 0 0x48 { nostart := true } 1 0x2000) (held 9 [.arbLost]))).buses.map
    (fun u => (u.phase, u.ctl.master, u.ctl.busy, u.trace)) = [(.idle, false, true, [.lost])] := by decide
/-- NackData(2), Report. -/
theorem test_write_data_nack : seen (exec (.i2cWrite 0 0x48 {} 3 0x2000) (reporting 100 [.ok, .ack, .ack, .nack, .ok])) =
    some ([.err .dataNack], [.start, .addr 0x90 .ack, .tx 0x00 .ack, .tx 0x00 .nack, .stop], none) := by decide

/-- L1.5. -/
theorem test_read_regs : seen (exec (.i2cReadRegs 0 0x48 0x00 {} 2 0x2000)
      (owned 100 [.ok, .ack, .ack, .ok, .ack, .byte 0x19, .byte 0x80, .ok])) =
    some ([.ok 2], [.start, .addr 0x90 .ack, .tx 0x00 .ack, .restart, .addr 0x91 .ack, .rx 0x19 .ack, .rx 0x80 .nack, .stop], none) := by
  decide
theorem test_read_regs_nostop : seen (exec (.i2cReadRegs 0 0x48 0x00 { nostop := true } 1 0x2000) (owned 100 [])) =
    some ([.err .unsupported], [], none) := by decide

theorem test_write_regs : seen (exec (.i2cWriteRegs 0 0x48 0x01 {} 2 0x2000)
      (owned 100 [.ok, .ack, .ack, .ack, .ack, .ok] [(0x2000, 0x60), (0x2001, 0xA0)])) =
    some ([.ok 2], [.start, .addr 0x90 .ack, .tx 0x01 .ack, .tx 0x60 .ack, .tx 0xA0 .ack, .stop], none) := by decide
/-- Check order: LockNotOwned comes before Err(Unsupported). -/
theorem test_write_regs_not_owned : seen (exec (.i2cWriteRegs 0 0x48 0x01 { addr10 := true } 1 0x2000) (inited 100)) =
    some ([], [], some ⟨.lockNotOwned, .task 0, 0x00114807⟩) := by decide

theorem test_push : stored 0 0 (step (irq [0x43, 0x4D] 0x00004308)) = some ([], [0x43, 0x4D, 0x43]) := by decide
/-- A full queue drops the byte. -/
theorem test_push_full : stored 0 0 (step (irq [0x61, 0x62, 0x63, 0x64] 0x00004508)) = some ([], [0x61, 0x62, 0x63, 0x64]) := by decide

theorem test_sfr_read : stored 0x5000 4 (exec (.sfrRead 0 4 0x5000 100) (queued 100 [0x61, 0x62, 0x63, 0x64])) =
    some ([0x61, 0x62, 0x63, 0x64], []) := by decide
/-- TIMEOUT = 0 with two of four bytes: they are taken. -/
theorem test_sfr_read_timeout : stored 0x5000 2 (exec (.sfrRead 0 4 0x5000 0) (queued 100 [0x61, 0x62])) = some ([0x61, 0x62], []) := by
  decide

/-- The match is a suffix test. -/
theorem test_read_until : stored 0x5000 5 (exec (.sfrReadUntil 0 4 16 0x5000 500000 0x5100)
      (queued 100 [0x78, 0x43, 0x4D, 0x44, 0x3E, 0x41, 0x42] [(0x5100, 0x43), (0x5101, 0x4D), (0x5102, 0x44), (0x5103, 0x3E)])) =
    some ([0x78, 0x43, 0x4D, 0x44, 0x3E], [0x41, 0x42]) := by decide
/-- PATLEN > MAX cannot match. -/
theorem test_read_until_no_match : seen (exec (.sfrReadUntil 0 4 2 0x5000 100 0x5100)
      (queued 100 [0x43, 0x4D, 0x44, 0x3E] [(0x5100, 0x43), (0x5101, 0x4D), (0x5102, 0x44), (0x5103, 0x3E)])) =
    some ([.err .noMatch], [], none) := by decide

/-! ### Witnesses: for each statement with premises a state and operands that meet them together, one for each clause -/

theorem witness_DecodeOfEncode : (Instr.sfrReadUntil 15 255 4294967295 0 4294967295 4294967295).wellFormed = true := by decide

theorem witness_EncodeOfDecode :
    decode { w0 := 0x00104807, w1 := 2, w2 := 0xFFFFFFFF } = .ok (.i2cWriteRegs 0 0x48 1 {} 2 0xFFFFFFFF) ∧
      3 ≤ descLength (field 0x00104807 3 0) := by decide
theorem witness_EncodeOfDecode_four :
    decode { w0 := 0x00000009, w3 := 7 } = .ok (.sfrRead 0 0 0 7) ∧ 4 ≤ descLength (field 0x00000009 3 0) := by decide
theorem witness_EncodeOfDecode_five :
    decode { w0 := 0x0000040A, w4 := 7 } = .ok (.sfrReadUntil 0 4 0 0 0 7) ∧ 5 ≤ descLength (field 0x0000040A 3 0) := by decide

theorem witness_ReservedDescriptorsFault_task :
    let s := programmed (fresh 1) { w0 := 0x10000002 }
    s.taskMoves 0 1 ∧ (s.task 0).cmd = none ∧ s.fetch 0 = some { w0 := 0x10000002 } ∧ reservedWord 0x10000002 := by
  unfold reservedWord; decide
theorem witness_ReservedDescriptorsFault_irq :
    let s := irq [] 0x00010008
    s.turn = .uart 0 { w0 := 0x00010008 } ∧ s.fault = none ∧ 0 < s.readers.length ∧ reservedWord 0x00010008 := by
  unfold reservedWord; decide

theorem witness_ResultCodeSign : Config.initial.errCodes.legal = true ∧ (0 : Nat) < 2 ^ 31 := by decide

theorem witness_StepRunsTaskCommand :
    let s := programmed (fresh 9) { w0 := 0x00000001 }
    s.taskMoves 0 9 ∧ (s.task 0).cmd = none ∧ s.fetch 0 = some { w0 := 0x00000001 } ∧
      decode { w0 := 0x00000001 } = .ok (.i2cInit 0) := by decide
theorem witness_StepRunsInterruptCommand :
    let s := irq [] 0x00004308
    s.turn = .uart 0 { w0 := 0x00004308 } ∧ s.fault = none ∧ 0 < s.readers.length ∧
      decode { w0 := 0x00004308 } = .ok (.sfrPush 0 0x43) := by decide

theorem witness_StepResumesTask :
    let s := inside (inited 5) ⟨.i2cAcquire 0, acquireCode 0⟩
    s.taskMoves 0 5 ∧ (s.task 0).cmd = some ⟨.i2cAcquire 0, acquireCode 0⟩ := by decide
theorem witness_StepResumesTask_finished :
    (fresh 5).turn = .task 0 5 ∧ (fresh 5).fault = none ∧ ((fresh 5).task 0).cmd = none ∧
      ((fresh 5).task 0).prog.length ≤ ((fresh 5).task 0).pc := by decide
theorem witness_StepResumesTask_absent :
    let s := { State.reset with turns := [.task 2 5] }
    s.turn = .task 2 5 ∧ s.fault = none ∧ s.tasks.length ≤ 2 := by decide

theorem witness_FaultedBlockNeverSteps :
    { State.reset with fault := some ⟨.doubleInit, .task 0, 1⟩ }.fault.isSome = true := by decide
theorem witness_UnfaultedStepAnswersNext : State.reset.fault = none := by decide
theorem witness_TurnsOfOneTaskAddUp : 1 < State.reset.tasks.length := by decide

theorem witness_FirstFaultIsRaised_task :
    let s := programmed (fresh 1) { w0 := 0x00004815 }
    s.taskMoves 0 1 ∧ (s.task 0).cmd = none ∧ s.fetch 0 = some { w0 := 0x00004815 } ∧
      descFault s (.task 0) { w0 := 0x00004815 } = some .invalidIndex := by decide
theorem witness_FirstFaultIsRaised_irq :
    let s := irq [] 0x00000009
    s.turn = .uart 0 { w0 := 0x00000009 } ∧ s.fault = none ∧ 0 < s.readers.length ∧
      descFault s (.uartRx 0) { w0 := 0x00000009 } = some .wrongContext := by decide

theorem witness_WrongContextFaults_task :
    let i := Instr.sfrPush 0 0x41
    let s := fresh 1
    s.fault = none ∧ s.issuer = some (.task 0, 1) ∧ (∀ b, i.busOf = some b → b < s.buses.length) ∧
      (∀ r, i.readerOf = some r → r < s.readers.length) ∧ ((∃ r v, i = .sfrPush r v) ↔ (Agent.task 0).inTask = true) := by
  refine ⟨by decide, by decide, fun b hb => (nomatch hb), fun r hr => ?_, iff_of_true ⟨0, 0x41, rfl⟩ rfl⟩
  cases hr
  decide
theorem witness_WrongContextFaults_irq :
    let i := Instr.i2cInit 0
    let s := irq [] 0x00000001
    s.fault = none ∧ s.issuer = some (.uartRx 0, 0) ∧ (∀ b, i.busOf = some b → b < s.buses.length) ∧
      (∀ r, i.readerOf = some r → r < s.readers.length) ∧ ((∃ r v, i = .sfrPush r v) ↔ (Agent.uartRx 0).inTask = true) := by
  refine ⟨by decide, by decide, fun b hb => ?_, fun r hr => (nomatch hr), iff_of_false ?_ (by decide)⟩
  · cases hb
    decide
  · rintro ⟨r, v, h⟩
    cases h

theorem witness_WrongContextFaults_own :
    let i := Instr.sfrPush 0 0x41
    let s := irq [] 0x00004108
    s.fault = none ∧ s.issuer = some (.uartRx 0, 0) ∧ ((∃ r v, i = .sfrPush r v) ↔ (Agent.uartRx 0).inTask = false) ∧
      ∃ s', exec i s = .next s' :=
  ⟨by decide, by decide, iff_of_true ⟨0, 0x41, rfl⟩ rfl, _, rfl⟩

theorem witness_NoFaultWhereNoneApplies :
    (fresh 3).fault = none ∧ (fresh 3).issuer = some (.task 0, 3) ∧ commandFault (fresh 3) (.task 0) (.i2cInit 0) = none := by decide

theorem witness_InitCompletes :
    (fresh 21).taskMoves 0 21 ∧ 0 < (fresh 21).buses.length ∧ ((fresh 21).bus 0).initDone = false ∧
      ((fresh 21).bus 0).ctl.busy = false := by decide
theorem witness_InitCompletes_busy :
    let s := { fresh 21 with buses := [{ ctl := { busy := true }, answers := [.ok] }] }
    s.taskMoves 0 21 ∧ 0 < s.buses.length ∧ (s.bus 0).initDone = false ∧ (s.bus 0).ctl.busy = true ∧
      (s.bus 0).answers = .ok :: [] := by decide

/-- A busy bus, nobody answers: PE off and GPIO pins in the recovery. -/
theorem witness_InitCompletes_waiting :
    let s := { fresh 21 with buses := [{ ctl := { busy := true } }] }
    s.taskMoves 0 21 ∧ 0 < s.buses.length ∧ (s.bus 0).initDone = false ∧ (s.bus 0).ctl.busy = true ∧ (s.bus 0).answers = [] ∧
      (nextOf s (exec (.i2cInit 0) s)).buses.map (fun u => (u.ctl.pe, u.ctl.pins, u.clkEn, u.initDone)) =
        [(false, .gpio, true, false)] := by decide

theorem witness_AcquireTakesFreeLock :
    (inited 5).taskMoves 0 5 ∧ (inited 5).busReady 0 ∧ ((inited 5).bus 0).lock = .free := by decide
theorem witness_AcquireWaitsForHeldLock :
    (owned 2 []).taskMoves 0 2 ∧ (owned 2 []).busReady 0 ∧ ((owned 2 []).bus 0).lock ≠ .free := by decide
theorem witness_AcquireWaitsForHeldLock_inside :
    let s := inside (owned 2 []) ⟨.i2cAcquire 0, (acquireCode 0).tail⟩
    s.taskMoves 0 2 ∧ (s.task 0).cmd = some ⟨.i2cAcquire 0, (acquireCode 0).tail⟩ ∧ (s.bus 0).lock ≠ .free := by decide
theorem witness_ReleaseFreesLock :
    (owned 5 []).taskMoves 0 5 ∧ (owned 5 []).busReady 0 ∧ ((owned 5 []).bus 0).lock = .owned 0 ∧
      ((owned 5 []).bus 0).ctl.busy = false := by decide

theorem witness_ReleaseOfHeldBusHangs :
    (held 5 []).taskMoves 0 5 ∧ (held 5 []).busReady 0 ∧ ((held 5 []).bus 0).lock = .owned 0 ∧
      ((held 5 []).bus 0).ctl.busy = true := by decide
theorem witness_ReleaseOfHeldBusHangs_inside :
    let s := inside (held 5 []) ⟨.i2cRelease 0, releaseCode 0⟩
    s.taskMoves 0 5 ∧ (s.task 0).cmd = some ⟨.i2cRelease 0, releaseCode 0⟩ ∧ (s.bus 0).ctl.busy = true := by decide
theorem witness_ReleaseOfHeldBusHangs_env :
    let s := { held 5 [] with turns := [.busBusy 0 false] }
    s.turn = .busBusy 0 false ∧ s.fault = none ∧ (s.bus 0).ctl.master = true := by decide

theorem witness_AcquireThenReleaseRestores :
    (inited 5).taskMoves 0 5 ∧ (inited 5).busReady 0 ∧ ((inited 5).bus 0).lock = .free ∧ ((inited 5).bus 0).clkEn = false ∧
      ((inited 5).bus 0).ctl.busy = false := by decide

/-- A waiting release of a held bus, its lock task 0's: in the turn of task 1, and of BusEnv. -/
theorem witness_ReleaseOfHeldBusHangs_step :
    let s := { inside (held 5 []) ⟨.i2cRelease 0, releaseCode 0⟩ with turns := [.task 1 5, .busBusy 0 false] }
    s.exclusive 0 0 ∧ (s.task 0).cmd = some ⟨.i2cRelease 0, releaseCode 0⟩ ∧ (s.bus 0).ctl.master = true ∧
      (s.bus 0).ctl.busy = true ∧ ∃ s', step s = .next s' := by
  refine ⟨⟨by decide, by decide, ?_⟩, by decide, by decide, by decide, _, rfl⟩
  intro t' ht c hc
  match t' with
  | 0 => exact absurd rfl ht
  | 1 => exact nomatch (show (none : Option Cmd) = some c from hc)
  | _ + 2 => exact nomatch (show (none : Option Cmd) = some c from hc)

/-- Where only task 0 can be inside a command, it is the one found. -/
theorem only_task0 {s : State} {t : Nat} {c c' : Cmd} (hs : s.tasks = [{ cmd := some c }, {}]) (h : (s.task t).cmd = some c') :
    t = 0 ∧ c' = c := by
  match t with
  | 0 => simp [State.task, hs] at h; exact ⟨rfl, h.symm⟩
  | 1 => simp [State.task, hs] at h
  | _ + 2 => simp [State.task, hs] at h; cases h

/-- Task 0 has taken the lock of bus 0 in I2C_ACQUIRE, the deepest sleep not yet blocked and the clock not yet on; its turn. -/
def acquiring : State :=
  inside { State.reset with
    turns := [.task 0 1]
    buses := [{ initDone := true, lock := .owned 0, ctl := { pe := true, pins := .i2c } }] }
    ⟨.i2cAcquire 0, [.pmBlock, .clock 0 true, .ret (.ok 0)]⟩

/-- In the middle of I2C_ACQUIRE, where R45 itself does not hold. -/
theorem witness_PowerInvariantKept_step :
    acquiring.placed ∧ acquiring.powerTrue ∧ acquiring.initNotDoubled ∧ ¬ acquiring.powerOk ∧ ∃ s', step acquiring = .next s' := by
  have hs : acquiring.tasks = [{ cmd := some ⟨.i2cAcquire 0, [.pmBlock, .clock 0 true, .ret (.ok 0)]⟩ }, {}] := rfl
  refine ⟨⟨?_, ?_, ?_, ?_⟩, ⟨?_, ?_⟩, ?_, ?_, _, rfl⟩
  · intro t c hc
    obtain ⟨-, rfl⟩ := only_task0 hs hc
    exact ⟨[.joinWaiters 0, .takeLock 0], rfl⟩
  · intro t c hc
    obtain ⟨rfl, rfl⟩ := only_task0 hs hc
    exact ⟨by decide, fun _ => by decide⟩
  · intro t t' b c c' h h' _ _
    rw [(only_task0 hs h).1, (only_task0 hs h').1]
  · intro b hb hi
    obtain rfl : b = 0 := Nat.lt_one_iff.1 hb
    exact absurd hi (by decide)
  · intro b hb _
    obtain rfl : b = 0 := Nat.lt_one_iff.1 hb
    decide
  · decide
  · intro t n d b t' c ht hn _ _ _
    cases ht
    exact absurd hn (by decide)
  · unfold State.powerOk; decide

theorem witness_PowerInvariantKept_between : (owned 5 []).powerTrue ∧ (owned 5 []).betweenPairs := by
  refine ⟨⟨?_, by decide⟩, ?_⟩
  · intro b hb _
    obtain rfl : b = 0 := Nat.lt_one_iff.1 hb
    decide
  · intro t c b hc
    match t with
    | 0 => exact nomatch (show (none : Option Cmd) = some c from hc)
    | 1 => exact nomatch (show (none : Option Cmd) = some c from hc)
    | _ + 2 => exact nomatch (show (none : Option Cmd) = some c from hc)

/-- Task 0 has addressed the target of a read with a write held open before it, and lost arbitration is what it is answered. -/
theorem witness_StepKeepsHeldTransactions :
    let i := Instr.i2cReadRegs 0 0x48 0 {} 1 0x2000
    let s := inside (held 1 [.arbLost])
      ⟨i, [.askStart 0 0x48 .read 0 false, .recvLoop 0 0x2000 1 0 false] ++ stopCode 0 ++ [.ret (.ok 1)]⟩
    s.placed ∧ s.heldTrue ∧ s.initNotDoubled ∧ (s.bus 0).phase ≠ .idle ∧ ∃ s', step s = .next s' := by
  intro i s
  have hs : s.tasks =
    [{ cmd := some ⟨i, [.askStart 0 0x48 .read 0 false, .recvLoop 0 0x2000 1 0 false] ++ stopCode 0 ++ [.ret (.ok 1)]⟩ }, {}] := rfl
  refine ⟨⟨?_, ?_, ?_, ?_⟩, ⟨?_, ?_⟩, ?_, by decide, _, rfl⟩
  · intro t c hc
    obtain ⟨-, rfl⟩ := only_task0 hs hc
    exact show ∀ m ∈ _, _ from by decide
  · intro t c hc
    obtain ⟨rfl, rfl⟩ := only_task0 hs hc
    exact show _ ∧ _ from by decide
  · intro t t' b c c' h h' _ _
    rw [(only_task0 hs h).1, (only_task0 hs h').1]
  · intro b hb hi
    obtain rfl : b = 0 := Nat.lt_one_iff.1 hb
    exact absurd hi (by decide)
  · intro b hb
    obtain rfl : b = 0 := Nat.lt_one_iff.1 hb
    exact ⟨fun _ => by decide, fun _ => by decide, fun h => absurd h (by decide)⟩
  · intro t c hc
    obtain ⟨rfl, rfl⟩ := only_task0 hs hc
    exact show gripped _ _ = true from by decide
  · intro t n d b t' c ht hn _ _ _
    cases ht
    exact absurd hn (by decide)

theorem witness_PowerInvariantKept :
    (inited 5).taskMoves 0 5 ∧ (inited 5).quiet ∧ (inited 5).powerOk ∧ isNext (exec (.i2cAcquire 0) (inited 5)) = true ∧
      (nextOf (inited 5) (exec (.i2cAcquire 0) (inited 5))).quiet := by
  unfold State.quiet State.powerOk; decide

theorem witness_OtherAgentsLeaveOwnedBus :
    let s := { owned 5 [] with turns := [.task 1 5] }
    s.busReady 0 ∧ (s.bus 0).lock = .owned 0 ∧ s.tasks.all (fun k => decide (k.cmd = none)) = true ∧ s.turn = .task 1 5 ∧
      isNext (step s) = true := by decide
/-- A task that waits for the lock does not touch the bus. -/
theorem witness_OtherAgentsLeaveOwnedBus_waiter :
    let s := { owned 5 [] with turns := [.task 1 5] }.park 1 ⟨.i2cAcquire 0, (acquireCode 0).tail⟩
    s.exclusive 0 0 ∧ s.turn = .task 1 5 ∧ isNext (step s) = true := by
  refine ⟨⟨by decide, by decide, ?_⟩, by decide, by decide⟩
  intro t' ht c hc
  match t' with
  | 0 => exact absurd rfl ht
  | 1 => exact .inr (.inr (by injection hc with hc; subst hc; rfl))
  | _ + 2 => exact nomatch (show (none : Option Cmd) = some c from hc)

theorem witness_ReadBytesCompletes :
    let s := owned 23 [.ok, .ack, .byte 0x19, .byte 0x80, .ok]
    s.taskMoves 0 23 ∧ 5 * [(0x19 : Byte), 0x80].length + 13 ≤ 23 ∧ s.busReady 0 ∧ (s.bus 0).lock = .owned 0 ∧
      lenLegal [(0x19 : Byte), 0x80].length 0xFFFFFFFE ∧ openingInTable false (s.bus 0).phase .read 0x48 = true ∧
      startFree (s.bus 0) false ∧ s.bufWritable 0xFFFFFFFE [(0x19 : Byte), 0x80].length ∧
      (s.bus 0).answers = openAnswers false 0 ++ [(0x19 : Byte), 0x80].map Answer.byte ++ closeAnswers false ++ [] := by decide
/-- A continuation of an open write, left open again. -/
theorem witness_WriteBytesCompletes :
    let s := held 17 [.ack]
    s.taskMoves 0 17 ∧ s.busReady 0 ∧ (s.bus 0).lock = .owned 0 ∧ lenLegal 1 0 ∧
      openingInTable true (s.bus 0).phase .write 0x48 = true ∧ startFree (s.bus 0) true ∧ s.bufReadable 0 1 ∧
      (s.bus 0).answers = openAnswers true 0 ++ List.replicate 1 Answer.ack ++ closeAnswers true ++ [] := by decide
theorem witness_ReadRegsCompletes :
    let s := owned 26 [.ok, .ack, .ack, .ok, .ack, .byte 0x19, .ok]
    s.taskMoves 0 26 ∧ s.busReady 0 ∧ (s.bus 0).lock = .owned 0 ∧ lenLegal 1 0x2000 ∧
      openingInTable false (s.bus 0).phase .write 0x48 = true ∧ startFree (s.bus 0) false ∧ s.bufWritable 0x2000 1 ∧
      (s.bus 0).answers = [.ok, .ack, .ack, .ok, .ack] ++ [(0x19 : Byte)].map Answer.byte ++ [.ok] ++ [] := by decide
theorem witness_WriteRegsCompletes :
    let s := owned 20 [.ok, .ack, .ack, .ack, .ok]
    s.taskMoves 0 20 ∧ s.busReady 0 ∧ (s.bus 0).lock = .owned 0 ∧ lenLegal 1 0x2000 ∧
      openingInTable false (s.bus 0).phase .write 0x48 = true ∧ startFree (s.bus 0) false ∧ s.bufReadable 0x2000 1 ∧
      (s.bus 0).answers = [.ok, .ack, .ack] ++ List.replicate 1 Answer.ack ++ [.ok] ++ [] := by decide

theorem witness_UnsupportedFlagsRefused_read :
    let f : XferFlags := { addr10 := true }
    (owned 1 []).taskMoves 0 1 ∧ commandFault (owned 1 []) (.task 0) (.i2cRead 0 0x48 f 1 0) = none ∧
      commandFault (owned 1 []) (.task 0) (.i2cWrite 0 0x48 f 1 0) = none := by decide
theorem witness_UnsupportedFlagsRefused_regs :
    let f : XferFlags := { nostop := true }
    (owned 1 []).taskMoves 0 1 ∧ f ≠ {} ∧ commandFault (owned 1 []) (.task 0) (.i2cReadRegs 0 0x48 0 f 1 0) = none ∧
      commandFault (owned 1 []) (.task 0) (.i2cWriteRegs 0 0x48 0 f 1 0) = none := by decide

theorem witness_AddressRetriesUntilAcked :
    let s := owned 1 [.ok, .nack, .ok, .nack, .ok, .ack]
    0 < s.buses.length ∧ s.cfg.retryLimit = none ∧ startFree (s.bus 0) false ∧ (s.bus 0).answers = openAnswers false 2 ++ [] := by
  decide
theorem witness_RetryLimitGivesNoAck :
    let s := limited 13 0 [.ok, .nack, .ok]
    s.taskMoves 0 13 ∧ 5 * 0 + 13 ≤ 13 ∧ s.cfg.retryLimit = some 0 ∧ startFree (s.bus 0) false ∧
      (s.bus 0).answers = (List.replicate (0 + 1) [Answer.ok, Answer.nack]).flatten ++ .ok :: [] ∧
      commandFault s (.task 0) (.i2cRead 0 0x49 {} 1 0x2000) = none ∧
      commandFault s (.task 0) (.i2cWrite 0 0x49 {} 1 0x2000) = none ∧
      commandFault s (.task 0) (.i2cReadRegs 0 0x49 5 {} 1 0x2000) = none ∧
      commandFault s (.task 0) (.i2cWriteRegs 0 0x49 5 {} 1 0x2000) = none := by decide
theorem witness_RetryLimitGivesNoAck_second :
    let s := limited 26 1 [.ok, .ack, .ack, .ok, .nack, .ok, .nack, .ok]
    s.taskMoves 0 26 ∧ 5 * 1 + 21 ≤ 26 ∧ s.cfg.retryLimit = some 1 ∧ startFree (s.bus 0) false ∧
      commandFault s (.task 0) (.i2cReadRegs 0 0x49 5 {} 1 0x2000) = none ∧
      (s.bus 0).answers = [.ok, .ack, .ack] ++ (List.replicate (1 + 1) [Answer.ok, Answer.nack]).flatten ++ .ok :: [] := by decide

theorem witness_DataNackFollowsPolicy_hang :
    let s := owned 18 [.ok, .ack, .nack]
    s.taskMoves 0 18 ∧ commandFault s (.task 0) (.i2cWrite 0 0x48 {} 1 0x2000) = none ∧ 0 < 1 ∧ startFree (s.bus 0) false ∧
      s.bufReadable 0x2000 1 ∧ (s.bus 0).answers = [.ok, .ack] ++ List.replicate 0 Answer.ack ++ .nack :: [] ∧
      s.cfg.busErrorPolicy = .hang := by decide
theorem witness_DataNackFollowsPolicy_report :
    let s := reporting 22 [.ok, .ack, .ack, .nack, .ok]
    s.taskMoves 0 22 ∧ commandFault s (.task 0) (.i2cWrite 0 0x48 {} 3 0x2000) = none ∧ 1 < 3 ∧ startFree (s.bus 0) false ∧
      s.bufReadable 0x2000 3 ∧ (s.bus 0).answers = [.ok, .ack] ++ List.replicate 1 Answer.ack ++ .nack :: [.ok] ∧
      s.cfg.busErrorPolicy = .report := by decide
theorem witness_DataNackFollowsPolicy_register_hang :
    let s := owned 18 [.ok, .ack, .nack]
    s.taskMoves 0 18 ∧ commandFault s (.task 0) (.i2cReadRegs 0 0x48 5 {} 1 0x2000) = none ∧ startFree (s.bus 0) false ∧
      (s.bus 0).answers = [.ok, .ack, .nack] ++ [] ∧ s.cfg.busErrorPolicy = .hang := by decide
theorem witness_DataNackFollowsPolicy_register_report :
    let s := reporting 18 [.ok, .ack, .nack, .ok]
    s.taskMoves 0 18 ∧ commandFault s (.task 0) (.i2cWriteRegs 0 0x48 5 {} 1 0x2000) = none ∧ startFree (s.bus 0) false ∧
      (s.bus 0).answers = [.ok, .ack, .nack] ++ [.ok] ∧ s.cfg.busErrorPolicy = .report := by decide
theorem witness_DataNackFollowsPolicy_held :
    let s := inside (owned 1 []) ⟨.i2cWrite 0 0x48 {} 1 0x2000, [.holdForever]⟩
    s.taskMoves 0 1 ∧ (s.task 0).cmd = some ⟨.i2cWrite 0 0x48 {} 1 0x2000, [.holdForever]⟩ := by decide

theorem witness_LostArbitrationReported :
    let s := reporting 10 [.ok, .arbLost]
    s.taskMoves 0 10 ∧ s.cfg.busErrorPolicy = .report ∧ startFree (s.bus 0) false ∧ (s.bus 0).answers = .ok :: .arbLost :: [] ∧
      commandFault s (.task 0) (.i2cRead 0 0x48 {} 2 0x2000) = none ∧
      commandFault s (.task 0) (.i2cWrite 0 0x48 {} 2 0x2000) = none := by decide
/-- A bus error at a data byte, Hang. -/
theorem witness_LostArbitrationReported_hang :
    let s := inside (owned 3 [.busError]) ⟨.i2cWrite 0 0x48 {} 1 0x2000, [.askSend 0 0x41, .ret (.ok 1)]⟩
    s.taskMoves 0 3 ∧ (s.task 0).cmd = some ⟨.i2cWrite 0 0x48 {} 1 0x2000, .askSend 0 0x41 :: [.ret (.ok 1)]⟩ ∧
      (Micro.askSend 0 0x41).asks? = some 0 ∧ (s.bus 0).answers = .busError :: [] ∧
      (Micro.askSend 0 0x41).failure .busError = some (.berr, .busError) ∧ s.cfg.busErrorPolicy = .hang := by decide
/-- Arbitration lost at a START, Report. -/
theorem witness_LostArbitrationReported_start :
    let s := inside (reporting 6 [.arbLost]) ⟨.i2cWrite 0 0x48 {} 1 0x2000, [.askStart 0 0x48 .write 0 true, .ret (.ok 1)]⟩
    s.taskMoves 0 6 ∧ (s.task 0).cmd = some ⟨.i2cWrite 0 0x48 {} 1 0x2000, .askStart 0 0x48 .write 0 true :: [.ret (.ok 1)]⟩ ∧
      (Micro.askStart 0 0x48 .write 0 true).asks? = some 0 ∧ (s.bus 0).answers = .arbLost :: [] ∧
      (Micro.askStart 0 0x48 .write 0 true).failure .arbLost = some (.lost, .arbLost) ∧ s.cfg.busErrorPolicy = .report := by decide
/-- A bus error at a received byte, the engine master, Report. -/
theorem witness_LostArbitrationReported_master :
    let s := { inside (held 10 [.busError, .ok]) ⟨.i2cRead 0 0x48 {} 1 0x2000, [.askRecv 0 .nack 0x2000, .ret (.ok 1)]⟩ with
      cfg := { Config.initial with busErrorPolicy := .report } }
    s.taskMoves 0 10 ∧ (s.task 0).cmd = some ⟨.i2cRead 0 0x48 {} 1 0x2000, .askRecv 0 .nack 0x2000 :: [.ret (.ok 1)]⟩ ∧
      (Micro.askRecv 0 .nack 0x2000).asks? = some 0 ∧ (s.bus 0).answers = .busError :: [.ok] ∧
      (Micro.askRecv 0 .nack 0x2000).failure .busError = some (.berr, .busError) ∧ s.cfg.busErrorPolicy = .report ∧
      (s.bus 0).ctl.master = true := by decide
theorem witness_OverrunKeepsReceivedBytes :
    let s := reporting 23 [.ok, .ack, .byte 0x11, .overrun, .ok]
    s.taskMoves 0 23 ∧ commandFault s (.task 0) (.i2cRead 0 0x48 {} 3 0x2000) = none ∧ s.cfg.busErrorPolicy = .report ∧
      [(0x11 : Byte)].length < 3 ∧ startFree (s.bus 0) false ∧ s.bufWritable 0x2000 3 ∧
      (s.bus 0).answers = [.ok, .ack] ++ [(0x11 : Byte)].map Answer.byte ++ .overrun :: .ok :: [] := by decide

theorem witness_UnansweredTaskHolds_none :
    let s := inside (owned 5 []) ⟨.i2cWrite 0 0x48 {} 1 0x2000, [.askSend 0 0x41, .holdForever]⟩
    s.taskMoves 0 5 ∧ (s.task 0).cmd = some ⟨.i2cWrite 0 0x48 {} 1 0x2000, [.askSend 0 0x41, .holdForever]⟩ ∧
      (Micro.askSend 0 0x41).asks? = some 0 ∧ (s.bus 0).answers = [] := by decide
theorem witness_UnansweredTaskHolds_wedged :
    let s := inside (owned 5 [.wedged, .ok]) ⟨.i2cWrite 0 0x48 {} 1 0x2000, [.askStop 0]⟩
    s.taskMoves 0 5 ∧ (s.task 0).cmd = some ⟨.i2cWrite 0 0x48 {} 1 0x2000, [.askStop 0]⟩ ∧
      (Micro.askStop 0).asks? = some 0 ∧ (s.bus 0).answers.head? = some .wedged ∧ isNext (step s) = true := by decide

/-- Bus 0 owned by task 0 and busy with another master. -/
def contended (n : Nat) : State := (owned n [.ok, .ack]).modBus 0 fun u => { u with ctl := { u.ctl with busy := true } }

theorem witness_UnansweredTaskHolds_busy :
    (contended 9).taskMoves 0 9 ∧ commandFault (contended 9) (.task 0) (.i2cRead 0 0x48 {} 1 0x2000) = none ∧
      commandFault (contended 9) (.task 0) (.i2cWriteRegs 0 0x48 0 {} 1 0x2000) = none ∧
      ((contended 9).bus 0).ctl.master = false ∧ ((contended 9).bus 0).ctl.busy = true ∧
      (nextOf (contended 9) (exec (.i2cRead 0 0x48 {} 1 0x2000) (contended 9))).buses = (contended 9).buses := by decide
theorem witness_UnansweredTaskHolds_busy_later :
    let s := inside (contended 9) ⟨.i2cRead 0 0x48 {} 1 0x2000, [.waitNotBusy 0, .askStart 0 0x48 .read 0 true]⟩
    s.taskMoves 0 9 ∧ (s.bus 0).ctl.busy = true ∧
      (s.task 0).cmd = some ⟨.i2cRead 0 0x48 {} 1 0x2000, .waitNotBusy 0 :: [.askStart 0 0x48 .read 0 true]⟩ := by decide

theorem witness_RefusedAccessHoldsTask :
    let s := { inside (owned 5 []) ⟨.i2cRead 0 0x48 {} 1 0x2000, [.memStore 0x2000 7]⟩ with
      cfg := { Config.initial with launch := [⟨0x2000, 16, false⟩] } }
    s.taskMoves 0 5 ∧ (s.task 0).cmd = some ⟨.i2cRead 0 0x48 {} 1 0x2000, [.memStore 0x2000 7]⟩ ∧
      canWrite s.cfg 0x2000 = false := by decide
theorem witness_RefusedAccessHoldsTask_load :
    let s := { inside (owned 5 []) ⟨.i2cWrite 0 0x48 {} 1 0x2010, [.loadSend 0 0x2010]⟩ with
      cfg := { Config.initial with launch := [⟨0x2000, 16, false⟩] } }
    s.taskMoves 0 5 ∧ (s.task 0).cmd = some ⟨.i2cWrite 0 0x48 {} 1 0x2010, [.loadSend 0 0x2010]⟩ ∧
      canRead s.cfg 0x2010 = false := by decide
theorem witness_RefusedAccessHoldsTask_pattern :
    let s := { inside (queued 5 []) ⟨.sfrReadUntil 0 1 4 0x2000 0 0x2010, [.loadPattern 0 4 0x2000 0 0x2010 1 []]⟩ with
      cfg := { Config.initial with launch := [⟨0x2000, 16, false⟩] } }
    s.taskMoves 0 5 ∧ (s.task 0).cmd = some ⟨.sfrReadUntil 0 1 4 0x2000 0 0x2010, [.loadPattern 0 4 0x2000 0 0x2010 1 []]⟩ ∧
      canRead s.cfg 0x2010 = false := by decide

theorem witness_RegisterTransfersAreTwoByteTransfers_write :
    let s := owned 21 [.ok, .ack, .ack, .ack, .ok] [(0x2100, 0x01)]
    s.taskMoves 0 21 ∧ s.busReady 0 ∧ (s.bus 0).lock = .owned 0 ∧ openingInTable false (s.bus 0).phase .write 0x48 = true ∧
      startFree (s.bus 0) false ∧ lenLegal 1 0x2100 ∧ s.bufReadable 0x2100 1 ∧ s.mem.read 0x2100 = 0x01 ∧ lenLegal 1 0x2000 ∧
      s.bufReadable 0x2000 1 ∧ (s.bus 0).answers = [.ok, .ack, .ack] ++ List.replicate 1 Answer.ack ++ [.ok] ++ [] := by decide
theorem witness_RegisterTransfersAreTwoByteTransfers_read :
    let s := owned 26 [.ok, .ack, .ack, .ok, .ack, .byte 0x19, .ok]
    s.taskMoves 0 26 ∧ s.busReady 0 ∧ (s.bus 0).lock = .owned 0 ∧ openingInTable false (s.bus 0).phase .write 0x48 = true ∧
      startFree (s.bus 0) false ∧ lenLegal 1 0x2100 ∧ s.bufReadable 0x2100 1 ∧ s.mem.read 0x2100 = 0x00 ∧ lenLegal 1 0x2000 ∧
      s.bufWritable 0x2000 1 ∧ (s.bus 0).answers = [.ok, .ack, .ack, .ok, .ack] ++ [(0x19 : Byte)].map Answer.byte ++ [.ok] ++ [] := by
  decide

theorem witness_PushStoresOrDrops :
    (irq [1, 2, 3] 0x00000408).irqMoves 0 ∧ ((irq [1, 2, 3] 0x00000408).reader 0).q.length < ((irq [1, 2, 3] 0x00000408).reader 0).cap := by
  decide
theorem witness_PushStoresOrDrops_full :
    (irq [1, 2, 3, 4] 0x00000508).irqMoves 0 ∧
      ((irq [1, 2, 3, 4] 0x00000508).reader 0).cap ≤ ((irq [1, 2, 3, 4] 0x00000508).reader 0).q.length := by decide

theorem witness_ReadTakesBufferedBytes :
    (queued 9 [1, 2]).taskMoves 0 9 ∧ commandFault (queued 9 [1, 2]) (.task 0) (.sfrRead 0 2 0xFFFFFFFE 0) = none ∧
      2 ≤ ((queued 9 [1, 2]).reader 0).q.length ∧ (queued 9 [1, 2]).bufWritable 0xFFFFFFFE 2 := by decide
theorem witness_ReadTakesBufferedBytes_none :
    (queued 5 []).taskMoves 0 5 ∧ commandFault (queued 5 []) (.task 0) (.sfrRead 0 0 0 0) = none := by decide
theorem witness_TimedOutReadFollowsPolicy :
    (queued 9 [1]).taskMoves 0 9 ∧ commandFault (queued 9 [1]) (.task 0) (.sfrRead 0 2 0 0) = none ∧
      ((queued 9 [1]).reader 0).q.length < 2 ∧ (queued 9 [1]).bufWritable 0 2 ∧
      (queued 9 [1]).cfg.timeoutConsume = .incremental := by decide
theorem witness_TimedOutReadFollowsPolicy_all :
    let s := { queued 9 [1] with cfg := { Config.initial with timeoutConsume := .allOrNothing } }
    s.taskMoves 0 9 ∧ commandFault s (.task 0) (.sfrRead 0 2 0 0) = none ∧ (s.reader 0).q.length < 2 ∧ s.bufWritable 0 2 ∧
      s.cfg.timeoutConsume = .allOrNothing := by decide

theorem witness_ReadWaitsUntilDeadline :
    (queued 3 []).taskMoves 0 3 ∧ commandFault (queued 3 []) (.task 0) (.sfrRead 0 1 0 1) = none ∧
      ((queued 3 []).reader 0).q = [] ∧ (queued 3 []).cfg.timeoutConsume = .incremental := by decide
/-- One tick before the deadline, and at it. -/
theorem witness_ReadWaitsUntilDeadline_inside :
    let s := inside (queued 3 []) ⟨.sfrRead 0 1 0 1, [.readLoop 0 1 0 0 1]⟩
    let s' := inside { queued 3 [] with now := 1 } ⟨.sfrRead 0 1 0 1, [.readLoop 0 1 0 0 1]⟩
    (s.taskMoves 0 3 ∧ 0 < s.readers.length ∧ (s.task 0).cmd = some ⟨.sfrRead 0 1 0 1, [.readLoop 0 1 0 0 1]⟩ ∧
      (s.reader 0).q = [] ∧ s.now < 1) ∧
    (s'.taskMoves 0 3 ∧ 0 < s'.readers.length ∧ (s'.task 0).cmd = some ⟨.sfrRead 0 1 0 1, [.readLoop 0 1 0 0 1]⟩ ∧
      (s'.reader 0).q = [] ∧ 1 ≤ s'.now) := by decide

/-- AllOrNothing, two of three bytes there; before the deadline, and at it. -/
theorem witness_ReadWaitsUntilDeadline_all :
    let c : Config := { Config.initial with timeoutConsume := .allOrNothing }
    let s := { queued 3 [1, 2] with cfg := c }
    let p := inside s ⟨.sfrRead 0 3 0 5, [.readAll 0 3 0 5]⟩
    (s.taskMoves 0 3 ∧ commandFault s (.task 0) (.sfrRead 0 3 0 5) = none ∧ (s.reader 0).q.length < 3 ∧
      s.cfg.timeoutConsume = .allOrNothing) ∧
    (p.taskMoves 0 3 ∧ 0 < p.readers.length ∧ (p.task 0).cmd = some ⟨.sfrRead 0 3 0 5, [.readAll 0 3 0 5]⟩ ∧
      (p.reader 0).q.length < 3 ∧ p.now < 5 ∧ 5 ≤ (p.tick 5).now) := by decide
/-- SFR_READ_UNTIL with an empty queue; before the deadline, and at it. -/
theorem witness_ReadWaitsUntilDeadline_until :
    let s := queued 5 [] [(0x5110, 0x0D)]
    let p := inside (queued 3 []) ⟨.sfrReadUntil 0 1 4 0 5 0x5110, [.untilLoop 0 4 0 5 [0x0D] []]⟩
    (s.taskMoves 0 5 ∧ 1 + 4 ≤ 5 ∧ commandFault s (.task 0) (.sfrReadUntil 0 1 4 0 5 0x5110) = none ∧ (s.reader 0).q = [] ∧
      s.bufReadable 0x5110 1) ∧
    (p.taskMoves 0 3 ∧ 0 < p.readers.length ∧
      (p.task 0).cmd = some ⟨.sfrReadUntil 0 1 4 0 5 0x5110, [.untilLoop 0 4 0 5 [0x0D] []]⟩ ∧ (p.reader 0).q = [] ∧
      p.now < 5 ∧ 5 ≤ (p.tick 5).now) := by decide

/-- The queue "aCRb", the pattern CR at 0x5110. -/
def lines (n : Nat) : State := queued n [0x61, 0x0D, 0x62] [(0x5110, 0x0D)]

theorem witness_ReadUntilStopsAtFirstMatch :
    (lines 12).taskMoves 0 12 ∧ commandFault (lines 12) (.task 0) (.sfrReadUntil 0 1 2 0x5000 0 0x5110) = none ∧
      (lines 12).bufReadable 0x5110 1 ∧ (lines 12).bufWritable 0x5000 2 ∧ ((lines 12).reader 0).q = [0x61, 0x0D] ++ [0x62] ∧
      endsWith [0x61, 0x0D] ((lines 12).mem.readBytes 0x5110 1) = true ∧
      noMatchBefore [(0x61 : Byte), 0x0D].dropLast ((lines 12).mem.readBytes 0x5110 1) := by
  refine ⟨by decide, by decide, by decide, by decide, by decide, by decide, ?_⟩
  intro k h1 h2
  obtain rfl : k = 1 := Nat.le_antisymm h2 h1
  decide
theorem witness_ReadUntilWithoutMatch :
    (lines 10).taskMoves 0 10 ∧ 1 + 3 * 1 + 6 ≤ 10 ∧ (lines 10).bufReadable 0x5110 1 ∧ (lines 10).bufWritable 0x5000 1 ∧
      ((lines 10).reader 0).q = [0x61] ++ [0x0D, 0x62] ∧ noMatchBefore [0x61] ((lines 10).mem.readBytes 0x5110 1) ∧
      commandFault (lines 10) (.task 0) (.sfrReadUntil 0 1 1 0x5000 7 0x5110) = none := by
  refine ⟨by decide, by decide, by decide, by decide, by decide, ?_, by decide⟩
  intro k h1 h2
  obtain rfl : k = 1 := Nat.le_antisymm h2 h1
  decide
theorem witness_ReadUntilWithoutMatch_timeout :
    let s := queued 7 [] [(0x5110, 0x0D)]
    s.taskMoves 0 7 ∧ 1 + 3 * 0 + 6 ≤ 7 ∧ s.bufReadable 0x5110 1 ∧ s.bufWritable 0x5000 1 ∧ (s.reader 0).q = [] ++ [] ∧
      noMatchBefore [] (s.mem.readBytes 0x5110 1) ∧ commandFault s (.task 0) (.sfrReadUntil 0 1 1 0x5000 0 0x5110) = none := by
  refine ⟨by decide, by decide, by decide, by decide, by decide, ?_, by decide⟩
  intro k h1 h2
  exact absurd (Nat.le_trans h1 h2) (by decide)

theorem witness_SecondConsumerFaultsOnEntry :
    let s := inside (queued 1 [] |>.modReader 0 fun d => { d with consumer := some 1 }) ⟨.sfrRead 0 1 0 9, sfrReadCode 0 1 0 9⟩
    s.taskMoves 0 1 ∧ (s.reader 0).consumer ≠ none ∧
      (s.task 0).cmd = some ⟨.sfrRead 0 1 0 9, .enterRead 0 :: [.armRead 0 1 0 9]⟩ := by decide

theorem witness_CommandsChangeOnlyTheirUnits :
    isNext (exec (.i2cRead 0 0x48 {} 1 0x2000) (owned 100 [.ok, .ack, .byte 7, .ok])) = true ∧
      (Instr.i2cRead 0 0x48 {} 1 0x2000).storesTo = (0x2000, 1) ∧ (Instr.i2cRead 0 0x48 {} 1 0x2000).busOf ≠ some 1 ∧
      (Instr.i2cRead 0 0x48 {} 1 0x2000).readerOf ≠ some 0 := by decide
/-- A later turn of a read, and one of every other kind of command: each is where the command comes to. -/
theorem witness_later_turns :
    (⟨.i2cRead 0 0x48 {} 2 0x2000, [.askRecv 0 .ack 0x2001, .recvLoop 0 0x2000 2 1 false, .askStop 0]⟩ : Cmd).fits ∧
      (⟨.i2cAcquire 0, (acquireCode 0).tail⟩ : Cmd).fits ∧ (⟨.i2cRelease 0, releaseCode 0⟩ : Cmd).fits ∧
      (⟨.i2cInit 0, .askRecover 0 :: (recoverCode 0).drop 3 ++ (initCode 0).drop 8⟩ : Cmd).fits ∧
      (⟨.sfrRead 0 4 0x3000 9, [.readLoop 0 4 0x3000 3 9]⟩ : Cmd).fits ∧
      (⟨.sfrReadUntil 0 1 4 0x3000 9 0x5000, [.untilLoop 0 4 0x3000 9 [0x0D] [1, 2, 3]]⟩ : Cmd).fits := by
  refine ⟨show ∀ m ∈ _, _ from by decide, ⟨[.joinWaiters 0], rfl⟩, ⟨[], rfl⟩, .inr ⟨[.enable 0 false, .pins 0 .gpio], rfl⟩,
    show ∀ m ∈ _, _ from by decide, show ∀ m ∈ _, _ from by decide⟩
theorem witness_CommandsChangeOnlyTheirUnits_step : acquiring.cmdsFit ∧ ∃ s', step acquiring = .next s' := by
  refine ⟨fun t c hc => ?_, _, rfl⟩
  obtain ⟨-, rfl⟩ := only_task0 (s := acquiring) rfl hc
  exact ⟨[.joinWaiters 0, .takeLock 0], rfl⟩
theorem witness_TransfersLeaveControlState :
    (Instr.i2cWrite 0 0x48 {} 1 0x2000).isTransfer = true ∧ (Instr.i2cWrite 0 0x48 {} 1 0x2000).busOf = some 0 ∧
      isNext (exec (.i2cWrite 0 0x48 {} 1 0x2000) (owned 100 [.ok, .ack, .ack, .ok])) = true := by decide
theorem witness_BusControlLeavesTheRest :
    isNext (exec (.i2cAcquire 0) (inited 5)) = true ∧ isNext (exec (.i2cRelease 0) (owned 5 [])) = true ∧
      isNext (exec (.i2cInit 0) (fresh 21)) = true := by decide
theorem witness_SerialCommandsLeaveTheRest :
    (Instr.sfrRead 0 1 0 9).readerOf = some 0 ∧ isNext (exec (.sfrRead 0 1 0 9) (queued 100 [1])) = true ∧
      (Instr.sfrPush 0 1).readerOf = some 0 ∧ isNext (exec (.sfrPush 0 1) (irq [] 0x00000108)) = true := by decide

/-- The receive interrupt's push, from a good state. -/
theorem witness_StepKeeps :
    let s := irq [1] 0x00000208
    s.mem.wf = true ∧ s.queuesOk ∧ s.resultsOk ∧ s.waitersOk ∧ isNext (step s) = true := by
  unfold State.queuesOk State.resultsOk State.waitersOk; decide
/-- A task that completes a command, from a good state. -/
theorem witness_StepKeeps_task :
    let s := programmed (inited 5) { w0 := 0x00000002 }
    s.mem.wf = true ∧ s.queuesOk ∧ s.resultsOk ∧ s.waitersOk ∧ isNext (step s) = true := by
  unfold State.queuesOk State.resultsOk State.waitersOk; decide
theorem witness_QueuesAreFirstInFirstOut : isNext (step (irq [1, 2] 0x00000308)) = true := by decide
theorem witness_ResetIsGood : Memory.wf [(0x2000, 0x19), (0x2001, 0x80)] = true := by decide

theorem witness_OnlyClockMovesTime :
    let s := { State.reset with turns := [.clock 5] }
    isNext (step s) = true ∧ s.turn = .clock 5 := by decide
theorem witness_OnlyClockMovesTime_others : isNext (step (irq [] 0x00000108)) = true ∧
    (irq [] 0x00000108).turn = .uart 0 { w0 := 0x00000108 } := by decide
theorem witness_EnvironmentTurns :
    let s := { State.reset with turns := [.busBusy 0 true] }
    s.fault = none ∧ s.turn = .busBusy 0 true ∧ (s.bus 0).ctl.master = false := by decide
theorem witness_EnvironmentTurns_answer :
    let s := { State.reset with turns := [.busAnswer 0 .wedged] }
    s.fault = none ∧ s.turn = .busAnswer 0 .wedged := by decide
theorem witness_EnvironmentTurns_clock :
    let s := { State.reset with turns := [.clock 1] }
    s.fault = none ∧ s.turn = .clock 1 := by decide
theorem witness_EnvironmentTurns_store :
    let s := { State.reset with turns := [.hostStore 0xFFFFFFFF 0x5A] }
    s.fault = none ∧ s.turn = .hostStore 0xFFFFFFFF 0x5A ∧ 0xFFFFFFFF < 2 ^ 32 := by decide

/-- State.reset is good in every way the invariants name. -/
theorem reset_good : State.reset.mem.wf = true ∧ State.reset.queuesOk ∧ State.reset.resultsOk ∧ State.reset.waitersOk ∧
    State.reset.quiet ∧ State.reset.powerOk ∧ State.reset.parametersLegal = true ∧ State.reset.noLeak = true := by
  unfold State.queuesOk State.resultsOk State.waitersOk State.quiet State.powerOk; decide

end Sys2Proof.Tests
end

section
/-! PROOFS of the family `30_encoding.md`: which descriptors the decoder refuses and what issuing one does, the results as
numbers, and the pseudo-instructions. -/

namespace Sys2Proof

/-! ### What each layout of the decoder refuses (30_encoding.md R71) -/

theorem transferBitsOk_eq_false_iff (w : Word) : transferBitsOk w = false ↔ field w 15 15 ≠ 0 ∨ field w 31 28 ≠ 0 := by
  simp [transferBitsOk, imp_iff_not_or]

theorem decodeControl_error_iff (w : Word) (mk : Nat → Instr) :
    (∃ r, decodeControl w mk = .error r) ↔ field w 31 8 ≠ 0 := by
  unfold decodeControl; split <;> simp_all

theorem decodeBytes_error_iff (d : Desc) (mk : Nat → Addr7 → XferFlags → Nat → Nat → Instr) :
    (∃ r, decodeBytes d mk = .error r) ↔ (field d.w0 15 15 ≠ 0 ∨ field d.w0 31 28 ≠ 0) ∨ field d.w0 27 20 ≠ 0 := by
  rw [← transferBitsOk_eq_false_iff]
  unfold decodeBytes; split_ifs <;> simp_all

theorem decodeRegs_error_iff (d : Desc) (mk : Nat → Addr7 → Byte → XferFlags → Nat → Nat → Instr) :
    (∃ r, decodeRegs d mk = .error r) ↔ field d.w0 15 15 ≠ 0 ∨ field d.w0 31 28 ≠ 0 := by
  rw [← transferBitsOk_eq_false_iff]
  unfold decodeRegs; split <;> simp_all

theorem decodePush_error_iff (d : Desc) : (∃ r, decodePush d = .error r) ↔ field d.w0 31 16 ≠ 0 := by
  unfold decodePush; split <;> simp_all

theorem decodeSfrRead_error_iff (d : Desc) : (∃ r, decodeSfrRead d = .error r) ↔ field d.w0 31 8 ≠ 0 := by
  unfold decodeSfrRead; split <;> simp_all

theorem decodeSfrUntil_error_iff (d : Desc) : (∃ r, decodeSfrUntil d = .error r) ↔ field d.w0 31 16 ≠ 0 := by
  unfold decodeSfrUntil; split <;> simp_all

/-- The decoder refuses exactly the reserved words: one case for each operation code, the clause of its layout. -/
theorem decode_error_iff (d : Desc) : (∃ r, decode d = .error r) ↔ Machine.reservedWord d.w0 := by
  unfold decode Machine.reservedWord
  split
  case h_1 op | h_2 op | h_3 op => simp [op, decodeControl_error_iff]
  case h_4 op | h_5 op => simp [op, decodeBytes_error_iff]
  case h_6 op | h_7 op => simp [op, decodeRegs_error_iff]
  case h_8 op => simp [op, decodePush_error_iff]
  case h_9 op => simp [op, decodeSfrRead_error_iff]
  case h_10 op => simp [op, decodeSfrUntil_error_iff]
  case h_11 =>
    have reservedOp : field d.w0 3 0 = 0 ∨ 11 ≤ field d.w0 3 0 := by
      -- the match's excluded codes come as `op = k → False`, which `omega` does not read
      simp only [imp_false] at *
      omega
    exact iff_of_true ⟨_, rfl⟩ (reservedOp.imp_right .inl)

/-! ### The error codes (00_scope.md R12) -/

/-- The error kinds in the order in which `ErrCodes.legal` lists their codes. -/
def ErrorKind.all : List ErrorKind := [.unsupported, .noAck, .dataNack, .arbLost, .busError, .overrun, .timeout, .noMatch]

theorem ErrorKind.mem_all (k : ErrorKind) : k ∈ ErrorKind.all := by cases k <;> decide

theorem ErrCodes.legal_iff (c : ErrCodes) :
    c.legal = true ↔ (∀ k ∈ ErrorKind.all, (c.code k).msb = true) ∧ (ErrorKind.all.map c.code).Nodup := by
  simp [ErrCodes.legal, ErrorKind.all, ErrCodes.code]

theorem ErrCodes.code_toInt_neg {c : ErrCodes} (h : c.legal = true) (k : ErrorKind) : (c.code k).toInt < 0 := by
  have msb : (c.code k).msb = true := (c.legal_iff.mp h).1 k k.mem_all
  simpa [BitVec.msb_eq_toInt] using msb

theorem ErrCodes.code_injective {c : ErrCodes} (h : c.legal = true) : Function.Injective c.code := fun k k' hk =>
  List.inj_on_of_nodup_map (c.legal_iff.mp h).2 k.mem_all k'.mem_all hk

end Sys2Proof

namespace Sys2Proof.Machine

variable {s : State}

/-! ### The step of an agent that issues a descriptor -/

theorem step_of_no_fault (hf : s.fault = none) : step s = afterTurn (moveAgent s) := by simp [step, hf]

theorem step_task_issues {t n : Nat} {d : Desc} (h : s.taskMoves t n) (hc : (s.task t).cmd = none) (hd : s.fetch t = some d) :
    step s = afterTurn (issueDesc (.task t) d s) := by
  obtain ⟨turn, noFault, taskExists⟩ := h
  rw [step_of_no_fault noFault]
  simp [moveAgent, turn, taskTurn, taskExists, hc, hd]

theorem step_uart_issues {r : Nat} {d : Desc} (ht : s.turn = .uart r d) (hf : s.fault = none) (hr : r < s.readers.length) :
    step s = afterTurn (issueDesc (.uartRx r) d s) := by
  rw [step_of_no_fault hf]
  simp [moveAgent, ht, uartTurn, State.readerExists, hr]

theorem issueDesc_reserved (g : Agent) {d : Desc} (hf : s.fault = none) (hd : reservedWord d.w0) :
    issueDesc g d s = .next { s with fault := some ⟨.reservedEncoding, g, d.w0⟩ } := by
  obtain ⟨r, hr⟩ := (decode_error_iff d).mpr hd
  simp [issueDesc, hr, raise_of_none s hf]

/-! ### Results as numbers (30_encoding.md R75) -/

theorem resultCode_ok_toInt (c : Config) {n : Nat} (h : n < 2 ^ 31) : (resultCode c (.ok n)).toInt = n := by
  have unsigned : (BitVec.ofNat 32 n).toNat = n := by rw [BitVec.toNat_ofNat]; omega
  rw [resultCode, BitVec.toInt_eq_toNat_of_lt (by omega), unsigned]

theorem resultCode_err (c : Config) (k : ErrorKind) : resultCode c (.err k) = c.errCodes.code k := rfl

end Sys2Proof.Machine

namespace Sys2Proof

open Machine

/-- Settles O3: the decoder's refusals by operation code, then the one thing that issuing a refused descriptor does, for a task and for
the receive interrupt. -/
theorem reservedDescriptorsFault : Obligations.ReservedDescriptorsFault := by
  refine ⟨decode_error_iff, ?_, ?_⟩
  · intro s t n d hm hc hd hw
    have ⟨_, hf, _⟩ := hm
    rw [step_task_issues hm hc hd, issueDesc_reserved _ hf hw, afterTurn]
  · intro s r d ht hf hr hw
    rw [step_uart_issues ht hf hr, issueDesc_reserved _ hf hw, afterTurn]

/-- Settles O6: a count below 2^31 has no sign bit, and legal error codes have it and are pairwise distinct. -/
theorem resultCodeSign : Obligations.ResultCodeSign := by
  intro c
  refine ⟨fun n hn => resultCode_ok_toInt c hn, fun legal k => ⟨resultCode_err c k, ?_⟩, fun legal k k' hk => ?_⟩
  · exact ErrCodes.code_toInt_neg legal k
  · exact ErrCodes.code_injective legal hk

/-- Settles O60: each pseudo-instruction is by definition the command of R80, with length 1 and no flags. -/
theorem pseudoInstructionsExpand : Obligations.PseudoInstructionsExpand := fun _ _ _ _ => ⟨rfl, rfl, rfl, rfl⟩

end Sys2Proof
end

section
/-! PROOFS of the family `42_i2c_transfers.md`: transfers with flags they do not support. -/

namespace Sys2Proof.Machine

/-! ### The body of a transfer with a flag it does not support (42_i2c_transfers.md R107) -/

theorem bytesUnsupported_iff (f : XferFlags) : bytesUnsupported f = true ↔ f.addr10 = true ∨ f.reg16 = true := by
  simp [bytesUnsupported]

theorem regsUnsupported_iff (f : XferFlags) : regsUnsupported f = true ↔ f ≠ {} := by simp [regsUnsupported]

section
variable {f : XferFlags} (b : Nat) (addr : Addr7) (reg : Byte) (len buf : Nat)

theorem readBytesCode_of_unsupported (h : bytesUnsupported f = true) : readBytesCode b addr f len buf = unsupportedCode :=
  if_pos h

theorem writeBytesCode_of_unsupported (h : bytesUnsupported f = true) : writeBytesCode b addr f len buf = unsupportedCode :=
  if_pos h

theorem readRegsCode_of_unsupported (h : regsUnsupported f = true) : readRegsCode b addr reg f len buf = unsupportedCode :=
  if_pos h

theorem writeRegsCode_of_unsupported (h : regsUnsupported f = true) : writeRegsCode b addr reg f len buf = unsupportedCode :=
  if_pos h

end

/-- The one micro-step of `unsupportedCode` ends the command. -/
theorem runCode_unsupportedCode (t : Nat) (i : Instr) {n : Nat} (hn : 1 ≤ n) (s : State) :
    runCode t i n unsupportedCode s = s.complete t (.err .unsupported) := by
  obtain ⟨m, rfl⟩ := Nat.exists_eq_add_of_le' hn
  exact runCode_done rfl

theorem exec_of_unsupportedCode {s : State} {t n : Nat} {i : Instr} (hm : s.taskMoves t n) (hn : 1 ≤ n)
    (hcode : codeOf i = unsupportedCode) (hc : commandFault s (.task t) i = none) :
    exec i s = .next (s.complete t (.err .unsupported)) := by
  rw [exec_runs hm hc, hcode, runCode_unsupportedCode t i hn s]

end Sys2Proof.Machine

namespace Sys2Proof

open Machine

/-- Settles O29: once its checks hold, a transfer with a flag it does not support runs `unsupportedCode`, which only returns. -/
theorem unsupportedFlagsRefused : Obligations.UnsupportedFlagsRefused := by
  intro s t n b addr reg f len buf hm hn
  refine ⟨fun hf => ?read, fun hf => ?write, fun hf => ?readRegs, fun hf => ?writeRegs⟩
  case read =>
    exact exec_of_unsupportedCode hm hn (readBytesCode_of_unsupported b addr len buf ((bytesUnsupported_iff f).mpr hf))
  case write =>
    exact exec_of_unsupportedCode hm hn (writeBytesCode_of_unsupported b addr len buf ((bytesUnsupported_iff f).mpr hf))
  case readRegs =>
    exact exec_of_unsupportedCode hm hn (readRegsCode_of_unsupported b addr reg len buf ((regsUnsupported_iff f).mpr hf))
  case writeRegs =>
    exact exec_of_unsupportedCode hm hn (writeRegsCode_of_unsupported b addr reg len buf ((regsUnsupported_iff f).mpr hf))

end Sys2Proof
end

section
/-! PROOFS of the family `60_exceptions.md`: the fault that issuing a command raises, its record, and the halt after it. -/

namespace Sys2Proof

/-! ### Word 0 of a decoded command is that of its descriptor (60_exceptions.md R126) -/

theorem field_lt (w : Word) (hi lo : Nat) : field w hi lo < 2 ^ (hi + 1 - lo) := Nat.mod_lt _ (Nat.two_pow_pos _)

theorem flagsToNat_flagsOfNat {n : Nat} (h : n < 16) : flagsToNat (flagsOfNat n) = n := by
  revert n; decide

theorem wordOf_eq_of_toNat {m : Nat} {w : Word} (h : m = w.toNat) : wordOf m = w := by simp [wordOf, h]

theorem i2cWord0_fields {w : Word} (bit15 : field w 15 15 = 0) (top : field w 31 28 = 0) :
    i2cWord0 (field w 3 0) (field w 7 4) (field w 14 8) (field w 19 16) (field w 27 20) = w := by
  have width := w.isLt
  simp only [field] at bit15 top ⊢
  exact wordOf_eq_of_toNat (by omega)

theorem sfrWord0_fields {w : Word} (top : field w 31 16 = 0) : sfrWord0 (field w 3 0) (field w 7 4) (field w 15 8) = w := by
  have width := w.isLt
  simp only [field] at top ⊢
  exact wordOf_eq_of_toNat (by omega)

/-- Nothing but OP and IDX: the layout of the bus control commands and of SFR_READ_TIMEOUT. -/
theorem wordOf_op_idx {w : Word} (top : field w 31 8 = 0) : wordOf (field w 3 0 + 16 * field w 7 4) = w := by
  have width := w.isLt
  simp only [field] at top ⊢
  exact wordOf_eq_of_toNat (by omega)

section
variable {d : Desc} {i : Instr}

theorem word0_of_decodeControl {mk : Nat → Instr} (hmk : ∀ b, (mk b).word0 = i2cWord0 (field d.w0 3 0) b 0 0 0)
    (h : decodeControl d.w0 mk = .ok i) : i.word0 = d.w0 := by
  unfold decodeControl at h
  split at h <;> cases h
  rw [hmk]
  exact wordOf_op_idx (not_not.mp ‹_›)

/-- The address and the flags, read from their fields and encoded again. -/
theorem i2cWord0_decoded {w : Word} (h : ¬transferBitsOk w = false) :
    i2cWord0 (field w 3 0) (field w 7 4) (BitVec.ofNat 7 (field w 14 8)).toNat (flagsToNat (flagsOfNat (field w 19 16)))
      (field w 27 20) = w := by
  obtain ⟨bit15, top⟩ : field w 15 15 = 0 ∧ field w 31 28 = 0 := by simpa [transferBitsOk_eq_false_iff] using h
  rw [BitVec.toNat_ofNat, Nat.mod_eq_of_lt (field_lt w 14 8), flagsToNat_flagsOfNat (field_lt w 19 16)]
  exact i2cWord0_fields bit15 top

theorem word0_of_decodeBytes {mk : Nat → Addr7 → XferFlags → Nat → Nat → Instr}
    (hmk : ∀ b addr f len buf, (mk b addr f len buf).word0 = i2cWord0 (field d.w0 3 0) b addr.toNat (flagsToNat f) 0)
    (h : decodeBytes d mk = .ok i) : i.word0 = d.w0 := by
  unfold decodeBytes at h
  split at h
  · cases h
  split at h <;> cases h
  have noReg : field d.w0 27 20 = 0 := not_not.mp ‹_›
  have word := i2cWord0_decoded ‹¬transferBitsOk d.w0 = false›
  rwa [noReg, ← hmk] at word

theorem word0_of_decodeRegs {mk : Nat → Addr7 → Byte → XferFlags → Nat → Nat → Instr}
    (hmk : ∀ b addr reg f len buf,
      (mk b addr reg f len buf).word0 = i2cWord0 (field d.w0 3 0) b addr.toNat (flagsToNat f) reg.toNat)
    (h : decodeRegs d mk = .ok i) : i.word0 = d.w0 := by
  unfold decodeRegs at h
  split at h <;> cases h
  rw [hmk, BitVec.toNat_ofNat (field d.w0 27 20), Nat.mod_eq_of_lt (field_lt d.w0 27 20)]
  exact i2cWord0_decoded ‹_›

theorem word0_of_decodePush (op : field d.w0 3 0 = 8) (h : decodePush d = .ok i) : i.word0 = d.w0 := by
  unfold decodePush at h
  split at h <;> cases h
  have word := sfrWord0_fields (not_not.mp ‹_›)
  rwa [op, ← Nat.mod_eq_of_lt (field_lt d.w0 15 8), ← BitVec.toNat_ofNat] at word

theorem word0_of_decodeSfrRead (op : field d.w0 3 0 = 9) (h : decodeSfrRead d = .ok i) : i.word0 = d.w0 := by
  unfold decodeSfrRead at h
  split at h <;> cases h
  change sfrWord0 9 (field d.w0 7 4) 0 = d.w0
  rw [← op]
  exact wordOf_op_idx (not_not.mp ‹_›)

theorem word0_of_decodeSfrUntil (op : field d.w0 3 0 = 10) (h : decodeSfrUntil d = .ok i) : i.word0 = d.w0 := by
  unfold decodeSfrUntil at h
  split at h <;> cases h
  change sfrWord0 10 (field d.w0 7 4) (field d.w0 15 8) = d.w0
  rw [← op]
  exact sfrWord0_fields (not_not.mp ‹_›)

/-- One case for each operation code, the layout it has. -/
theorem word0_of_decode (h : decode d = .ok i) : i.word0 = d.w0 := by
  unfold decode at h
  split at h
  case h_1 op | h_2 op | h_3 op => exact word0_of_decodeControl (fun _ => by rw [op]; rfl) h
  case h_4 op | h_5 op => exact word0_of_decodeBytes (fun _ _ _ _ _ => by rw [op]; rfl) h
  case h_6 op | h_7 op => exact word0_of_decodeRegs (fun _ _ _ _ _ _ => by rw [op]; rfl) h
  case h_8 op => exact word0_of_decodePush op h
  case h_9 op => exact word0_of_decodeSfrRead op h
  case h_10 op => exact word0_of_decodeSfrUntil op h
  case h_11 => cases h

end

/-! ### The one command of interrupt context (60_exceptions.md R133) -/

/-- The command is legal in interrupt context, and not in task context. -/
def Instr.fromIrq : Instr → Bool
  | .sfrPush _ _ => true
  | _ => false

theorem Instr.fromIrq_iff (i : Instr) : i.fromIrq = true ↔ ∃ r v, i = .sfrPush r v := by
  cases i <;> simp [Instr.fromIrq]

end Sys2Proof

namespace Sys2Proof.Machine

variable {s s' : State} {g : Agent} {t r n : Nat} {i : Instr} {d : Desc} {c : FaultCode}

/-! ### The index and the context of a command, in the chain of checks (60_exceptions.md R125, R133) -/

/-- The bus or the reader that the command names exists. -/
def indexOk (s : State) (i : Instr) : Bool :=
  match i.busOf, i.readerOf with
  | some b, _ => s.busExists b
  | none, some r => s.readerExists r
  | none, none => true

theorem indexOk_iff (s : State) (i : Instr) : indexOk s i = true ↔
    (∀ b, i.busOf = some b → b < s.buses.length) ∧ (∀ r, i.readerOf = some r → r < s.readers.length) := by
  cases i <;> simp [indexOk, Instr.busOf, Instr.readerOf, State.busExists, State.readerExists]

/-- The index is the first check, and the context the second. -/
theorem commandFault_outOfContext (s : State) (h : i.fromIrq = g.inTask) :
    commandFault s g i = some (if indexOk s i then .wrongContext else .invalidIndex) := by
  cases i
  all_goals
    simp only [Instr.fromIrq] at h
    simp only [commandFault, transferFault, ← h, indexOk, Instr.busOf, Instr.readerOf, ← busExists_false, ← readerExists_false]
    split <;> simp_all

/-- The context is the one check that answers WrongContext, and it holds. -/
theorem commandFault_inContext (s : State) (h : i.fromIrq ≠ g.inTask) : commandFault s g i ≠ some .wrongContext := by
  cases i
  all_goals
    simp only [Instr.fromIrq] at h
    simp only [commandFault, transferFault]
    grind

/-! ### What executing a command does, in either context -/

/-- Every command but SFR_WRITE_ONE is issued with the checks `checksOf` and the micro-steps `codeOf`. -/
theorem exec_taskCommand (s : State) (h : i.fromIrq = false) :
    exec i s = issueTask i (indexOk s i) (fun t => (checksOf s t i).tail) (codeOf i) s := by
  cases i
  case sfrPush => cases h
  all_goals rfl

theorem checksOf_cons (s : State) (t : Nat) (i : Instr) :
    checksOf s t i = (indexOk s i, .invalidIndex) :: (checksOf s t i).tail := by
  cases i <;> rfl

theorem exec_halted (i : Instr) (h : s.fault.isSome = true) : exec i s = .fault .halted := by
  cases hi : i.fromIrq with
  | true =>
    obtain ⟨r, v, rfl⟩ := i.fromIrq_iff.mp hi
    exact if_pos h
  | false =>
    rw [exec_taskCommand s hi]
    exact if_pos h

theorem exec_outOfContext (hf : s.fault = none) (hi : s.issuer = some (g, n)) (h : i.fromIrq = g.inTask) :
    exec i s = .next (s.raise (if indexOk s i then .wrongContext else .invalidIndex) g i.word0) := by
  cases g with
  | task t =>
    obtain ⟨r, v, rfl⟩ := i.fromIrq_iff.mp h
    simp only [exec, execSfrPush, issueIrq, hf, hi]
    rfl
  | uartRx r => simp [exec_taskCommand s h, issueTask, hf, hi]

/-- SFR_WRITE_ONE from the receive interrupt: the index is its one check. -/
theorem exec_push_irq {v : Byte} {a : Nat} (hf : s.fault = none) (hi : s.issuer = some (.uartRx a, n)) :
    exec (.sfrPush r v) s = if s.readerExists r then .next (s.push r v a)
      else .next (s.raise .invalidIndex (.uartRx a) (Instr.sfrPush r v).word0) := by
  simp [exec, execSfrPush, issueIrq, hf, hi]

theorem commandFault_push_irq {v : Byte} {a : Nat} :
    commandFault s (.uartRx a) (.sfrPush r v) = if s.readerExists r then none else some .invalidIndex := by
  simp only [commandFault, Agent.inTask, ← readerExists_false]
  cases s.readerExists r <;> rfl

/-- Out of its context a command faults at the index or the context; in it, a task's at the first of its list of checks, and the
interrupt's at the index. -/
theorem exec_raises_first (hf : s.fault = none) (hi : s.issuer = some (g, n)) (hc : commandFault s g i = some c) :
    exec i s = .next { s with fault := some ⟨c, g, i.word0⟩ } := by
  rw [← raise_of_none s hf]
  by_cases context : i.fromIrq = g.inTask
  · rw [commandFault_outOfContext s context, Option.some.injEq] at hc
    rw [exec_outOfContext hf hi context, hc]
  cases g with
  | task t =>
    rw [exec_taskCommand s (by simpa [Agent.inTask] using context)]
    rw [← firstFault_checksOf, checksOf_cons] at hc
    exact issueTask_fault hf hi hc
  | uartRx a =>
    obtain ⟨r, v, rfl⟩ := i.fromIrq_iff.mp (by simpa [Agent.inTask] using context)
    rw [exec_push_irq hf hi]
    rw [commandFault_push_irq] at hc
    split at hc <;> cases hc
    exact if_neg ‹_›

/-- Once running, a task's command raises no fault but that of a second consumer on entering a read (log 13). -/
theorem runCode_fault (code : List Micro) (hf : s.fault = none) :
    ∀ f, (runCode t i n code s).fault = some f → f.code = .concurrentReader := by
  refine runCode_keeps (P := fun s => s.fault = none) (R := fun s => ∀ f, s.fault = some f → f.code = .concurrentReader)
    (Q := fun _ => True) (fun m s _ hf => ?micro) (fun s _ _ hf f h => ?park) n code s (fun _ _ => trivial) hf
  case park => cases hf.symm.trans h
  case micro =>
    unfold microKeeps
    split
    case h_1 s' ops hs | h_2 s' ops hs =>
      obtain ⟨-, -, -, -, fault⟩ := microStep_rest (s' := s') (by rw [hs]; rfl)
      exact ⟨fault.trans hf, fun _ _ => trivial⟩
    case h_3 => trivial
    case h_4 s' hs =>
      obtain ⟨res, -, rfl⟩ := microStep_done hs
      intro f h
      cases hf.symm.trans h
    case h_5 c hs =>
      obtain ⟨r, -, rfl, -⟩ := microStep_raise hs
      intro f h
      obtain rfl : ⟨.concurrentReader, .task t, i.word0⟩ = f := by simpa [State.raiseInside, State.raise, hf] using h
      rfl

/-- A command whose checks all hold runs, so that the fault of `runCode_fault` is all that can come of it. -/
theorem exec_checked_fault (hf : s.fault = none) (hi : s.issuer = some (g, n)) (hc : commandFault s g i = none)
    (h : exec i s = .next s') : ∀ f, s'.fault = some f → f.code = .concurrentReader := by
  have context : i.fromIrq ≠ g.inTask := fun out => by simp [commandFault_outOfContext s out] at hc
  cases g with
  | task t =>
    rw [← firstFault_checksOf, checksOf_cons] at hc
    rw [exec_taskCommand s (by simpa [Agent.inTask] using context)] at h
    simp only [issueTask, hf, hi, hc] at h
    cases h
    exact runCode_fault _ hf
  | uartRx a =>
    obtain ⟨r, v, rfl⟩ := i.fromIrq_iff.mp (by simpa [Agent.inTask] using context)
    rw [commandFault_push_irq] at hc
    split at hc <;> cases hc
    rw [exec_push_irq hf hi, if_pos ‹_›] at h
    cases h
    intro f h
    cases hf.symm.trans h

/-! ### The step that raises a fault, and the halt after it (60_exceptions.md R126, R127) -/

theorem endTurn_fault (s : State) : s.endTurn.fault = s.fault := by
  unfold State.endTurn
  split <;> rfl

theorem step_halted (h : s.fault.isSome = true) : step s = .fault .halted := if_pos h

theorem issueDesc_raises_first (hf : s.fault = none) (hi : s.issuer = some (g, n)) (hc : descFault s g d = some c) :
    issueDesc g d s = .next { s with fault := some ⟨c, g, d.w0⟩ } := by
  cases decoded : decode d with
  | ok i =>
    have first : commandFault s g i = some c := by simpa [descFault, decoded] using hc
    simp only [issueDesc, decoded, ← word0_of_decode decoded]
    exact exec_raises_first hf hi first
  | error r =>
    obtain rfl : FaultCode.reservedEncoding = c := by simpa [descFault, decoded] using hc
    simp [issueDesc, decoded, raise_of_none s hf]

/-- The step of an agent that issues a faulting descriptor, and the one after it. -/
theorem step_raises_first (hs : step s = afterTurn (issueDesc g d s)) (hf : s.fault = none) (hi : s.issuer = some (g, n))
    (hc : descFault s g d = some c) :
    let s' := { s with fault := some ⟨c, g, d.w0⟩ }.endTurn
    step s = .next s' ∧ step s' = .fault .halted := by
  refine ⟨?_, step_halted ?_⟩
  · rw [hs, issueDesc_raises_first hf hi hc, afterTurn]
  · rw [endTurn_fault]
    rfl

end Sys2Proof.Machine

namespace Sys2Proof

open Machine

/-- Settles O13: a task and the receive interrupt issue their descriptor, and `step_raises_first` says the rest of both. -/
theorem firstFaultIsRaised : Obligations.FirstFaultIsRaised := by
  refine ⟨fun s t n d c hm hcmd hd hc => ?task, fun s r d c ht hf hr hc => ?irq⟩
  case task =>
    have ⟨turn, noFault, _⟩ := hm
    exact step_raises_first (step_task_issues hm hcmd hd) noFault (issuer_task s turn) hc
  case irq => exact step_raises_first (step_uart_issues ht hf hr) hf (issuer_uart s ht) hc

/-- Settles O14: the context is the check after the index; in its own context a command faults at another check, or runs. -/
theorem wrongContextFaults : Obligations.WrongContextFaults := by
  refine ⟨fun i s g n hf hi busExists readerExists out => ?other, fun i s s' g n hf hi own h f hs' => ?own⟩
  case other =>
    have context : i.fromIrq = g.inTask := Bool.eq_iff_iff.mpr (i.fromIrq_iff.trans out)
    refine exec_raises_first hf hi ?_
    rw [commandFault_outOfContext s context, if_pos ((indexOk_iff s i).mpr ⟨busExists, readerExists⟩)]
  case own =>
    have context : i.fromIrq ≠ g.inTask := by
      have := i.fromIrq_iff.trans own
      cases hg : g.inTask <;> simp_all
    cases hc : commandFault s g i with
    | some c =>
      rw [exec_raises_first hf hi hc] at h
      cases h
      cases hs'
      exact fun wrong => commandFault_inContext s context (hc.trans (congrArg some wrong))
    | none => simp [exec_checked_fault hf hi hc h f hs']

/-- Settles O10: the step and the meaning of every command test the record first. -/
theorem faultedBlockNeverSteps : Obligations.FaultedBlockNeverSteps := fun _ h => ⟨step_halted h, fun i => exec_halted i h⟩

end Sys2Proof
end

section
/-! PROOFS of the family `other`, the encoding: the decoder undoes the encoder, and the encoder the decoder (30_encoding.md R64 to R74). -/

namespace Sys2Proof

/-! ### The fields of an encoded word 0 -/

theorem flagsOfNat_flagsToNat (f : XferFlags) : flagsOfNat (flagsToNat f) = f := by
  obtain ⟨addr10, reg16, nostop, nostart⟩ := f
  revert addr10 reg16 nostop nostart
  decide

theorem flagsToNat_lt (f : XferFlags) : flagsToNat f < 16 := by
  have bit (c : Bool) : c.toNat < 2 := c.toNat_lt
  have := bit f.addr10
  have := bit f.reg16
  have := bit f.nostop
  have := bit f.nostart
  unfold flagsToNat
  omega

theorem wordOf_toNat {n : Nat} (h : n < 4294967296) : (wordOf n).toNat = n := by
  rw [wordOf, BitVec.toNat_ofNat, Nat.mod_eq_of_lt h]

section
variable {op b addr flags reg : Nat}

theorem fields_i2cWord0 (hop : op < 16) (hb : b < 16) (haddr : addr < 128) (hflags : flags < 16) (hreg : reg < 256) :
    let w := i2cWord0 op b addr flags reg
    field w 7 4 = b ∧ field w 14 8 = addr ∧ field w 15 15 = 0 ∧ field w 19 16 = flags ∧ field w 27 20 = reg ∧ field w 31 28 = 0 := by
  simp only [field, i2cWord0, wordOf, BitVec.toNat_ofNat]
  omega

theorem fields_control (hop : op < 16) (hb : b < 16) : field (i2cWord0 op b 0 0 0) 31 8 = 0 ∧ field (i2cWord0 op b 0 0 0) 7 4 = b := by
  simp only [field, i2cWord0, wordOf, BitVec.toNat_ofNat]
  omega

theorem fields_sfrWord0 {r byte : Nat} (hop : op < 16) (hr : r < 16) (hbyte : byte < 256) :
    let w := sfrWord0 op r byte
    field w 7 4 = r ∧ field w 15 8 = byte ∧ field w 31 16 = 0 := by
  simp only [field, sfrWord0, wordOf, BitVec.toNat_ofNat]
  omega

theorem fields_sfrWord0_plain {r : Nat} (hop : op < 16) (hr : r < 16) :
    field (sfrWord0 op r 0) 31 8 = 0 ∧ field (sfrWord0 op r 0) 7 4 = r := by
  simp only [field, sfrWord0, wordOf, BitVec.toNat_ofNat]
  omega

/-! ### Each layout read back (30_encoding.md R64, R65, R66) -/

theorem decodeControl_word (mk : Nat → Instr) (hop : op < 16) (hb : b < 16) :
    decodeControl (i2cWord0 op b 0 0 0) mk = .ok (mk b) := by
  obtain ⟨rest, idx⟩ := fields_control hop hb
  simp [decodeControl, rest, idx]

variable {len buf : Nat}

theorem decodeBytes_words (mk : Nat → Addr7 → XferFlags → Nat → Nat → Instr) (a : Addr7) (f : XferFlags) (hop : op < 16) (hb : b < 16)
    (hlen : len < 4294967296) (hbuf : buf < 4294967296) :
    decodeBytes { w0 := i2cWord0 op b a.toNat (flagsToNat f) 0, w1 := wordOf len, w2 := wordOf buf } mk = .ok (mk b a f len buf) := by
  obtain ⟨idx, adr, bit15, flg, regz, top⟩ := fields_i2cWord0 hop hb a.isLt (flagsToNat_lt f) (reg := 0) (by decide)
  simp [decodeBytes, transferBitsOk, idx, adr, bit15, flg, regz, top, flagsOfNat_flagsToNat, wordOf_toNat hlen, wordOf_toNat hbuf]

theorem decodeRegs_words (mk : Nat → Addr7 → Byte → XferFlags → Nat → Nat → Instr) (a : Addr7) (v : Byte) (f : XferFlags) (hop : op < 16)
    (hb : b < 16) (hlen : len < 4294967296) (hbuf : buf < 4294967296) :
    decodeRegs { w0 := i2cWord0 op b a.toNat (flagsToNat f) v.toNat, w1 := wordOf len, w2 := wordOf buf } mk =
      .ok (mk b a v f len buf) := by
  obtain ⟨idx, adr, bit15, flg, regv, top⟩ := fields_i2cWord0 hop hb a.isLt (flagsToNat_lt f) v.isLt
  simp [decodeRegs, transferBitsOk, idx, adr, bit15, flg, regv, top, flagsOfNat_flagsToNat, wordOf_toNat hlen, wordOf_toNat hbuf]

end

/-! ### The operands of a decoded command fit (30_encoding.md R66, R73) -/

theorem wordFits_toNat (w : Word) : wordFits w.toNat = true := decide_eq_true w.isLt

theorem idxFits_field (w : Word) : idxFits (field w 7 4) = true := decide_eq_true (field_lt w 7 4)

theorem byteFits_field (w : Word) : byteFits (field w 15 8) = true := decide_eq_true (field_lt w 15 8)

theorem wordOf_toNat_self (w : Word) : wordOf w.toNat = w := wordOf_eq_of_toNat rfl

/-- What `EncodeOfDecode` says of the operands, `n` the number of words of the command. -/
def OperandsKept (d : Desc) (i : Instr) (n : Nat) : Prop :=
  i.wellFormed = true ∧ (3 ≤ n → (encode i).w1 = d.w1 ∧ (encode i).w2 = d.w2) ∧ (4 ≤ n → (encode i).w3 = d.w3) ∧
    (5 ≤ n → (encode i).w4 = d.w4)

section
variable {d : Desc} {i : Instr}

theorem operands_of_decodeControl {mk : Nat → Instr} (fits : ∀ b, (mk b).wellFormed = idxFits b)
    (h : decodeControl d.w0 mk = .ok i) : OperandsKept d i 1 := by
  unfold decodeControl at h
  split at h <;> cases h
  exact ⟨(fits _).trans (idxFits_field d.w0), by omega, by omega, by omega⟩

theorem operands_of_decodeBytes {mk : Nat → Addr7 → XferFlags → Nat → Nat → Instr}
    (fits : ∀ b a f len buf, (mk b a f len buf).wellFormed = (idxFits b && wordFits len && wordFits buf))
    (words : ∀ b a f len buf, (encode (mk b a f len buf)).w1 = wordOf len ∧ (encode (mk b a f len buf)).w2 = wordOf buf)
    (h : decodeBytes d mk = .ok i) : OperandsKept d i 3 := by
  unfold decodeBytes at h
  split_ifs at h
  cases h
  simp [OperandsKept, fits, words, idxFits_field, wordFits_toNat, wordOf_toNat_self]

theorem operands_of_decodeRegs {mk : Nat → Addr7 → Byte → XferFlags → Nat → Nat → Instr}
    (fits : ∀ b a v f len buf, (mk b a v f len buf).wellFormed = (idxFits b && wordFits len && wordFits buf))
    (words : ∀ b a v f len buf, (encode (mk b a v f len buf)).w1 = wordOf len ∧ (encode (mk b a v f len buf)).w2 = wordOf buf)
    (h : decodeRegs d mk = .ok i) : OperandsKept d i 3 := by
  unfold decodeRegs at h
  split_ifs at h
  cases h
  simp [OperandsKept, fits, words, idxFits_field, wordFits_toNat, wordOf_toNat_self]

theorem operands_of_decodePush (h : decodePush d = .ok i) : OperandsKept d i 1 := by
  unfold decodePush at h
  split at h <;> cases h
  exact ⟨idxFits_field d.w0, by omega, by omega, by omega⟩

theorem operands_of_decodeSfrRead (h : decodeSfrRead d = .ok i) : OperandsKept d i 4 := by
  unfold decodeSfrRead at h
  split at h <;> cases h
  simp [OperandsKept, Instr.wellFormed, encode, idxFits_field, wordFits_toNat, wordOf_toNat_self]

theorem operands_of_decodeSfrUntil (h : decodeSfrUntil d = .ok i) : OperandsKept d i 5 := by
  unfold decodeSfrUntil at h
  split at h <;> cases h
  simp [OperandsKept, Instr.wellFormed, encode, idxFits_field, byteFits_field, wordFits_toNat, wordOf_toNat_self]

/-- One case for each operation code, the layout it has. -/
theorem operands_of_decode (h : decode d = .ok i) : OperandsKept d i (descLength (field d.w0 3 0)) := by
  unfold decode at h
  split at h
  case h_1 op | h_2 op | h_3 op => rw [op]; exact operands_of_decodeControl (fun _ => rfl) h
  case h_4 op | h_5 op => rw [op]; exact operands_of_decodeBytes (fun _ _ _ _ _ => rfl) (fun _ _ _ _ _ => ⟨rfl, rfl⟩) h
  case h_6 op | h_7 op => rw [op]; exact operands_of_decodeRegs (fun _ _ _ _ _ _ => rfl) (fun _ _ _ _ _ _ => ⟨rfl, rfl⟩) h
  case h_8 op => rw [op]; exact operands_of_decodePush h
  case h_9 op => rw [op]; exact operands_of_decodeSfrRead h
  case h_10 op => rw [op]; exact operands_of_decodeSfrUntil h
  case h_11 => cases h

end

/-- Settles O1: the operation code chooses the layout, and each layout reads its own fields back. -/
theorem decodeOfEncode : Obligations.DecodeOfEncode := by
  intro i wf
  cases i
  all_goals
    simp only [Instr.wellFormed, Bool.and_eq_true, idxFits, wordFits, byteFits, decide_eq_true_eq, and_assoc] at wf
    unfold decode
  case i2cInit b =>
    rw [show field (encode (.i2cInit b)).w0 3 0 = 1 from Laws.OpField.i2cInit b]
    exact decodeControl_word _ (by decide) wf
  case i2cAcquire b =>
    rw [show field (encode (.i2cAcquire b)).w0 3 0 = 2 from Laws.OpField.i2cAcquire b]
    exact decodeControl_word _ (by decide) wf
  case i2cRelease b =>
    rw [show field (encode (.i2cRelease b)).w0 3 0 = 3 from Laws.OpField.i2cRelease b]
    exact decodeControl_word _ (by decide) wf
  case i2cRead b a f len buf =>
    obtain ⟨hb, hlen, hbuf⟩ := wf
    rw [show field (encode (.i2cRead b a f len buf)).w0 3 0 = 4 from Laws.OpField.i2cRead b a f len buf]
    exact decodeBytes_words _ a f (by decide) hb hlen hbuf
  case i2cWrite b a f len buf =>
    obtain ⟨hb, hlen, hbuf⟩ := wf
    rw [show field (encode (.i2cWrite b a f len buf)).w0 3 0 = 5 from Laws.OpField.i2cWrite b a f len buf]
    exact decodeBytes_words _ a f (by decide) hb hlen hbuf
  case i2cReadRegs b a v f len buf =>
    obtain ⟨hb, hlen, hbuf⟩ := wf
    rw [show field (encode (.i2cReadRegs b a v f len buf)).w0 3 0 = 6 from Laws.OpField.i2cReadRegs b a v f len buf]
    exact decodeRegs_words _ a v f (by decide) hb hlen hbuf
  case i2cWriteRegs b a v f len buf =>
    obtain ⟨hb, hlen, hbuf⟩ := wf
    rw [show field (encode (.i2cWriteRegs b a v f len buf)).w0 3 0 = 7 from Laws.OpField.i2cWriteRegs b a v f len buf]
    exact decodeRegs_words _ a v f (by decide) hb hlen hbuf
  case sfrPush r v =>
    rw [show field (encode (.sfrPush r v)).w0 3 0 = 8 from Laws.OpField.sfrPush r v]
    obtain ⟨idx, byte, top⟩ := fields_sfrWord0 (op := 8) (by decide) wf v.isLt
    simp [decodePush, encode, idx, byte, top]
  case sfrRead r n buf timeout =>
    obtain ⟨hr, hn, hbuf, htimeout⟩ := wf
    rw [show field (encode (.sfrRead r n buf timeout)).w0 3 0 = 9 from Laws.OpField.sfrRead r n buf timeout]
    obtain ⟨rest, idx⟩ := fields_sfrWord0_plain (op := 9) (by decide) hr
    simp [decodeSfrRead, encode, rest, idx, wordOf_toNat hn, wordOf_toNat hbuf, wordOf_toNat htimeout]
  case sfrReadUntil r patlen max buf timeout pat =>
    obtain ⟨hr, hpatlen, hmax, hbuf, htimeout, hpat⟩ := wf
    rw [show field (encode (.sfrReadUntil r patlen max buf timeout pat)).w0 3 0 = 10 from
      Laws.OpField.sfrReadUntil r patlen max buf timeout pat]
    obtain ⟨idx, byte, top⟩ := fields_sfrWord0 (op := 10) (by decide) hr hpatlen
    simp [decodeSfrUntil, encode, idx, byte, top, wordOf_toNat hmax, wordOf_toNat hbuf, wordOf_toNat htimeout, wordOf_toNat hpat]

/-- Settles O2: word 0 by `word0_of_decode`, the operand words by the layout of the operation code. -/
theorem encodeOfDecode : Obligations.EncodeOfDecode := by
  intro d i h
  obtain ⟨fits, two, three, four⟩ := operands_of_decode h
  exact ⟨fits, word0_of_decode h, two, three, four⟩

/-- Settles O4: the closed words by evaluation, and those with operand words by `DecodeOfEncode` of the command. -/
theorem workedEncodings : Obligations.WorkedEncodings := by
  have fromWords (i : Instr) (d : Desc) (wf : i.wellFormed = true) (words : encode i = d) : decode d = .ok i ∧ i.word0 = d.w0 := by
    subst words
    exact ⟨decodeOfEncode i wf, rfl⟩
  have fits (w : Word) : wordFits w.toNat = true := wordFits_toNat w
  refine ⟨by decide, by decide, by decide, fun len buf => ?_, fun len buf => ?_, fun len buf => ?_, fun len buf => ?_, by decide,
    fun n buf t => ?_, fun max buf t pat => ?_⟩
  all_goals
    refine fromWords _ _ (by simp [Instr.wellFormed, idxFits, byteFits, fits]) ?_
    simp only [encode, wordOf_toNat_self]
    rfl

/-- Settles O5: a fact about the 128 addresses. -/
theorem addressByteIsShiftedAddress : Obligations.AddressByteIsShiftedAddress := by
  unfold Obligations.AddressByteIsShiftedAddress
  decide

end Sys2Proof
end

section
/-! PROOFS of the family `other`, the facts the rest of them build on: what one micro-step does to the unit it works on, how issuing a
command ends, and the induction over what every agent's turn keeps. -/

namespace Sys2Proof.Machine

/-! ### What a micro-step does to its unit -/

/-- The reader a micro-step works on. -/
def Micro.reader? : Micro → Option Nat
  | .enterRead r | .readLoop r _ _ _ _ | .readAll r _ _ _ | .untilLoop r _ _ _ _ _ | .leaveRead r => some r
  | _ => none

/-- The micro-steps that put an event on the wire (00_scope.md R19). -/
def Micro.emits : Micro → Bool
  | .gotStart _ _ _ _ _ _ | .gotAddr _ _ _ _ _ | .gotSend _ _ _ | .gotRecv _ _ _ _ | .noteStop _ | .noteRecover _ => true
  | _ => false

/-- The micro-steps that read an answer of the environment which may be lost arbitration (40_i2c_handshake.md R86 to R89). -/
def Micro.mayLose : Micro → Bool
  | .gotStart _ _ _ _ _ _ | .gotAddr _ _ _ _ _ | .gotSend _ _ _ | .gotRecv _ _ _ _ => true
  | _ => false

/-- What a micro-step of task `t` can make of its bus. -/
inductive BusEdit (t : Nat) : Micro → Bus → Bus → Prop where
  | resetLock (b : Nat) (u : Bus) : BusEdit t (.resetLock b) u { u with lock := .free, waiters := [] }
  | clock (b : Nat) (on : Bool) (u : Bus) : BusEdit t (.clock b on) u { u with clkEn := on }
  | pins (b : Nat) (p : Pins) (u : Bus) : BusEdit t (.pins b p) u { u with ctl := { u.ctl with pins := p } }
  | enable (b : Nat) (on : Bool) (u : Bus) : BusEdit t (.enable b on) u { u with ctl := { u.ctl with pe := on } }
  | setCcr (b : Nat) (u : Bus) : BusEdit t (.setCcr b) u { u with ctl := { u.ctl with ccr := u.handle.ccrCfg } }
  | setFs (b : Nat) (u : Bus) : BusEdit t (.setFs b) u { u with ctl := { u.ctl with fs := decide (u.handle.speed = .fast) } }
  | drawBusy (b : Nat) (v : Bool) (u : Bus) : BusEdit t (.drawBusy b) u { u with ctl := { u.ctl with busy := v } }
  | setPhase (b : Nat) (p : Phase) (u : Bus) : BusEdit t (.setPhase b p) u { u with phase := p }
  | setInitDone (b : Nat) (u : Bus) : BusEdit t (.setInitDone b) u { u with initDone := true }
  | joinWaiters (b : Nat) (u : Bus) : BusEdit t (.joinWaiters b) u { u with waiters := setInsert t u.waiters }
  | takeLock (b : Nat) (u : Bus) : u.lock = .free →
    BusEdit t (.takeLock b) u { u with lock := .owned t, waiters := setErase t u.waiters }
  | freeLock (b : Nat) (u : Bus) : BusEdit t (.freeLock b) u { u with lock := .free }
  | setAckEn (b : Nat) (k : AckBit) (u : Bus) : BusEdit t (.setAckEn b k) u { u with ctl := { u.ctl with ackEn := decide (k = .ack) } }
  | closeBus (b : Nat) (u : Bus) :
    BusEdit t (.closeBus b) u { u with ctl := { u.ctl with master := false, busy := false }, phase := .idle }
  /-- An ask draws the environment's next answer. -/
  | draw (m : Micro) (a : Answer) (rest : List Answer) (ev : EventFlags) (u : Bus) : m.asks? ≠ none → u.answers = a :: rest →
    a ≠ .wedged → BusEdit t m u { u with answers := rest, ctl := { u.ctl with ev := ev } }
  /-- An event that leaves MASTER as it is. -/
  | emit (m : Micro) (e : WireEvent) (ev : EventFlags) (u : Bus) : m.emits = true →
    BusEdit t m u { u with trace := u.trace ++ [e], ctl := { u.ctl with ev := ev } }
  /-- A START from the idle bus. -/
  | start (b : Nat) (addr : Addr7) (d : Dir) (retries : Nat) (a : Answer) (u : Bus) : BusEdit t (.gotStart b addr d retries true a) u
    { u with trace := u.trace ++ [.start], ctl := { u.ctl with ev := {}, busy := true, master := true } }
  /-- Lost arbitration. -/
  | lose (m : Micro) (u : Bus) : m.mayLose = true →
    BusEdit t m u { u with trace := u.trace ++ [.lost], phase := .idle, ctl := { u.ctl with ev := {}, master := false } }

/-- What a micro-step of task `t` that goes on can make of the state. -/
inductive MicroEdit (t : Nat) (m : Micro) (s : State) : State → Prop where
  | nothing : MicroEdit t m s s
  | bus (b : Nat) (u : Bus) : m.bus? = some b → BusEdit t m (s.bus b) u → MicroEdit t m s (s.setBus b u)
  | free (b : Nat) (u : Bus) : m = .drawBusy b → BusEdit t m (s.bus b) u → MicroEdit t m s ((s.setBus b u).setDraws (s.draws + 1))
  | reader (r k : Nat) (c : Option Nat) : m.reader? = some r →
    MicroEdit t m s (s.setReader r { s.reader r with q := (s.reader r).q.drop k, consumer := c })
  | store (a : Nat) (v : Byte) : m = .memStore a v → MicroEdit t m s (s.setMem (s.mem.write a v))
  | block : m = .pmBlock → MicroEdit t m s (s.setPm (s.pmDeepBlocks + 1))
  | unblock : m = .pmUnblock → MicroEdit t m s (s.setPm (s.pmDeepBlocks - 1))

/-- A second update of one bus takes the place of the first, whether the bus exists or not. -/
theorem setBus_modBus (s : State) (b : Nat) (u : Bus) (g : Bus → Bus) : (s.setBus b u).modBus b g = s.setBus b (g u) := by
  by_cases hb : b < s.buses.length
  · simp [hb]
  · simp [setBus_oob hb]

theorem clearFlags_emit (s : State) (b : Nat) (e : WireEvent) : (s.clearFlags b).emit b e =
    s.setBus b { s.bus b with trace := (s.bus b).trace ++ [e], ctl := { (s.bus b).ctl with ev := {} } } :=
  setBus_modBus s b _ fun u => { u with trace := u.trace ++ [e] }

theorem lose_eq (s : State) (b : Nat) : s.lose b = s.setBus b { s.bus b with
    trace := (s.bus b).trace ++ [.lost], phase := .idle, ctl := { (s.bus b).ctl with ev := {}, master := false } } := by
  rw [State.lose, clearFlags_emit]
  exact setBus_modBus s b _ fun u => { u with phase := .idle, ctl := { u.ctl with master := false } }

theorem started_first (s : State) (b : Nat) : s.started b true = s.setBus b { s.bus b with
    trace := (s.bus b).trace ++ [.start], ctl := { (s.bus b).ctl with ev := {}, busy := true, master := true } } := by
  rw [State.started, if_pos rfl, clearFlags_emit]
  exact setBus_modBus s b _ fun u => { u with ctl := { u.ctl with busy := true, master := true } }

theorem started_again (s : State) (b : Nat) : s.started b false =
    s.setBus b { s.bus b with trace := (s.bus b).trace ++ [.restart], ctl := { (s.bus b).ctl with ev := {} } } :=
  clearFlags_emit s b .restart

variable {t : Nat} {m : Micro} {s s' : State}

/-- An ask that goes on draws an answer. -/
theorem ask_edit {b : Nat} {p : Prim} {k : Answer → List Micro} (hb : m.bus? = some b) (hm : m.asks? ≠ none)
    (h : (ask b p k s).next? = some s') : MicroEdit t m s s' := by
  rcases ask_cases b p k s with held | ⟨a, rest, answers, allowed, drawn⟩
  · rw [held] at h; cases h
  · rw [drawn] at h
    cases h
    exact .bus b _ hb (.draw m a rest _ _ hm answers (by rintro rfl; cases p <;> cases allowed))

/-- An answer read, its event on the wire. -/
theorem emit_edit {b : Nat} (hb : m.bus? = some b) (hm : m.emits = true) (e : WireEvent) :
    MicroEdit t m s ((s.clearFlags b).emit b e) := by
  rw [clearFlags_emit]
  exact .bus b _ hb (.emit m e {} _ hm)

/-- Lost arbitration. -/
theorem lose_edit {b : Nat} (hb : m.bus? = some b) (hm : m.mayLose = true) : MicroEdit t m s (s.lose b) := by
  rw [lose_eq]
  exact .bus b _ hb (.lose m _ hm)

/-- The first byte of a queue taken. -/
theorem taken_edit {r : Nat} {v : Byte} {rest : List Byte} (hm : m.reader? = some r) (hq : (s.reader r).q = v :: rest) :
    MicroEdit t m s (s.modReader r fun d => { d with q := rest }) := by
  have : rest = (s.reader r).q.drop 1 := by rw [hq]; rfl
  rw [modReader_eq, this]
  exact .reader r 1 _ hm

/-- A micro-step that goes on makes one edit of one unit. -/
theorem microStep_edit (h : (microStep t m s).next? = some s') : MicroEdit t m s s' := by
  cases m <;> simp only [microStep] at h
  case resetLock b => cases h; exact .bus b _ rfl (.resetLock b _)
  case clock b on => cases h; exact .bus b _ rfl (.clock b on _)
  case pins b p => cases h; exact .bus b _ rfl (.pins b p _)
  case enable b on => cases h; exact .bus b _ rfl (.enable b on _)
  case setCcr b => cases h; exact .bus b _ rfl (.setCcr b _)
  case setFs b => cases h; exact .bus b _ rfl (.setFs b _)
  case drawBusy b => cases h; exact .free b _ rfl (.drawBusy b _ _)
  case setPhase b p => cases h; exact .bus b _ rfl (.setPhase b p _)
  case setInitDone b => cases h; exact .bus b _ rfl (.setInitDone b _)
  case joinWaiters b => cases h; exact .bus b _ rfl (.joinWaiters b _)
  case freeLock b => cases h; exact .bus b _ rfl (.freeLock b _)
  case setAckEn b k => cases h; exact .bus b _ rfl (.setAckEn b k _)
  case closeBus b => cases h; exact .bus b _ rfl (.closeBus b _)
  case noteStop b => cases h; exact .bus b _ rfl (.emit _ .stop (s.bus b).ctl.ev _ rfl)
  case noteRecover b => cases h; exact .bus b _ rfl (.emit _ (.recover s.cfg.recoveryPulses) (s.bus b).ctl.ev _ rfl)
  case pmBlock => cases h; exact .block rfl
  case pmUnblock => cases h; exact .unblock rfl
  case leaveRead r => cases h; exact .reader r 0 none rfl
  case askRecover | askStart | askAddr | askSend | askRecv | askStop => exact ask_edit rfl (by simp [Micro.asks?]) h
  case takeLock b =>
    unfold microTakeLock at h
    split at h <;> cases h
    exact .bus b _ rfl (.takeLock b _ ‹_›)
  case gotStart b addr d retries first a =>
    unfold microGotStart at h
    split at h <;> cases h
    · cases first
      · exact emit_edit rfl rfl .restart
      · rw [started_first]; exact .bus b _ rfl (.start b addr d retries _ _)
    · exact lose_edit rfl rfl
  case gotAddr b addr d retries a =>
    unfold microGotAddr at h
    split at h
    case h_2 => split at h <;> cases h <;> exact emit_edit rfl rfl _
    case h_3 => cases h; exact lose_edit rfl rfl
    case h_1 | h_4 => cases h; exact emit_edit rfl rfl _
    case h_5 => cases h
  case gotSend b v a =>
    unfold microGotSend at h
    split at h <;> cases h
    case h_3 => exact lose_edit rfl rfl
    all_goals exact emit_edit rfl rfl _
  case gotRecv b k dst a =>
    unfold microGotRecv at h
    split at h <;> cases h
    case h_2 => exact lose_edit rfl rfl
    all_goals exact emit_edit rfl rfl _
  case memStore a v =>
    unfold microMemStore at h
    split at h <;> cases h
    exact .store a v rfl
  case enterRead r =>
    unfold microEnterRead at h
    split at h <;> cases h
    exact .reader r 0 (some t) rfl
  case readLoop r n buf got deadline =>
    unfold microReadLoop at h
    split at h
    · split at h
      · cases h
        exact taken_edit rfl ‹_›
      · split at h <;> cases h
        exact .nothing
    · cases h; exact .nothing
  case readAll r n buf deadline =>
    unfold microReadAll at h
    split at h
    · cases h; exact .reader r n _ rfl
    · split at h <;> cases h
      exact .nothing
  case untilLoop r max buf deadline pat got =>
    unfold microUntilLoop at h
    split at h
    · cases h
      exact taken_edit rfl ‹_›
    · split at h <;> cases h
      exact .nothing
  case recoverIfBusy | armUntil | ret | holdForever => cases h <;> exact .nothing
  case waitNotBusy | genStart | busFail | abort | recvLoop | sendLoop | loadSend | armRead =>
    simp only [microWaitNotBusy, microGenStart, microBusFail, microAbort, microRecvLoop, microSendLoop, microLoadSend, microArmRead] at h
    split at h <;> cases h <;> exact .nothing
  case loadPattern =>
    unfold microLoadPattern at h
    split at h
    · cases h; exact .nothing
    · split at h <;> cases h
      exact .nothing
  case untilTest =>
    unfold microUntilTest at h
    split at h
    · cases h; exact .nothing
    · split at h <;> cases h <;> exact .nothing

end Sys2Proof.Machine
end

section
/-! PROOFS of the family `other`, what every step keeps: host memory, queues, results and waiters in their form (20_memory.md R49, R58;
10_state.md R24, R25, R28, R38), what never changes, and what is never taken back. -/

namespace Sys2Proof.Machine

/-! ### How issuing a command ends -/

/-- A command that answers a next state has raised a fault, has run a turn's micro-steps after checks that all hold, or is a push. -/
theorem exec_cases {i : Instr} {s s' : State} (h : exec i s = .next s') :
    (∃ c g, s' = { s with fault := some ⟨c, g, i.word0⟩ }) ∨
    (∃ t n, s.issuer = some (.task t, n) ∧ commandFault s (.task t) i = none ∧ s' = runCode t i n (codeOf i) s) ∨
    ∃ g n r v, s.issuer = some (.uartRx g, n) ∧ i = .sfrPush r v ∧ r < s.readers.length ∧ s' = s.push r v g := by
  have noFault : s.fault = none := by
    cases hf : s.fault with
    | none => rfl
    | some f => rw [exec_halted i (by simp [hf])] at h; cases h
  cases hi : i.fromIrq with
  | true =>
    obtain ⟨r, v, rfl⟩ := i.fromIrq_iff.mp hi
    change issueIrq (.sfrPush r v) (s.readerExists r) (fun g s => s.push r v g) s = .next s' at h
    rcases issueIrq_next h with ⟨c, g, rfl⟩ | ⟨g, n, issuer, exists_, rfl⟩
    · exact .inl ⟨c, g, raise_of_none s noFault⟩
    · exact .inr (.inr ⟨g, n, r, v, issuer, rfl, of_decide_eq_true exists_, rfl⟩)
  | false =>
    rw [exec_taskCommand s hi] at h
    rcases issueTask_next h with ⟨c, g, rfl⟩ | ⟨t, n, issuer, index, checks, rfl⟩
    · exact .inl ⟨c, g, raise_of_none s noFault⟩
    · refine .inr (.inl ⟨t, n, issuer, ?_, rfl⟩)
      rw [← firstFault_checksOf, checksOf_cons, firstFault_none_iff]
      exact List.forall_mem_cons.mpr ⟨index, checks⟩

/-! ### The inductions over a task's turn, and over the turns of all agents -/

/-- What every micro-step, the end of a command, parking one and a fault record keep. -/
structure TurnKeeps (P : State → Prop) : Prop where
  edit : ∀ {t m s s'}, MicroEdit t m s s' → P s → P s'
  finish : ∀ {t res s}, P s → P (s.complete t res)
  setCmd : ∀ {t c s}, P s → P (s.setTask t { s.task t with cmd := c })
  fault : ∀ {f s}, P s → P { s with fault := f }

/-- And what the turns of the other agents keep, and the end of a turn. -/
structure StepKeeps (P : State → Prop) : Prop extends TurnKeeps P where
  push : ∀ {r v g s}, P s → P (s.push r v g)
  answer : ∀ {b a s}, P s → P (s.addAnswer b a)
  busy : ∀ {b v s}, P s → P (s.envBusy b v)
  tick : ∀ {d s}, P s → P (s.tick d)
  store : ∀ {a v s}, P s → P (s.setMem (s.mem.write a v))
  endTurn : ∀ {us n s}, P s → P { s with turns := us, draws := n }

variable {P : State → Prop} {s s' : State}

theorem TurnKeeps.raiseInside (K : TurnKeeps P) {c : FaultCode} {t : Nat} {w : Word} (hP : P s) : P (s.raiseInside c t w) := by
  unfold State.raiseInside State.raise
  split
  · exact K.fault (K.setCmd hP)
  · exact K.setCmd hP

theorem TurnKeeps.runCode (K : TurnKeeps P) {t n : Nat} {i : Instr} {code : List Micro} (hP : P s) : P (runCode t i n code s) := by
  refine runCode_keeps (P := P) (R := P) (Q := fun _ => True) (fun m s _ hP => ?_) (fun s code _ hP => K.setCmd hP) n code s
    (fun _ _ => trivial) hP
  unfold microKeeps
  split
  case h_1 hs | h_2 hs => exact ⟨K.edit (microStep_edit (by rw [hs]; rfl)) hP, fun _ _ => trivial⟩
  case h_3 => trivial
  case h_4 hs =>
    obtain ⟨res, -, rfl⟩ := microStep_done hs
    exact K.finish hP
  case h_5 => exact K.raiseInside hP

theorem endTurn_eq (s : State) : ∃ us n, s.endTurn = { s with turns := us, draws := n } := by
  unfold State.endTurn
  split
  · exact ⟨_, _, rfl⟩
  · exact ⟨s.turns, _, rfl⟩

theorem StepKeeps.step (K : StepKeeps P) (h : step s = .next s') (hP : P s) : P s' := by
  obtain ⟨-, s₁, moves, rfl⟩ := step_moves h
  obtain ⟨us, n, ended⟩ := endTurn_eq s₁
  rw [ended]
  refine K.endTurn ?_
  cases moves with
  | idle => exact hP
  | fault c g w => exact K.fault hP
  | resume t n c ht hl hc => exact K.runCode hP
  | issue t n d i ht hl hc hd hi hcf => exact K.runCode hP
  | push g r d v ht hd hr => exact K.push hP
  | answer b a ht => exact K.answer hP
  | busy b v ht => exact K.busy hP
  | clock d ht => exact K.tick hP
  | store a v ht =>
    unfold State.hostStore
    split
    · exact K.store hP
    · exact hP

/-! ### Lists with one element set -/

section
variable {α β : Type} {l : List α} {i : Nat} {d y : α}

theorem forall_mem_set {p : α → Prop} (h : ∀ x ∈ l, p x) (hy : p (l.getD i d) → p y) : ∀ x ∈ l.set i y, p x := by
  intro x hx
  by_cases hi : i < l.length
  · rcases List.mem_or_eq_of_mem_set hx with hx | rfl
    · exact h x hx
    · refine hy (h _ ?_)
      rw [List.getD_eq_getElem l d hi]
      exact List.getElem_mem hi
  · rw [List.set_eq_of_length_le (Nat.le_of_not_lt hi)] at hx
    exact h x hx

theorem map_set_of_eq {f : α → β} (hy : f y = f (l.getD i d)) : (l.set i y).map f = l.map f := by
  rw [List.map_set, hy, ← List.map_set, set_getD_self]

/-- A relation that every element bears to itself holds from place to place where one element is set to one it is related to. -/
theorem getD_set_related {r : α → α → Prop} (refl : ∀ x, r x x) (hy : r (l.getD i d) y) (j : Nat) : r (l.getD j d) ((l.set i y).getD j d) := by
  by_cases hj : i = j
  · subst hj
    by_cases hi : i < l.length
    · rwa [getD_set_self l i y d hi]
    · rw [List.set_eq_of_length_le (Nat.le_of_not_lt hi)]
      exact refl _
  · rw [getD_set_ne l i j y d hj]
    exact refl _

end

/-! ### What an edit of a bus keeps -/

theorem risingFrom_cons {x : Nat} {xs : List Nat} : risingFrom (x :: xs) = true ↔ (∀ y ∈ xs, x < y) ∧ risingFrom xs = true := by
  simp [risingFrom]

theorem mem_setInsert {t y : Nat} {xs : List Nat} (h : y ∈ setInsert t xs) : y = t ∨ y ∈ xs := by
  induction xs with
  | nil => exact .inl (List.mem_singleton.mp h)
  | cons x xs ih =>
    unfold setInsert at h
    split_ifs at h
    · exact List.mem_cons.mp h
    · exact .inr h
    · rcases List.mem_cons.mp h with rfl | h
      · exact .inr (List.mem_cons_self ..)
      · exact (ih h).imp id (List.mem_cons_of_mem x)

theorem risingFrom_setInsert {t : Nat} {xs : List Nat} (h : risingFrom xs = true) : risingFrom (setInsert t xs) = true := by
  induction xs with
  | nil => rfl
  | cons x xs ih =>
    obtain ⟨below, rising⟩ := risingFrom_cons.mp h
    unfold setInsert
    split_ifs with less same
    · refine risingFrom_cons.mpr ⟨fun y hy => ?_, h⟩
      rcases List.mem_cons.mp hy with rfl | hy
      · exact less
      · exact less.trans (below y hy)
    · exact h
    · refine risingFrom_cons.mpr ⟨fun y hy => ?_, ih rising⟩
      rcases mem_setInsert hy with rfl | hy
      · omega
      · exact below y hy

theorem risingFrom_setErase {t : Nat} {xs : List Nat} (h : risingFrom xs = true) : risingFrom (setErase t xs) = true := by
  induction xs with
  | nil => rfl
  | cons x xs ih =>
    obtain ⟨below, rising⟩ := risingFrom_cons.mp h
    unfold setErase at ih ⊢
    rw [List.filter_cons]
    split
    · exact risingFrom_cons.mpr ⟨fun y hy => below y (List.mem_of_mem_filter hy), ih rising⟩
    · exact ih rising

section
variable {t : Nat} {m : Micro} {u v : Bus}

theorem BusEdit.handle_eq (h : BusEdit t m u v) : v.handle = u.handle := by cases h <;> rfl

theorem BusEdit.trace_grows (h : BusEdit t m u v) : u.trace <+: v.trace := by
  cases h
  case emit | start | lose => exact List.prefix_append ..
  all_goals exact List.prefix_rfl

theorem BusEdit.initDone_stays (h : BusEdit t m u v) (hu : u.initDone = true) : v.initDone = true := by
  cases h
  case setInitDone => rfl
  all_goals exact hu

theorem BusEdit.waiters_rising (h : BusEdit t m u v) (hu : risingFrom u.waiters = true) : risingFrom v.waiters = true := by
  cases h
  case resetLock => rfl
  case joinWaiters => exact risingFrom_setInsert hu
  case takeLock => exact risingFrom_setErase hu
  all_goals exact hu

/-- No ask draws the wedged answer (40_i2c_handshake.md R82). -/
theorem BusEdit.wedged_stays (h : BusEdit t m u v) (hu : u.answers.head? = some .wedged) : v.answers.head? = some .wedged := by
  cases h
  case draw a rest ev notWedged asks answers =>
    rw [answers] at hu
    exact absurd (Option.some.inj hu) notWedged
  all_goals exact hu

end

/-! ### The invariants, unit by unit -/

/-- What holds of every bus, where every edit of a bus keeps it, and a new answer and BUSY do. -/
theorem stepKeeps_buses {p : Bus → Prop} (edit : ∀ {t m u v}, BusEdit t m u v → p u → p v)
    (answer : ∀ {u as}, p u → p { u with answers := u.answers ++ as }) (busy : ∀ {u y}, p u → p { u with ctl := { u.ctl with busy := y } }) :
    StepKeeps fun s => ∀ u ∈ s.buses, p u where
  edit e h := by
    cases e with
    | bus b u hb e | free b u hm e => exact forall_mem_set h (edit e)
    | nothing | reader | store | block | unblock => exact h
  finish h := h
  setCmd h := h
  fault h := h
  push h := h
  answer h := forall_mem_set h answer
  busy h := by
    unfold State.envBusy
    split
    · exact h
    · exact forall_mem_set h busy
  tick h := h
  store h := h
  endTurn h := h

end Sys2Proof.Machine
end

section
/-! PROOFS of the family `other`, the machine as a whole: every invariant of one unit holds over every step, the parameters stay, and
what is recorded is never taken back. -/

namespace Sys2Proof.Machine

/-! ### Host memory, readers and tasks -/

theorem stepKeeps_memory {p : Memory → Prop} (write : ∀ {m a v}, p m → p (m.write a v)) : StepKeeps fun s => p s.mem where
  edit e h := by
    cases e with
    | store a v hm => exact write h
    | nothing | bus | free | reader | block | unblock => exact h
  finish h := h
  setCmd h := h
  fault h := h
  push h := h
  answer h := h
  busy h := by unfold State.envBusy; split <;> exact h
  tick h := h
  store h := write h
  endTurn h := h

/-- What holds of every reader, where taking bytes from the front, another consumer, a push and a result keep it. -/
theorem stepKeeps_readers {p : Reader → Prop} (take : ∀ {d k c}, p d → p { d with q := d.q.drop k, consumer := c })
    (push : ∀ {d v}, p d → p (pushByte v d)) (result : ∀ {d res}, p d → p { d with rxResults := res }) :
    StepKeeps fun s => ∀ d ∈ s.readers, p d where
  edit e h := by
    cases e with
    | reader r k c hr => exact forall_mem_set h take
    | nothing | bus | free | store | block | unblock => exact h
  finish h := h
  setCmd h := h
  fault h := h
  push h := forall_mem_set (forall_mem_set h push) result
  answer h := h
  busy h := by unfold State.envBusy; split <;> exact h
  tick h := h
  store h := h
  endTurn h := h

/-- What holds of every task, where the end of a command and another command in progress keep it. -/
theorem stepKeeps_tasks {p : Task → Prop} (finish : ∀ {k res}, p k → p (k.finish res)) (cmd : ∀ {k c}, p k → p { k with cmd := c }) :
    StepKeeps fun s => ∀ k ∈ s.tasks, p k where
  edit e h := by
    cases e <;> exact h
  finish h := forall_mem_set h finish
  setCmd h := forall_mem_set h cmd
  fault h := h
  push h := h
  answer h := h
  busy h := by unfold State.envBusy; split <;> exact h
  tick h := h
  store h := h
  endTurn h := h

theorem pushByte_bounded {d : Reader} {v : Byte} (h : d.q.length ≤ d.cap) : (pushByte v d).q.length ≤ (pushByte v d).cap := by
  unfold pushByte hasRoom
  split
  · simp_all
  · exact h

/-! ### What never changes, and what only grows, relative to a state before -/

@[simp] theorem pushByte_cap (v : Byte) (d : Reader) : (pushByte v d).cap = d.cap := by unfold pushByte; split <;> rfl
@[simp] theorem pushByte_consumer (v : Byte) (d : Reader) : (pushByte v d).consumer = d.consumer := by
  unfold pushByte; split <;> rfl
@[simp] theorem pushByte_rxResults (v : Byte) (d : Reader) : (pushByte v d).rxResults = d.rxResults := by
  unfold pushByte; split <;> rfl

/-- The parameters of `s₀`. -/
def State.sameParameters (s₀ s : State) : Prop :=
  s.cfg = s₀.cfg ∧ s.buses.map Bus.handle = s₀.buses.map Bus.handle ∧ s.readers.map Reader.cap = s₀.readers.map Reader.cap ∧
    s.tasks.map Task.prog = s₀.tasks.map Task.prog

variable {s₀ s s' : State}

section
variable (same : s₀.sameParameters s)
include same

theorem State.sameParameters.setBus {b : Nat} {u : Bus} (hu : u.handle = (s.bus b).handle) : s₀.sameParameters (s.setBus b u) := by
  obtain ⟨cfg, handles, caps, progs⟩ := same
  exact ⟨cfg, (map_set_of_eq hu).trans handles, caps, progs⟩

theorem State.sameParameters.setReader {r : Nat} {d : Reader} (hd : d.cap = (s.reader r).cap) : s₀.sameParameters (s.setReader r d) := by
  obtain ⟨cfg, handles, caps, progs⟩ := same
  exact ⟨cfg, handles, (map_set_of_eq hd).trans caps, progs⟩

theorem State.sameParameters.setTask {t : Nat} {k : Task} (hk : k.prog = (s.task t).prog) : s₀.sameParameters (s.setTask t k) := by
  obtain ⟨cfg, handles, caps, progs⟩ := same
  exact ⟨cfg, handles, caps, (map_set_of_eq hk).trans progs⟩

end

theorem stepKeeps_parameters (s₀ : State) : StepKeeps fun s => s₀.sameParameters s where
  edit e h := by
    cases e with
    | bus b u hb e | free b u hb e => exact h.setBus e.handle_eq
    | reader r k c hr => exact h.setReader rfl
    | nothing | store | block | unblock => exact h
  finish h := h.setTask rfl
  setCmd h := h.setTask rfl
  fault h := h
  push h := (h.setReader (pushByte_cap ..)).setReader rfl
  answer h := h.setBus rfl
  busy h := by
    unfold State.envBusy
    split
    · exact h
    · exact h.setBus rfl
  tick h := h
  store h := h
  endTurn h := h

/-- `v` has at least the events of `u`, and is initialised where `u` is. -/
def Bus.growsTo (u v : Bus) : Prop := u.trace <+: v.trace ∧ (u.initDone = true → v.initDone = true)

theorem Bus.growsTo.refl (u : Bus) : u.growsTo u := ⟨List.prefix_rfl, id⟩

theorem Bus.growsTo.trans {u v w : Bus} (h : u.growsTo v) (h' : v.growsTo w) : u.growsTo w :=
  ⟨h.1.trans h'.1, fun hu => h'.2 (h.2 hu)⟩

/-- Every bus has grown from `s₀`, and so have the results of every task. -/
def State.hasGrown (s₀ s : State) : Prop :=
  (∀ b, (s₀.bus b).growsTo (s.bus b)) ∧ ∀ t, (s₀.task t).results <+: (s.task t).results

section
variable (grown : s₀.hasGrown s)
include grown

theorem State.hasGrown.setBus {b : Nat} {u : Bus} (hu : (s.bus b).growsTo u) : s₀.hasGrown (s.setBus b u) :=
  ⟨fun c => (grown.1 c).trans (getD_set_related Bus.growsTo.refl hu c), grown.2⟩

theorem State.hasGrown.setTask {t : Nat} {k : Task} (hk : (s.task t).results <+: k.results) : s₀.hasGrown (s.setTask t k) :=
  ⟨grown.1, fun j => (grown.2 j).trans
    (getD_set_related (r := fun k l : Task => k.results <+: l.results) (fun _ => List.prefix_rfl) hk j)⟩

end

theorem stepKeeps_hasGrown (s₀ : State) : StepKeeps fun s => s₀.hasGrown s where
  edit e h := by
    cases e with
    | bus b u hb e | free b u hb e => exact h.setBus ⟨e.trace_grows, e.initDone_stays⟩
    | nothing | reader | store | block | unblock => exact h
  finish h := h.setTask (List.prefix_append ..)
  setCmd h := h.setTask List.prefix_rfl
  fault h := h
  push h := h
  answer h := h.setBus ⟨List.prefix_rfl, id⟩
  busy h := by
    unfold State.envBusy
    split
    · exact h
    · exact h.setBus ⟨List.prefix_rfl, id⟩
  tick h := h
  store h := h
  endTurn h := h

/-! ### What only some agents change: the time, and the queues -/

theorem turnKeeps_now (d : Nat) : TurnKeeps fun s => s.now = d where
  edit e h := by cases e <;> exact h
  finish h := h
  setCmd h := h
  fault h := h

theorem endTurn_now (s : State) : s.endTurn.now = s.now := by
  obtain ⟨us, n, ended⟩ := endTurn_eq s
  rw [ended]

/-- Every queue is what is left of that of `s₀`. -/
def State.queuesTaken (s₀ s : State) : Prop := ∀ r, ∃ k, (s.reader r).q = (s₀.reader r).q.drop k

theorem turnKeeps_queuesTaken (s₀ : State) : TurnKeeps fun s => s₀.queuesTaken s where
  edit {t m s s'} e h := by
    cases e with
    | reader r k c hr =>
      intro x
      obtain ⟨j, hj⟩ := h x
      obtain ⟨l, hl⟩ : ∃ l, ((s.setReader r { s.reader r with q := (s.reader r).q.drop k, consumer := c }).reader x).q =
          (s.reader x).q.drop l :=
        getD_set_related (r := fun d e : Reader => ∃ l, e.q = d.q.drop l) (fun _ => ⟨0, rfl⟩) ⟨k, rfl⟩ x
      exact ⟨j + l, by rw [hl, hj, List.drop_drop]⟩
    | nothing | bus | free | store | block | unblock => exact h
  finish h := h
  setCmd h := h
  fault h := h

theorem endTurn_reader (s : State) (r : Nat) : s.endTurn.reader r = s.reader r := by
  obtain ⟨us, n, ended⟩ := endTurn_eq s
  rw [ended]
  rfl

/-- A push appends its byte to one queue at most. -/
theorem push_queue (s : State) (r : Nat) (v : Byte) (g x : Nat) :
    ((s.push r v g).reader x).q = (s.reader x).q ∨ ((s.push r v g).reader x).q = (s.reader x).q ++ [v] := by
  have result : ((s.push r v g).reader x).q = ((s.setReader r (pushByte v (s.reader r))).reader x).q :=
    (getD_set_related (r := fun d e : Reader => e.q = d.q) (fun _ => rfl) (by rfl) x)
  rw [result]
  refine getD_set_related (r := fun d e : Reader => e.q = d.q ∨ e.q = d.q ++ [v]) (fun _ => .inl rfl) ?_ x
  unfold pushByte
  split
  · exact .inr rfl
  · exact .inl rfl

/-! ### The step of an agent that issues no command, and of a task inside one -/

theorem step_of_move (noFault : s.fault = none) (move : moveAgent s = .next s') : step s = .next s'.endTurn := by
  rw [step_of_no_fault noFault, move, afterTurn]

theorem step_task_resumes {t n : Nat} {c : Cmd} (moves : s.taskMoves t n) (inside : (s.task t).cmd = some c) :
    step s = .next (runCode t c.instr n c.code s).endTurn := by
  obtain ⟨turn, noFault, exists_⟩ := moves
  exact step_of_move noFault (by simp [moveAgent, turn, taskTurn, exists_, inside, State.resume])

theorem step_busAnswer (noFault : s.fault = none) {b : Nat} {a : Answer} (turn : s.turn = .busAnswer b a) :
    step s = .next (s.addAnswer b a).endTurn := step_of_move noFault (by simp only [moveAgent, turn])

theorem step_busBusy (noFault : s.fault = none) {b : Nat} {v : Bool} (turn : s.turn = .busBusy b v) :
    step s = .next (s.envBusy b v).endTurn := step_of_move noFault (by simp only [moveAgent, turn])

theorem step_clock (noFault : s.fault = none) {d : Nat} (turn : s.turn = .clock d) : step s = .next (s.tick d).endTurn :=
  step_of_move noFault (by simp only [moveAgent, turn])

theorem step_hostStore (noFault : s.fault = none) {a : Nat} {v : Byte} (turn : s.turn = .hostStore a v) :
    step s = .next (s.hostStore a v).endTurn := step_of_move noFault (by simp only [moveAgent, turn])

theorem hostStore_of_lt {a : Nat} {v : Byte} (inRange : a < 2 ^ 32) : s.hostStore a v = s.setMem (s.mem.write a v) := if_pos inRange

theorem envBusy_of_master {b : Nat} {v : Bool} (master : (s.bus b).ctl.master = true) : s.envBusy b v = s := if_pos master

theorem envBusy_of_not_master {b : Nat} {v : Bool} (master : (s.bus b).ctl.master = false) :
    s.envBusy b v = s.setBus b { s.bus b with ctl := { (s.bus b).ctl with busy := v } } := if_neg (by simp [master])

/-! ### What issuing a command does where its checks all hold, in either context -/

theorem exec_checked {g : Agent} {n : Nat} {i : Instr} (noFault : s.fault = none) (issuer : s.issuer = some (g, n))
    (checked : commandFault s g i = none) :
    (∃ t, g = .task t ∧ exec i s = .next (runCode t i n (codeOf i) s)) ∨
      ∃ a r v, g = .uartRx a ∧ i = .sfrPush r v ∧ r < s.readers.length ∧ exec i s = .next (s.push r v a) := by
  have context : i.fromIrq ≠ g.inTask := fun out => by simp [commandFault_outOfContext s out] at checked
  cases g with
  | task t =>
    refine .inl ⟨t, rfl, ?_⟩
    rw [← firstFault_checksOf, checksOf_cons] at checked
    rw [exec_taskCommand s (by simpa [Agent.inTask] using context)]
    simp only [issueTask, noFault, issuer, checked]
    rfl
  | uartRx a =>
    obtain ⟨r, v, rfl⟩ := i.fromIrq_iff.mp (by simpa [Agent.inTask] using context)
    have exists_ : s.readerExists r = true := by
      rw [commandFault_push_irq] at checked
      by_contra absent
      simp [absent] at checked
    exact .inr ⟨a, r, v, rfl, rfl, of_decide_eq_true exists_, by rw [exec_push_irq noFault issuer, if_pos exists_]⟩

theorem exec_answers_next {g : Agent} {n : Nat} (i : Instr) (noFault : s.fault = none) (issuer : s.issuer = some (g, n)) :
    ∃ s', exec i s = .next s' := by
  cases checked : commandFault s g i with
  | some c => exact ⟨_, exec_raises_first noFault issuer checked⟩
  | none =>
    rcases exec_checked noFault issuer checked with ⟨t, -, runs⟩ | ⟨a, r, v, -, -, -, pushes⟩
    · exact ⟨_, runs⟩
    · exact ⟨_, pushes⟩

theorem issueDesc_answers_next {g : Agent} {n : Nat} (d : Desc) (noFault : s.fault = none) (issuer : s.issuer = some (g, n)) :
    ∃ s', issueDesc g d s = .next s' := by
  unfold issueDesc
  split
  · exact exec_answers_next _ noFault issuer
  · exact ⟨_, rfl⟩

theorem moveAgent_answers_next (noFault : s.fault = none) : ∃ s', moveAgent s = .next s' := by
  unfold moveAgent
  split
  case h_1 t n turn =>
    unfold taskTurn
    split
    · split
      · exact ⟨_, rfl⟩
      · split
        · exact issueDesc_answers_next _ noFault (issuer_task s turn)
        · exact ⟨_, rfl⟩
    · exact ⟨_, rfl⟩
  case h_2 r d turn =>
    unfold uartTurn
    split
    · exact issueDesc_answers_next _ noFault (issuer_uart s turn)
    · exact ⟨_, rfl⟩
  all_goals exact ⟨_, rfl⟩

/-! ### The state after reset -/

theorem bus_mem {b : Nat} (hb : b < s.buses.length) : s.bus b ∈ s.buses := by
  rw [State.bus, List.getD_eq_getElem s.buses default hb]
  exact List.getElem_mem hb

theorem bus_of_le {b : Nat} (hb : s.buses.length ≤ b) : s.bus b = default := by
  rw [State.bus, List.getD_eq_default s.buses default hb]

section
variable (cfg : Config) (handles : List (BusHandle × Bool)) (caps : List Nat) (progs : List (List Desc)) (mem : Memory)

theorem resetWith_bus {b : Nat} (hb : b < handles.length) : (State.resetWith cfg handles caps progs mem).bus b =
    { handle := handles[b].1, ctl := { busy := handles[b].2 } } := by
  simp [State.bus, State.resetWith, List.getD, hb]

theorem resetWith_reader {r : Nat} (hr : r < caps.length) :
    (State.resetWith cfg handles caps progs mem).reader r = { cap := caps[r] } := by
  simp [State.reader, State.resetWith, List.getD, hr]

theorem resetWith_task {t : Nat} (ht : t < progs.length) :
    (State.resetWith cfg handles caps progs mem).task t = { prog := progs[t] } := by
  simp [State.task, State.resetWith, List.getD, ht]

theorem resetWith_cmd (t : Nat) : ((State.resetWith cfg handles caps progs mem).task t).cmd = none := by
  by_cases ht : t < progs.length
  · rw [resetWith_task cfg handles caps progs mem ht]
  · simp [State.task, State.resetWith, List.getD, ht]
    rfl

end

end Sys2Proof.Machine

namespace Sys2Proof

open Machine

/-- Settles O49: every store keeps the canonical form (`wf_write`). -/
theorem stepKeepsMemoryCanonical : Obligations.StepKeepsMemoryCanonical := fun _ _ wf h =>
  (stepKeeps_memory (p := fun m => m.wf = true) (fun {_ a v} hm => wf_write a v hm)).step h wf

/-- Settles O50: a queue is only shortened, and a push looks for room first. -/
theorem stepKeepsQueuesBounded : Obligations.StepKeepsQueuesBounded := fun _ _ bounded h =>
  (stepKeeps_readers (p := fun d => d.q.length ≤ d.cap) (fun hd => List.length_drop.trans_le ((Nat.sub_le ..).trans hd)) pushByte_bounded id).step h
    bounded

/-- Settles O52: only the end of a command moves the pointer and the results, both by one. -/
theorem stepKeepsResultsCounted : Obligations.StepKeepsResultsCounted := fun _ _ counted h =>
  (stepKeeps_tasks (p := fun k => k.pc = k.results.length) (fun hk => by simp [hk]) id).step h counted

/-- Settles O53: the edits of a bus keep its waiters rising (`BusEdit.waiters_rising`). -/
theorem stepKeepsWaitersCanonical : Obligations.StepKeepsWaitersCanonical := fun _ _ rising h =>
  (stepKeeps_buses (p := fun u => risingFrom u.waiters = true) BusEdit.waiters_rising id id).step h rising

/-- Settles O56. -/
theorem stepKeepsParameters : Obligations.StepKeepsParameters := fun s _ h =>
  (stepKeeps_parameters s).step h ⟨rfl, rfl, rfl, rfl⟩

/-- Settles O57. -/
theorem stepOnlyAppends : Obligations.StepOnlyAppends := by
  intro s s' h
  obtain ⟨buses, results⟩ := (stepKeeps_hasGrown s).step h ⟨fun _ => .refl _, fun _ => List.prefix_rfl⟩
  exact ⟨fun b => (buses b).1, results, fun b => (buses b).2⟩

/-- Settles O58: of the moves of an agent only that of Clock writes the time. -/
theorem onlyClockMovesTime : Obligations.OnlyClockMovesTime := by
  intro s s' h
  obtain ⟨noFault, s₁, moves, rfl⟩ := step_moves h
  refine ⟨fun d turn => ?clock, fun others => ?others⟩
  case clock =>
    rw [step_clock noFault turn] at h
    rw [← Host.Outcome.next.inj h, endTurn_now]
    rfl
  case others =>
    rw [endTurn_now]
    cases moves with
    | clock d turn => exact absurd turn (others d)
    | resume | issue => exact (turnKeeps_now s.now).runCode rfl
    | idle | fault | push | answer => rfl
    | busy b v turn => unfold State.envBusy; split <;> rfl
    | store a v turn => unfold State.hostStore; split <;> rfl

/-- Settles O51: a task's turn only takes (`turnKeeps_queuesTaken`), and the receive interrupt's only appends (`push_queue`). -/
theorem queuesAreFirstInFirstOut : Obligations.QueuesAreFirstInFirstOut := by
  intro s s' r h
  obtain ⟨-, s₁, moves, rfl⟩ := step_moves h
  rw [endTurn_reader]
  have unchanged (same : s₁.reader r = s.reader r) : ∃ k more, (s₁.reader r).q = (s.reader r).q.drop k ++ more ∧
      (k = 0 ∨ ∃ t n, s.turn = .task t n) ∧ (more = [] ∨ ((∃ v, more = [v]) ∧ k = 0 ∧ ∃ g d, s.turn = .uart g d)) :=
    ⟨0, [], by simp [same], .inl rfl, .inl rfl⟩
  have taken {t n : Nat} (turn : s.turn = .task t n) (take : s.queuesTaken s₁) : ∃ k more,
      (s₁.reader r).q = (s.reader r).q.drop k ++ more ∧ (k = 0 ∨ ∃ t n, s.turn = .task t n) ∧
      (more = [] ∨ ((∃ v, more = [v]) ∧ k = 0 ∧ ∃ g d, s.turn = .uart g d)) := by
    obtain ⟨k, hk⟩ := take r
    exact ⟨k, [], by simp [hk], .inr ⟨t, n, turn⟩, .inl rfl⟩
  have refl : s.queuesTaken s := fun _ => ⟨0, rfl⟩
  cases moves with
  | resume t n c turn => exact taken turn ((turnKeeps_queuesTaken s).runCode refl)
  | issue t n d i turn => exact taken turn ((turnKeeps_queuesTaken s).runCode refl)
  | push g x d v turn =>
    rcases push_queue s x v g r with same | more
    · exact ⟨0, [], by simp [same], .inl rfl, .inl rfl⟩
    · exact ⟨0, [v], by simp [more], .inl rfl, .inr ⟨⟨v, rfl⟩, rfl, g, d, turn⟩⟩
  | idle | fault | answer | clock => exact unchanged rfl
  | busy b v turn => exact unchanged (by unfold State.envBusy; split <;> rfl)
  | store a v turn => exact unchanged (by unfold State.hostStore; split <;> rfl)

/-- Settles O59. -/
theorem environmentTurns : Obligations.EnvironmentTurns := fun _ noFault =>
  ⟨fun _ _ turn master => by rw [step_busBusy noFault turn, envBusy_of_not_master master],
    fun _ _ turn => step_busAnswer noFault turn, fun _ turn => step_clock noFault turn,
    fun _ _ turn inRange => by rw [step_hostStore noFault turn, hostStore_of_lt inRange]⟩

/-- Settles O7. -/
theorem stepRunsTaskCommand : Obligations.StepRunsTaskCommand := by
  intro s t n d i moves outside fetched decoded
  rw [step_task_issues moves outside fetched]
  simp only [issueDesc, decoded]

/-- Settles O8. -/
theorem stepRunsInterruptCommand : Obligations.StepRunsInterruptCommand := by
  intro s r d i turn noFault exists_ decoded
  rw [step_uart_issues turn noFault exists_]
  simp only [issueDesc, decoded]

/-- Settles O9. -/
theorem stepResumesTask : Obligations.StepResumesTask := by
  refine ⟨fun s t n c moves inside => step_task_resumes moves inside, fun s t n turn noFault none_ => ?_⟩
  refine step_of_move noFault ?_
  simp only [moveAgent, turn, taskTurn]
  split
  case isFalse => rfl
  case isTrue exists_ =>
    obtain ⟨outside, finished⟩ := none_.resolve_left (by omega)
    simp [outside, State.fetch, finished]

/-- Settles O11. -/
theorem unfaultedStepAnswersNext : Obligations.UnfaultedStepAnswersNext := by
  intro s noFault
  obtain ⟨s', moved⟩ := moveAgent_answers_next noFault
  exact ⟨_, step_of_move noFault moved⟩

/-- Settles O54. -/
theorem resetIsGood : Obligations.ResetIsGood := by
  intro cfg handles caps progs mem wf s
  have noCmd (t : Nat) (c : Cmd) : (s.task t).cmd ≠ some c := by simp [s, resetWith_cmd]
  have fresh (u : Bus) (hu : u ∈ s.buses) : u.initDone = false ∧ u.lock = .free ∧ u.phase = .idle ∧ u.ctl.master = false ∧
      u.waiters = [] := by
    obtain ⟨h, -, rfl⟩ := List.mem_map.mp hu
    exact ⟨rfl, rfl, rfl, rfl, rfl⟩
  have freshBus (b : Nat) (hb : b < s.buses.length) := fresh (s.bus b) (bus_mem hb)
  refine ⟨wf, ?queues, ?results, ?waiters, ?quiet, ?power, ?placed, ?powerTrue, ?heldTrue, fun b => ?heldOk⟩
  case queues =>
    intro d hd
    obtain ⟨c, -, rfl⟩ := List.mem_map.mp hd
    exact Nat.zero_le c
  case results =>
    intro k hk
    obtain ⟨p, -, rfl⟩ := List.mem_map.mp hk
    rfl
  case waiters =>
    intro u hu
    obtain ⟨-, -, -, -, waiters⟩ := fresh u hu
    rw [waiters]
    rfl
  case quiet =>
    intro k hk
    obtain ⟨p, -, rfl⟩ := List.mem_map.mp hk
    rfl
  case power =>
    refine ⟨fun u hu => ?_, (List.countP_eq_zero.mpr fun u hu => ?_).symm⟩
    all_goals obtain ⟨initDone, lock, -⟩ := fresh u hu
    · simp [initDone, lock]
    · simp [lock]
  case placed =>
    refine ⟨fun t c hc => absurd hc (noCmd t c), fun t c hc => absurd hc (noCmd t c),
      fun t _ _ c _ hc => absurd hc (noCmd t c), fun b hb _ => ?_⟩
    obtain ⟨-, lock, phase, -⟩ := freshBus b hb
    exact ⟨lock, phase⟩
  case powerTrue =>
    refine ⟨fun b hb inited => ?_, (List.countP_eq_zero.mpr fun b hb => ?_).symm⟩
    · obtain ⟨initDone, -⟩ := freshBus b hb
      simp [initDone] at inited
    · obtain ⟨-, lock, -⟩ := freshBus b (List.mem_range.mp hb)
      simp [State.settled, lock]
  case heldTrue =>
    refine ⟨fun b hb => ?_, fun t c hc => absurd hc (noCmd t c)⟩
    obtain ⟨-, -, phase, master, -⟩ := freshBus b hb
    simp [heldOk, phase, master]
  case heldOk =>
    refine fun open_ => absurd ?_ open_
    by_cases hb : b < s.buses.length
    · obtain ⟨-, -, phase, -⟩ := freshBus b hb
      exact phase
    · rw [bus_of_le (Nat.le_of_not_lt hb)]
      rfl

/-- Settles O55. -/
theorem resetValues : Obligations.ResetValues := by
  refine ⟨fun cfg handles caps progs mem => ?_, Config.initial, [({}, false)], [4], [[], []], rfl⟩
  refine ⟨rfl, rfl, rfl, rfl, rfl, List.length_map .., List.length_map .., List.length_map .., fun b hb => ?_, fun r hr => ?_,
    fun t ht => ?_⟩
  · rw [resetWith_bus cfg handles caps progs mem hb]
    simp
  · rw [resetWith_reader cfg handles caps progs mem hr]
    simp
  · rw [resetWith_task cfg handles caps progs mem ht]
    simp

end Sys2Proof
end

section
/-! PROOFS of the family `other`, one task inside a command: how its turns add up, where it has no step, and which fault can come of it
(00_scope.md R17; 40_i2c_handshake.md R82, R86; 20_memory.md R49; 60_exceptions.md R125, R126). -/

namespace Sys2Proof.Machine

variable {t n : Nat} {i : Instr} {m : Micro} {s s' : State} {code rest ops : List Micro}

/-! ### A micro-step reads no task -/

/-- The outcome with `f` applied to the state it leaves. -/
def MicroOut.mapState (f : State → State) : MicroOut → MicroOut
  | .go s ops => .go (f s) ops
  | .jump s ops => .jump (f s) ops
  | .hold => .hold
  | .done s => .done (f s)
  | .raise c => .raise c

theorem mapState_ite (f : State → State) (c : Prop) [Decidable c] (x y : MicroOut) :
    (if c then x else y).mapState f = if c then x.mapState f else y.mapState f := apply_ite (MicroOut.mapState f) c x y

theorem ask_setTask (b : Nat) (p : Prim) (k : Answer → List Micro) (j : Nat) (x : Task) :
    ask b p k (s.setTask j x) = (ask b p k s).mapState fun s' => s'.setTask j x := by
  simp only [ask, setTask_bus]
  cases (s.bus b).answers with
  | nil => rfl
  | cons a rest => cases h : answerAllowed p a <;> simp [h, MicroOut.mapState]

/-- Only the end of a command writes a task. -/
theorem microStep_setTask (j : Nat) (x : Task) (notRet : ∀ res, m ≠ .ret res) :
    microStep t m (s.setTask j x) = (microStep t m s).mapState fun s' => s'.setTask j x := by
  cases m
  case ret res => exact absurd rfl (notRet res)
  case askRecover | askStart | askAddr | askSend | askRecv | askStop => exact ask_setTask ..
  case gotStart b addr d retries first a => cases a <;> cases first <;> rfl
  case gotSend b v a => cases a <;> rfl
  case gotRecv b k dst a => cases a <;> rfl
  case gotAddr b addr d retries a =>
    cases a
    case nack =>
      simp only [microStep, microGotAddr, mapState_ite]
      rfl
    all_goals rfl
  case takeLock | waitNotBusy | genStart | abort | recvLoop | sendLoop | loadSend | memStore | enterRead | readAll | untilTest =>
    simp only [microStep, microTakeLock, microWaitNotBusy, microGenStart, microAbort, microRecvLoop, microSendLoop, microLoadSend,
      microMemStore, microEnterRead, microReadAll, microUntilTest, mapState_ite]
    rfl
  case busFail | armRead | readLoop | loadPattern | untilLoop =>
    simp only [microStep, microBusFail, microArmRead, microReadLoop, microLoadPattern, microUntilLoop, setTask_cfg, setTask_mem,
      setTask_reader, setTask_now]
    repeat' split
    all_goals simp [*, MicroOut.mapState]
  all_goals rfl

/-! ### The turns of one task add up (00_scope.md R17) -/

theorem park_park (ht : t < s.tasks.length) (c c' : Cmd) : (s.park t c).park t c' = s.park t c' := by simp [ht]

theorem park_complete (ht : t < s.tasks.length) (c : Cmd) (res : Result) : (s.park t c).complete t res = s.complete t res := by
  simp [ht, Task.finish]

theorem park_raiseInside (ht : t < s.tasks.length) (c : Cmd) (f : FaultCode) (w : Word) :
    (s.park t c).raiseInside f t w = s.raiseInside f t w := by
  simp [State.raiseInside, ht]

/-- What a task's command in progress is does not matter to the run of its micro-steps. -/
theorem runCode_park (c : Cmd) (n : Nat) (code : List Micro) (s : State) (ht : t < s.tasks.length) :
    runCode t i n code (s.park t c) = runCode t i n code s := by
  induction n generalizing code s with
  | zero => exact park_park ht c _
  | succ n ih =>
    cases code with
    | nil => exact park_park ht c _
    | cons m rest =>
      by_cases isRet : ∃ res, m = .ret res
      · obtain ⟨res, rfl⟩ := isRet
        exact park_complete ht c res
      · have commutes : microStep t m (s.park t c) = _ := microStep_setTask t _ fun res hm => isRet ⟨res, hm⟩
        cases hs : microStep t m s with
        | go s' ops =>
          obtain ⟨tasks, -⟩ := microStep_rest (s' := s') (by rw [hs]; rfl)
          rw [hs] at commutes
          rw [runCode_go hs, runCode_go commutes, ← ih _ s' (by rwa [tasks])]
          simp only [park_eq, State.task, tasks]
        | jump s' ops =>
          obtain ⟨tasks, -⟩ := microStep_rest (s' := s') (by rw [hs]; rfl)
          rw [hs] at commutes
          rw [runCode_jump hs, runCode_jump commutes, ← ih _ s' (by rwa [tasks])]
          simp only [park_eq, State.task, tasks]
        | hold =>
          rw [hs] at commutes
          rw [runCode_hold hs, runCode_hold commutes, park_park ht]
        | done s' =>
          obtain ⟨res, hm, -⟩ := microStep_done hs
          exact absurd ⟨res, hm⟩ isRet
        | raise f =>
          rw [hs] at commutes
          rw [runCode_raise hs, runCode_raise commutes, park_raiseInside ht]

theorem runCode_nil (n : Nat) (s : State) : runCode t i n [] s = s.park t ⟨i, []⟩ := by cases n <;> rfl

/-- A task that has no step stays where it is, however long its turn. -/
theorem runCode_held (held : microStep t m s = .hold) (n : Nat) : runCode t i n (m :: rest) s = s.park t ⟨i, m :: rest⟩ := by
  cases n with
  | zero => rfl
  | succ n => exact runCode_hold held

theorem resume_of_none (outside : (s.task t).cmd = none) (n : Nat) : s.resume t n = s := by simp [State.resume, outside]

theorem resume_park (ht : t < s.tasks.length) (c : Cmd) (n : Nat) : (s.park t c).resume t n = runCode t c.instr n c.code s := by
  rw [← runCode_park c n c.code s ht]
  simp [State.resume, ht]

theorem complete_cmd (ht : t < s.tasks.length) (res : Result) : ((s.complete t res).task t).cmd = none := by simp [ht]

theorem raise_task (c : FaultCode) (g : Agent) (w : Word) (x : Nat) : (s.raise c g w).task x = s.task x := by
  unfold State.raise
  split <;> rfl

theorem raiseInside_cmd (ht : t < s.tasks.length) (c : FaultCode) (w : Word) : ((s.raiseInside c t w).task t).cmd = none := by
  rw [State.raiseInside, raise_task]
  simp [ht]

theorem runCode_resume (m n : Nat) (code : List Micro) (s : State) (ht : t < s.tasks.length) :
    (runCode t i m code s).resume t n = runCode t i (m + n) code s := by
  induction m generalizing code s with
  | zero =>
    rw [Nat.zero_add]
    exact resume_park ht ⟨i, code⟩ n
  | succ m ih =>
    rw [Nat.add_right_comm m 1 n]
    cases code with
    | nil => rw [runCode_nil, runCode_nil, resume_park ht, runCode_nil]
    | cons o rest =>
      cases hs : microStep t o s with
      | go s' ops =>
        obtain ⟨tasks, -⟩ := microStep_rest (s' := s') (by rw [hs]; rfl)
        rw [runCode_go hs, runCode_go hs, ih _ s' (by rwa [tasks])]
      | jump s' ops =>
        obtain ⟨tasks, -⟩ := microStep_rest (s' := s') (by rw [hs]; rfl)
        rw [runCode_jump hs, runCode_jump hs, ih _ s' (by rwa [tasks])]
      | hold => rw [runCode_held hs, runCode_held hs, resume_park ht, runCode_held hs]
      | done s' =>
        obtain ⟨res, -, rfl⟩ := microStep_done hs
        rw [runCode_done hs, runCode_done hs, resume_of_none (complete_cmd ht res)]
      | raise c => rw [runCode_raise hs, runCode_raise hs, resume_of_none (raiseInside_cmd ht c _)]

/-! ### Where a task has no step -/

/-- The turn of a task that has no step changes nothing. -/
theorem step_holds (moves : s.taskMoves t n) (inside : (s.task t).cmd = some ⟨i, m :: rest⟩) (held : microStep t m s = .hold) :
    step s = .next s.endTurn := by
  rw [step_task_resumes moves inside, runCode_held held, park_self s inside]

theorem ask_unanswered {b : Nat} (p : Prim) (k : Answer → List Micro)
    (none_ : (s.bus b).answers = [] ∨ (s.bus b).answers.head? = some .wedged) : ask b p k s = .hold := by
  unfold ask
  split
  · rfl
  · rename_i a rest answers
    obtain rfl : a = .wedged := by simpa [answers] using none_
    cases p <;> rfl

/-- A task that asks holds while the environment does not answer (40_i2c_handshake.md R82). -/
theorem microStep_unanswered {b : Nat} (asks : m.asks? = some b)
    (none_ : (s.bus b).answers = [] ∨ (s.bus b).answers.head? = some .wedged) : microStep t m s = .hold := by
  cases m <;> cases asks
  all_goals exact ask_unanswered _ _ none_

theorem waitNotBusy_holds {b : Nat} (busy : (s.bus b).ctl.busy = true) : microStep t (.waitNotBusy b) s = .hold := if_pos busy

theorem loadSend_holds {b a : Nat} (refused : canRead s.cfg a = false) : microStep t (.loadSend b a) s = .hold :=
  if_neg (by simp [refused])

theorem memStore_holds {a : Nat} {v : Byte} (refused : canWrite s.cfg a = false) : microStep t (.memStore a v) s = .hold :=
  if_neg (by simp [refused])

theorem loadPattern_holds {r max buf timeout a left : Nat} {acc : List Byte} (refused : canRead s.cfg a = false) :
    microStep t (.loadPattern r max buf timeout a (left + 1) acc) s = .hold := if_neg (by simp [refused])

/-- No agent takes a wedged answer back. -/
theorem stepKeeps_wedged (b : Nat) : StepKeeps fun s => (s.bus b).answers.head? = some .wedged := by
  have onBus {s : State} {c : Nat} {u : Bus} (h : (s.bus b).answers.head? = some .wedged)
      (hu : (s.bus c).answers.head? = some .wedged → u.answers.head? = some .wedged) :
      ((s.setBus c u).bus b).answers.head? = some .wedged :=
    getD_set_related (r := fun u v : Bus => u.answers.head? = some .wedged → v.answers.head? = some .wedged) (fun _ => id) hu b h
  exact {
    edit := fun e h => by
      cases e with
      | bus c u hc e | free c u hc e => exact onBus h e.wedged_stays
      | nothing | reader | store | block | unblock => exact h
    finish := id
    setCmd := id
    fault := id
    push := id
    answer := fun h => onBus h fun hu => by simp [List.head?_append, hu]
    busy := fun {c v s} h => by
      unfold State.envBusy
      split
      · exact h
      · exact onBus h id
    tick := id
    store := id
    endTurn := id }

/-! ### A first START on a busy bus (40_i2c_handshake.md R86) -/

theorem genStart_waits {b k : Nat} {addr : Addr7} {d : Dir} (hn : 1 ≤ n) (master : (s.bus b).ctl.master = false)
    (busy : (s.bus b).ctl.busy = true) : runCode t i n (.genStart b addr d k :: code) s =
      s.park t ⟨i, .waitNotBusy b :: .askStart b addr d k true :: code⟩ := by
  obtain ⟨n, rfl⟩ := Nat.exists_eq_add_of_le' hn
  have opens : microStep t (.genStart b addr d k) s = .go s [.waitNotBusy b, .askStart b addr d k true] := if_neg (by simp [master])
  rw [runCode_go opens, List.cons_append, runCode_held (waitNotBusy_holds busy)]
  rfl

section
variable {b len buf : Nat} {addr : Addr7} {reg : Byte} {f : XferFlags}

theorem openCode_start (d : Dir) (start : f.nostart = false) : openCode b addr d f.nostart = [.genStart b addr d 0] := by
  simp [openCode, start]

theorem readBytesCode_supported (addr10 : f.addr10 = false) (reg16 : f.reg16 = false) : readBytesCode b addr f len buf =
    openCode b addr .read f.nostart ++ .recvLoop b buf len 0 f.nostop :: endCode b addr .read f.nostop len :=
  if_neg (by simp [bytesUnsupported, addr10, reg16])

theorem writeBytesCode_supported (addr10 : f.addr10 = false) (reg16 : f.reg16 = false) : writeBytesCode b addr f len buf =
    openCode b addr .write f.nostart ++ .sendLoop b buf len 0 :: endCode b addr .write f.nostop len :=
  if_neg (by simp [bytesUnsupported, addr10, reg16])

theorem readRegsCode_supported : readRegsCode b addr reg {} len buf = .genStart b addr .write 0 :: .askSend b reg ::
    .setPhase b (.heldW addr) :: .genStart b addr .read 0 :: .recvLoop b buf len 0 false :: (stopCode b ++ [.ret (.ok len)]) := rfl

theorem writeRegsCode_supported : writeRegsCode b addr reg {} len buf = .genStart b addr .write 0 :: .askSend b reg ::
    .setPhase b (.heldW addr) :: .sendLoop b buf len 0 :: (stopCode b ++ [.ret (.ok len)]) := rfl

/-- Every transfer but a continuation begins with a START. -/
theorem codeOf_transfer_starts (start : f.nostart = false) (addr10 : f.addr10 = false) (reg16 : f.reg16 = false)
    (transfer : i = .i2cRead b addr f len buf ∨ i = .i2cWrite b addr f len buf ∨ i = .i2cReadRegs b addr reg {} len buf ∨
      i = .i2cWriteRegs b addr reg {} len buf) : ∃ d code, codeOf i = .genStart b addr d 0 :: code := by
  rcases transfer with rfl | rfl | rfl | rfl
  · exact ⟨_, _, by rw [codeOf, readBytesCode_supported addr10 reg16, openCode_start _ start]; rfl⟩
  · exact ⟨_, _, by rw [codeOf, writeBytesCode_supported addr10 reg16, openCode_start _ start]; rfl⟩
  · exact ⟨_, _, readRegsCode_supported⟩
  · exact ⟨_, _, writeRegsCode_supported⟩

end

end Sys2Proof.Machine

namespace Sys2Proof

open Machine

/-- Settles O12, by induction on the first turn. -/
theorem turnsOfOneTaskAddUp : Obligations.TurnsOfOneTaskAddUp := fun s _ _ code m n ht => runCode_resume m n code s ht

/-- Settles O35: an ask and a wait without an answer are micro-steps that hold, and nobody takes the wedged answer back. -/
theorem unansweredTaskHolds : Obligations.UnansweredTaskHolds := by
  refine ⟨fun s t n b i m code moves inside asks none_ => step_holds moves inside (microStep_unanswered asks none_),
    fun s s' b wedged h => (stepKeeps_wedged b).step h wedged,
    fun s t n b k addr d i code hn master busy => genStart_waits hn master busy,
    fun s t n b addr reg f len buf i moves hn start addr10 reg16 transfer checked master busy => ?_,
    fun s t n b i code moves inside busy => step_holds moves inside (waitNotBusy_holds busy)⟩
  obtain ⟨d, code, starts⟩ := codeOf_transfer_starts start addr10 reg16 transfer
  exact ⟨_, by rw [exec_runs moves checked, starts, genStart_waits hn master busy]⟩

/-- Settles O36: each of the three accesses is a micro-step that holds. -/
theorem refusedAccessHoldsTask : Obligations.RefusedAccessHoldsTask := by
  intro s t n a i m code moves inside access
  refine step_holds moves inside ?_
  rcases access with ⟨⟨b, rfl⟩, refused⟩ | ⟨⟨v, rfl⟩, refused⟩ | ⟨⟨r, max, buf, timeout, left, acc, rfl⟩, refused⟩
  · exact loadSend_holds refused
  · exact memStore_holds refused
  · exact loadPattern_holds refused

/-- Settles O44: the one micro-step that raises a fault (log 13). -/
theorem secondConsumerFaultsOnEntry : Obligations.SecondConsumerFaultsOnEntry := by
  intro s t n r i code moves hn consumer inside
  obtain ⟨n, rfl⟩ := Nat.exists_eq_add_of_le' hn
  have ⟨_, noFault, _⟩ := moves
  have raises : microStep t (.enterRead r) s = .raise .concurrentReader := if_neg consumer
  rw [step_task_resumes moves inside, runCode_raise raises, State.raiseInside, raise_of_none _ (by exact noFault)]
  rfl

end Sys2Proof
end

section
/-! PROOFS of the family `other`, which micro-steps come of which: a command stays on its bus, and enters its reader once (42_i2c_transfers.md
section 2; 43_serial_frame_reader.md R117, R118). So a command whose checks all hold raises no fault, and nobody else touches an owned bus
(20_memory.md R57). -/

namespace Sys2Proof.Machine

/-! ### Which micro-steps come of one -/

/-- The micro-steps an outcome leaves to run first. -/
def MicroOut.ops : MicroOut → List Micro
  | .go _ ops => ops
  | .jump _ ops => ops
  | .hold => []
  | .done _ => []
  | .raise _ => []

/-- The reader a micro-step enters, or is on the way to enter. -/
def Micro.enters? : Micro → Option Nat
  | .enterRead r | .loadPattern r _ _ _ _ _ _ => some r
  | _ => none

/-- `o` works on no other bus than `m`, and enters no reader where `m` does not. -/
def Micro.leadsTo (m o : Micro) : Prop := (o.bus? = m.bus? ∨ o.bus? = none) ∧ (m.enters? = none → o.enters? = none)

variable {t n : Nat} {i : Instr} {m : Micro} {s s' : State} {code rest ops : List Micro}

theorem mem_storeCode {o : Micro} {vs : List Byte} {a : Nat} (h : o ∈ storeCode a vs) : ∃ a v, o = .memStore a v := by
  induction vs generalizing a with
  | nil => cases h
  | cons v vs ih =>
    rcases List.mem_cons.mp h with rfl | h
    · exact ⟨a, v, rfl⟩
    · exact ih h

theorem ask_leadsTo {b : Nat} {p : Prim} {k : Answer → List Micro} (h : ∀ a, ∀ o ∈ k a, m.leadsTo o) :
    ∀ o ∈ (ask b p k s).ops, m.leadsTo o := by
  rcases ask_cases b p k s with held | ⟨a, rest, -, -, drawn⟩
  · rw [held]; exact List.forall_mem_nil _
  · rw [drawn]; exact h a

theorem microStep_leadsTo (t : Nat) (m : Micro) (s : State) : ∀ o ∈ (microStep t m s).ops, m.leadsTo o := by
  cases m
  case askRecover | askStop => exact ask_leadsTo fun _ => List.forall_mem_nil _
  case askStart | askAddr | askSend | askRecv =>
    refine ask_leadsTo fun _ => List.forall_mem_singleton.mpr ?_
    exact ⟨.inl rfl, fun _ => rfl⟩
  case readAll r n buf deadline =>
    simp only [microStep, microReadAll]
    split_ifs
    · intro o ho
      rcases List.mem_append.mp ho with ho | ho
      · obtain ⟨a, v, rfl⟩ := mem_storeCode ho
        exact ⟨.inl rfl, fun _ => rfl⟩
      · simp only [leaveCode, List.mem_cons, List.not_mem_nil, or_false] at ho
        rcases ho with rfl | rfl <;> exact ⟨.inl rfl, fun _ => rfl⟩
    · simp [MicroOut.ops, leaveCode, Micro.leadsTo, Micro.bus?, Micro.enters?]
    · exact List.forall_mem_nil _
  case takeLock | waitNotBusy | genStart | abort | recvLoop | sendLoop | loadSend | memStore | enterRead | untilTest | recoverIfBusy =>
    simp only [microStep, microTakeLock, microWaitNotBusy, microGenStart, microAbort, microRecvLoop, microSendLoop, microLoadSend,
      microMemStore, microEnterRead, microUntilTest, microRecoverIfBusy]
    split_ifs <;> simp [MicroOut.ops, Micro.leadsTo, Micro.bus?, Micro.enters?, stopCode, leaveCode, recoverCode]
  case gotStart | gotAddr | gotSend | gotRecv | busFail | armRead | readLoop | loadPattern | untilLoop =>
    simp only [microStep, microGotStart, microGotAddr, microGotSend, microGotRecv, microBusFail, microArmRead, microReadLoop,
      microLoadPattern, microUntilLoop]
    repeat' split
    all_goals simp [MicroOut.ops, Micro.leadsTo, Micro.bus?, Micro.enters?, stopCode, leaveCode]
  case armUntil => simp [microStep, microArmUntil, MicroOut.ops, Micro.leadsTo, Micro.bus?, Micro.enters?]
  all_goals exact List.forall_mem_nil _

theorem go_leadsTo (h : microStep t m s = .go s' ops) : ∀ o ∈ ops, m.leadsTo o := by
  have := microStep_leadsTo t m s
  rwa [h] at this

theorem jump_leadsTo (h : microStep t m s = .jump s' ops) : ∀ o ∈ ops, m.leadsTo o := by
  have := microStep_leadsTo t m s
  rwa [h] at this

/-! ### A command enters its reader once -/

/-- A block without a fault, and micro-steps still to run that raise none: they enter no reader, or begin with the one entry, of a reader
without a consumer. -/
def entersSafely (code : List Micro) (s : State) : Prop :=
  s.fault = none ∧ ((∀ m ∈ code, m.enters? = none) ∨
    ∃ r m rest, code = m :: rest ∧ m.enters? = some r ∧ (∀ o ∈ rest, o.enters? = none) ∧ (s.reader r).consumer = none)

theorem entersSafely_of_none (noFault : s.fault = none) (h : ∀ m ∈ code, m.enters? = none) : entersSafely code s := ⟨noFault, .inl h⟩

/-- What a micro-step that enters does: entering, or one more step on the way to it. -/
theorem enters_step {r : Nat} (hm : m.enters? = some r) (free : (s.reader r).consumer = none) :
    microStep t m s = .hold ∨ (∃ s', microStep t m s = .go s' [] ∧ s'.fault = s.fault) ∨
      ∃ o rest, microStep t m s = .go s (o :: rest) ∧ o.enters? = some r ∧ ∀ p ∈ rest, p.enters? = none := by
  cases m <;> cases hm
  case enterRead => exact .inr (.inl ⟨_, if_pos free, rfl⟩)
  case loadPattern =>
    simp only [microStep, microLoadPattern]
    split
    · exact .inr (.inr ⟨_, _, rfl, rfl, by simp [Micro.enters?]⟩)
    · split
      · exact .inr (.inr ⟨_, _, rfl, rfl, List.forall_mem_nil _⟩)
      · exact .inl rfl

theorem entersSafely_go (safe : entersSafely (m :: rest) s) (h : microStep t m s = .go s' ops) : entersSafely (ops ++ rest) s' := by
  obtain ⟨-, -, -, -, fault⟩ := microStep_rest (s' := s') (by rw [h]; rfl)
  obtain ⟨noFault, none_ | ⟨r, m, rest, ⟨⟩, enters, after, free⟩⟩ := safe
  · obtain ⟨none_, noneRest⟩ := List.forall_mem_cons.mp none_
    exact entersSafely_of_none (fault.trans noFault)
      (List.forall_mem_append.mpr ⟨fun o ho => (go_leadsTo h o ho).2 none_, noneRest⟩)
  · rcases enters_step (t := t) enters free with held | ⟨s₁, entered, -⟩ | ⟨o, more, onTheWay, again, noneMore⟩
    · rw [held] at h; cases h
    · rw [entered] at h
      cases h
      exact entersSafely_of_none (fault.trans noFault) after
    · rw [onTheWay] at h
      cases h
      exact ⟨noFault, .inr ⟨r, o, more ++ rest, rfl, again, List.forall_mem_append.mpr ⟨noneMore, after⟩, free⟩⟩

theorem entersSafely_jump (safe : entersSafely (m :: rest) s) (h : microStep t m s = .jump s' ops) : entersSafely ops s' := by
  obtain ⟨-, -, -, -, fault⟩ := microStep_rest (s' := s') (by rw [h]; rfl)
  obtain ⟨noFault, none_ | ⟨r, m, rest, ⟨⟩, enters, after, free⟩⟩ := safe
  · obtain ⟨none_, -⟩ := List.forall_mem_cons.mp none_
    exact entersSafely_of_none (fault.trans noFault) fun o ho => (jump_leadsTo h o ho).2 none_
  · rcases enters_step (t := t) enters free with held | ⟨s₁, entered, -⟩ | ⟨o, more, onTheWay, -, -⟩
    · rw [held] at h; cases h
    · rw [entered] at h; cases h
    · rw [onTheWay] at h; cases h

theorem runCode_no_fault (safe : entersSafely code s) : (runCode t i n code s).fault = none := by
  refine runCode_keeps_code (P := entersSafely) (R := fun s => s.fault = none) (fun m rest s safe => ?_) (fun code s safe => safe.1) n
    code s safe
  refine ⟨fun _ _ => entersSafely_go safe, fun _ _ => entersSafely_jump safe, fun s' done => ?_, fun c raises => ?_⟩
  · obtain ⟨res, -, rfl⟩ := microStep_done done
    exact safe.1
  · obtain ⟨r, rfl, -, taken⟩ := microStep_raise raises
    obtain ⟨-, none_ | ⟨r', m, rest, ⟨⟩, ⟨⟩, -, free⟩⟩ := safe
    · exact absurd (none_ _ (List.mem_cons_self ..)) (by simp [Micro.enters?])
    · exact absurd free taken

/-- A transfer enters no reader. -/
theorem ofTransfer_enters {b : Nat} (h : m.ofTransfer i b = true) : m.enters? = none := by
  cases m
  case enterRead | loadPattern => cases h
  all_goals rfl

/-- A command whose checks all hold finds its reader, where it has one, without a consumer. -/
theorem codeOf_entersSafely (noFault : s.fault = none) (checked : commandFault s (.task t) i = none) : entersSafely (codeOf i) s := by
  have free (r : Nat) (h : noConsumer s r = true) : (s.reader r).consumer = none := of_decide_eq_true h
  cases i
  case sfrRead r count buf timeout =>
    rw [← firstFault_checksOf, firstFault_none_iff] at checked
    simp only [codeOf, sfrReadCode]
    split
    · exact entersSafely_of_none noFault (by simp [Micro.enters?])
    · refine ⟨noFault, .inr ⟨r, _, _, rfl, rfl, by simp [Micro.enters?], free r (checked (noConsumer s r, .concurrentReader) (by simp [checksOf]))⟩⟩
  case sfrReadUntil r patlen max buf timeout pat =>
    rw [← firstFault_checksOf, firstFault_none_iff] at checked
    refine ⟨noFault, .inr ⟨r, _, _, rfl, rfl, List.forall_mem_nil _, free r (checked (noConsumer s r, .concurrentReader) (by simp [checksOf]))⟩⟩
  case sfrPush r v => exact absurd checked (push_faults s t r v)
  case i2cInit b => exact entersSafely_of_none noFault (by simp [codeOf, initCode, Micro.enters?])
  case i2cAcquire b => exact entersSafely_of_none noFault (by simp [codeOf, acquireCode, Micro.enters?])
  case i2cRelease b => exact entersSafely_of_none noFault (by simp [codeOf, releaseCode, Micro.enters?])
  all_goals exact entersSafely_of_none noFault fun m hm => ofTransfer_enters (codeOf_fits checked m hm)

end Sys2Proof.Machine

namespace Sys2Proof

open Machine

/-- Settles O15: the one micro-step that raises a fault is the entry of a read, and the check at issue has found the reader free. -/
theorem noFaultWhereNoneApplies : Obligations.NoFaultWhereNoneApplies := by
  intro s g n i noFault issuer checked
  rcases exec_checked noFault issuer checked with ⟨t, rfl, runs⟩ | ⟨a, r, v, -, -, -, pushes⟩
  · exact ⟨_, runs, runCode_no_fault (codeOf_entersSafely noFault checked)⟩
  · exact ⟨_, pushes, noFault⟩

end Sys2Proof
end

section
/-! PROOFS of the family `other`, one owner of a bus (20_memory.md R57): what the turns of the other agents leave alone, and the release that
waits for ever (70_reset_and_hazards.md R145). -/

namespace Sys2Proof.Machine

variable {t t' b n : Nat} {i : Instr} {m : Micro} {s s₀ s' : State} {code rest ops : List Micro} {u v : Bus}

/-! ### A command stays on its bus -/

theorem ofTransfer_bus (h : m.ofTransfer i b = true) : m.bus? = some b ∨ m.bus? = none := by
  cases m <;> simp only [Micro.ofTransfer, Bool.and_eq_true, decide_eq_true_eq, Bool.false_eq_true] at h
  all_goals simp [Micro.bus?, h]

theorem ofRead_bus {r : Nat} (h : m.ofRead i r = true) : m.bus? = none := by
  cases m
  case enterRead | leaveRead | armRead | readLoop | readAll | loadPattern | armUntil | untilLoop | untilTest | memStore | ret => rfl
  all_goals cases h

theorem suffix_bus {l : List Micro} (h : code <:+ l) (hl : ∀ m ∈ l, m.bus? = some b ∨ m.bus? = none) :
    ∀ m ∈ code, m.bus? = some b ∨ m.bus? = none := fun m hm => hl m (h.subset hm)

/-- Every micro-step of a command in progress works on the bus of the command, or on none. -/
theorem fits_bus {c : Cmd} (h : c.fits) : ∀ m ∈ c.code, m.bus? = c.instr.busOf ∨ m.bus? = none := by
  obtain ⟨i, code⟩ := c
  cases i
  case i2cInit b =>
    rcases h with h | h
    · exact suffix_bus h (by simp [initCode, Micro.bus?])
    · exact suffix_bus h (by simp [recoverCode, initCode, Micro.bus?])
  case i2cAcquire b => exact suffix_bus h (by simp [acquireCode, Micro.bus?])
  case i2cRelease b => exact suffix_bus h (by simp [releaseCode, Micro.bus?])
  case sfrPush => exact h.elim
  case sfrRead | sfrReadUntil => exact fun m hm => .inr (ofRead_bus (h m hm))
  all_goals exact fun m hm => ofTransfer_bus (h m hm)

/-! ### A task off the bus leaves it alone, but for the waiters -/

/-- `v` is `u` with other waiters. -/
def Bus.sameButWaiters (u v : Bus) : Prop := ∃ w, v = { u with waiters := w }

theorem Bus.sameButWaiters.refl (u : Bus) : u.sameButWaiters u := ⟨u.waiters, rfl⟩

theorem Bus.sameButWaiters.lock_eq (h : u.sameButWaiters v) : v.lock = u.lock := by
  obtain ⟨w, rfl⟩ := h
  rfl

theorem Bus.sameButWaiters.trans {w : Bus} (h : u.sameButWaiters v) (h' : v.sameButWaiters w) : u.sameButWaiters w := by
  obtain ⟨x, rfl⟩ := h
  obtain ⟨y, rfl⟩ := h'
  exact ⟨y, rfl⟩

/-- What every bus bears to itself, and the bus set to what it is set to, holds from place to place. -/
theorem setBus_related {r : Bus → Bus → Prop} (refl : ∀ u, r u u) {c : Nat} (h : r (s.bus c) u) (b : Nat) :
    r (s.bus b) ((s.setBus c u).bus b) := getD_set_related refl h b

/-- A task inside a command exists. -/
theorem exists_of_cmd {c : Cmd} (inside : (s.task t).cmd = some c) : t < s.tasks.length := by
  by_contra absent
  rw [State.task, List.getD_eq_default _ _ (Nat.le_of_not_lt absent)] at inside
  cases inside

/-- A micro-step that does not work on a bus leaves it as it is. -/
theorem MicroEdit.bus_eq (e : MicroEdit t m s s') (hm : m.bus? ≠ some b) : s'.bus b = s.bus b := by
  cases e with
  | bus c u hc e => exact setBus_bus_ne s c b u (by rintro rfl; exact hm hc)
  | free c u hc e => exact setBus_bus_ne s c b u (by rintro rfl; exact hm (by rw [hc]; rfl))
  | nothing | reader | store | block | unblock => rfl

theorem MicroEdit.buses_length (e : MicroEdit t m s s') : s'.buses.length = s.buses.length := by
  cases e with
  | bus | free => exact List.length_set
  | nothing | reader | store | block | unblock => rfl

theorem MicroEdit.tasks_eq (e : MicroEdit t m s s') : s'.tasks = s.tasks := by cases e <;> rfl

/-- Where a task with the micro-steps `code` to run can be while another owns bus `b`, `s₀` the state its turn began in. -/
def besideOwner (s₀ : State) (b : Nat) (code : List Micro) (s : State) : Prop :=
  offBus b code ∧ (s₀.bus b).sameButWaiters (s.bus b) ∧ s.buses.length = s₀.buses.length ∧ s.tasks = s₀.tasks

/-- What is left of such a turn of task `t`. -/
def leftOwned (s₀ : State) (b t : Nat) (s : State) : Prop :=
  (s₀.bus b).sameButWaiters (s.bus b) ∧ s.buses.length = s₀.buses.length ∧ (∀ j, j ≠ t → s.task j = s₀.task j) ∧
    ∀ c, (s.task t).cmd = some c → offBus b c.code

theorem besideOwner_go (owned : (s₀.bus b).lock ≠ .free) (beside : besideOwner s₀ b (m :: rest) s)
    (h : microStep t m s = .go s' ops) : besideOwner s₀ b (ops ++ rest) s' := by
  have edit : MicroEdit t m s s' := microStep_edit (by rw [h]; rfl)
  obtain ⟨off | begins | waits, same, len, tasks⟩ := beside
  · obtain ⟨offHead, offRest⟩ := List.forall_mem_cons.mp off
    refine ⟨.inl (List.forall_mem_append.mpr ⟨fun o ho => ?_, offRest⟩), by rwa [edit.bus_eq offHead], edit.buses_length.trans len,
      edit.tasks_eq.trans tasks⟩
    rcases (go_leadsTo h o ho).1 with bus | bus
    · rwa [bus]
    · simp [bus]
  · obtain ⟨rfl, rfl⟩ := List.cons.inj begins
    cases h
    exact ⟨.inr (.inr rfl), same.trans (setBus_related .refl ⟨_, rfl⟩ b), edit.buses_length.trans len, tasks⟩
  · obtain ⟨rfl, rfl⟩ := List.cons.inj waits
    rw [show microStep t (.takeLock b) s = .hold from if_neg (by rwa [same.lock_eq])] at h
    cases h

theorem besideOwner_jump (owned : (s₀.bus b).lock ≠ .free) (beside : besideOwner s₀ b (m :: rest) s)
    (h : microStep t m s = .jump s' ops) : besideOwner s₀ b ops s' := by
  have edit : MicroEdit t m s s' := microStep_edit (by rw [h]; rfl)
  obtain ⟨off | begins | waits, same, len, tasks⟩ := beside
  · have offHead := off m (List.mem_cons_self ..)
    refine ⟨.inl fun o ho => ?_, by rwa [edit.bus_eq offHead], edit.buses_length.trans len, edit.tasks_eq.trans tasks⟩
    rcases (jump_leadsTo h o ho).1 with bus | bus
    · rwa [bus]
    · simp [bus]
  · obtain ⟨rfl, rfl⟩ := List.cons.inj begins
    cases h
  · obtain ⟨rfl, rfl⟩ := List.cons.inj waits
    rw [show microStep t (.takeLock b) s = .hold from if_neg (by rwa [same.lock_eq])] at h
    cases h

/-- A task that ends its turn beside the owner, its own record changed to `k`. -/
theorem leftOwned_setTask {k : Task} (beside : besideOwner s₀ b code s) (hk : ∀ c, k.cmd = some c → offBus b c.code) :
    leftOwned s₀ b t (s.setTask t k) := by
  obtain ⟨-, same, len, tasks⟩ := beside
  have eq (j : Nat) : s.task j = s₀.task j := by rw [State.task, tasks]; rfl
  refine ⟨same, len, fun j hj => (setTask_task_ne s t j k hj.symm).trans (eq j), fun c hc => ?_⟩
  by_cases ht : t < s.tasks.length
  · rw [setTask_task_self s t k ht] at hc
    exact hk c hc
  · rw [State.task, setTask_tasks, List.getD_eq_default _ _ (by simpa using ht)] at hc
    cases hc

theorem runCode_leftOwned (owned : (s₀.bus b).lock ≠ .free) (beside : besideOwner s₀ b code s) :
    leftOwned s₀ b t (runCode t i n code s) := by
  refine runCode_keeps_code (P := besideOwner s₀ b) (R := leftOwned s₀ b t) (fun m rest s beside => ?_) (fun code s beside => ?_) n code s
    beside
  · refine ⟨fun _ _ => besideOwner_go owned beside, fun _ _ => besideOwner_jump owned beside, fun s' done => ?_, fun c _ => ?_⟩
    · obtain ⟨res, -, rfl⟩ := microStep_done done
      exact leftOwned_setTask beside fun c hc => by cases hc
    · have ended : leftOwned s₀ b t (s.setTask t { s.task t with cmd := none }) := leftOwned_setTask beside fun c hc => by cases hc
      rw [State.raiseInside, modTask_eq]
      unfold State.raise
      split <;> exact ended
  · refine leftOwned_setTask beside fun c hc => ?_
    obtain rfl := Option.some.inj hc
    exact beside.1

/-! ### The turn of another agent -/

/-- What the checks of a bus command have found: the caller owns the lock, or takes it, or the bus is not yet initialised. -/
theorem checked_bus {t' : Nat} (checked : commandFault s (.task t') i = none) (bus : i.busOf = some b) : b < s.buses.length ∧
    ((s.bus b).initDone = true ∧ (s.bus b).lock = .owned t' ∨ i = .i2cAcquire b ∧ (s.bus b).initDone = true ∨
      i = .i2cInit b ∧ (s.bus b).initDone = false) := by
  rw [← firstFault_checksOf, firstFault_none_iff] at checked
  cases i <;> cases bus
  all_goals refine ⟨of_decide_eq_true (checked (s.busExists b, .invalidIndex) (by simp [checksOf])), ?_⟩
  case i2cInit => exact .inr (.inr ⟨rfl, by simpa using checked (!(s.bus b).initDone, .doubleInit) (by simp [checksOf])⟩)
  case i2cAcquire => exact .inr (.inl ⟨rfl, checked (_, .notInitialised) (by simp [checksOf])⟩)
  all_goals
    refine .inl ⟨checked (_, .notInitialised) ?_, of_decide_eq_true (checked (ownsLock s b t', .lockNotOwned) ?_)⟩
    all_goals simp [checksOf, transferChecks]

/-- A command that another task than the owner may issue keeps off the owned bus, or is an acquire of it. -/
theorem codeOf_offBus (excl : s.exclusive b t) (other : t' ≠ t) (checked : commandFault s (.task t') i = none) : offBus b (codeOf i) := by
  obtain ⟨⟨-, inited⟩, owned, -⟩ := excl
  by_cases bus : i.busOf = some b
  · rcases (checked_bus checked bus).2 with ⟨-, owned'⟩ | ⟨rfl, -⟩ | ⟨-, notInited⟩
    · rw [owned] at owned'
      exact absurd (Lock.owned.inj owned').symm other
    · exact .inr (.inl rfl)
    · rw [inited] at notInited
      cases notInited
  · refine .inl fun m hm => ?_
    rcases fits_bus (codeOf_fits checked) m hm with h | h
    · rwa [h]
    · simp [h]

/-- `v` is `u` with other waiters, more answers, and another BUSY. -/
def Bus.sameButOutside (u v : Bus) : Prop :=
  ∃ w as y, v = { u with waiters := w, answers := as, ctl := { u.ctl with busy := y } } ∧ (u.ctl.master = true → y = u.ctl.busy)

theorem Bus.sameButOutside.refl (u : Bus) : u.sameButOutside u := ⟨u.waiters, u.answers, u.ctl.busy, rfl, fun _ => rfl⟩

theorem Bus.sameButWaiters.outside (h : u.sameButWaiters v) : u.sameButOutside v := by
  obtain ⟨w, rfl⟩ := h
  exact ⟨w, u.answers, u.ctl.busy, rfl, fun _ => rfl⟩

/-- What the turn of an agent other than the owner `t` makes of a state in which `t` owns bus `b`. -/
structure besideStep (s : State) (b t : Nat) (s' : State) : Prop where
  outside : (s.bus b).sameButOutside (s'.bus b)
  ctl : (∀ v, s.turn ≠ .busBusy b v) → (s'.bus b).ctl = (s.bus b).ctl
  buses_length : s'.buses.length = s.buses.length
  task : s'.task t = s.task t
  off : ∀ j, j ≠ t → ∀ c, (s'.task j).cmd = some c → offBus b c.code

theorem besideStep_of_leftOwned (excl : s.exclusive b t) (other : t' ≠ t) (left : leftOwned s b t' s') : besideStep s b t s' := by
  obtain ⟨-, -, off⟩ := excl
  obtain ⟨same, len, tasks, offSelf⟩ := left
  refine ⟨same.outside, fun _ => ?_, len, tasks t other.symm, fun j hj c hc => ?_⟩
  · obtain ⟨w, same⟩ := same
    rw [same]
  · by_cases self : j = t'
    · subst self
      exact offSelf c hc
    · rw [tasks j self] at hc
      exact off j hj c hc

/-- The turn of an agent that is no task, and touches no task, keeps the owned bus but for BUSY and answers. -/
theorem besideStep_of_tasks_eq (excl : s.exclusive b t) (outside : (s.bus b).sameButOutside (s'.bus b))
    (ctl : (∀ v, s.turn ≠ .busBusy b v) → (s'.bus b).ctl = (s.bus b).ctl) (len : s'.buses.length = s.buses.length)
    (tasks : s'.tasks = s.tasks) : besideStep s b t s' := by
  obtain ⟨-, -, off⟩ := excl
  have eq (j : Nat) : s'.task j = s.task j := by rw [State.task, tasks]; rfl
  exact ⟨outside, ctl, len, eq t, fun j hj c hc => off j hj c (by rwa [← eq j])⟩

theorem besideStep_of_moves (excl : s.exclusive b t) (other : ∀ n, s.turn ≠ .task t n) (moves : Moves s s') : besideStep s b t s' := by
  have ⟨⟨exists_, inited⟩, owned, off⟩ := excl
  have locked : (s.bus b).lock ≠ .free := by simp [owned]
  have beside {code : List Micro} (h : offBus b code) : besideOwner s b code s := ⟨h, .refl _, rfl, rfl⟩
  cases moves with
  | idle => exact besideStep_of_tasks_eq excl (.refl _) (fun _ => rfl) rfl rfl
  | fault => exact besideStep_of_tasks_eq excl (.refl _) (fun _ => rfl) rfl rfl
  | resume t' n c turn _ inside =>
    have ne : t' ≠ t := by rintro rfl; exact other n turn
    exact besideStep_of_leftOwned excl ne (runCode_leftOwned locked (beside (off t' ne c inside)))
  | issue t' n d i turn _ _ _ _ checked =>
    have ne : t' ≠ t := by rintro rfl; exact other n turn
    exact besideStep_of_leftOwned excl ne (runCode_leftOwned locked (beside (codeOf_offBus excl ne checked)))
  | push => exact besideStep_of_tasks_eq excl (.refl _) (fun _ => rfl) rfl rfl
  | answer c a turn =>
    refine besideStep_of_tasks_eq excl ?_ (fun _ => ?_) List.length_set rfl
    · exact setBus_related .refl ⟨_, _, (s.bus c).ctl.busy, rfl, fun _ => rfl⟩ b
    · exact setBus_related (r := fun u v => v.ctl = u.ctl) (fun _ => rfl) (by rfl) b
  | busy c v turn =>
    cases master : (s.bus c).ctl.master with
    | true =>
      rw [envBusy_of_master master]
      exact besideStep_of_tasks_eq excl (.refl _) (fun _ => rfl) rfl rfl
    | false =>
      rw [envBusy_of_not_master master]
      refine besideStep_of_tasks_eq excl ?_ (fun notBusy => ?_) List.length_set rfl
      · exact setBus_related .refl ⟨_, _, v, rfl, by simp [master]⟩ b
      · rw [setBus_bus_ne s c b _ (by rintro rfl; exact notBusy v turn)]
  | clock => exact besideStep_of_tasks_eq excl (.refl _) (fun _ => rfl) rfl rfl
  | store a v turn =>
    unfold State.hostStore
    split <;> exact besideStep_of_tasks_eq excl (.refl _) (fun _ => rfl) rfl rfl

theorem step_besideOwner (excl : s.exclusive b t) (other : ∀ n, s.turn ≠ .task t n) (h : step s = .next s') : besideStep s b t s' := by
  obtain ⟨-, s₁, moves, rfl⟩ := step_moves h
  obtain ⟨us, n, ended⟩ := endTurn_eq s₁
  rw [ended]
  have beside := besideStep_of_moves excl other moves
  exact ⟨beside.outside, beside.ctl, beside.buses_length, beside.task, beside.off⟩

theorem besideStep.exclusive (beside : besideStep s b t s') (excl : s.exclusive b t) : s'.exclusive b t := by
  obtain ⟨⟨exists_, inited⟩, owned, -⟩ := excl
  obtain ⟨w, as, y, same, -⟩ := beside.outside
  exact ⟨⟨by rwa [beside.buses_length], by rwa [same]⟩, by rwa [same], beside.off⟩

end Sys2Proof.Machine

namespace Sys2Proof

open Machine

/-- Settles O24. -/
theorem otherAgentsLeaveOwnedBus : Obligations.OtherAgentsLeaveOwnedBus := by
  intro s s' b t excl other h
  have beside := step_besideOwner excl other h
  obtain ⟨w, as, y, same, -⟩ := beside.outside
  exact ⟨beside.exclusive excl, by rw [same], by rw [same], by rw [same], beside.ctl⟩

/-- Settles O20: the wait is a micro-step that holds, BusEnv leaves a master's BUSY alone, and no other agent touches the bus. -/
theorem releaseOfHeldBusHangs : Obligations.ReleaseOfHeldBusHangs := by
  refine ⟨fun s t n b moves ⟨exists_, inited⟩ owned busy => ?issue,
    fun s t n b moves inside busy => step_holds moves inside (waitNotBusy_holds busy),
    fun s b v turn noFault master => by rw [step_busBusy noFault turn, envBusy_of_master master],
    fun s s' t b excl inside master busy h => ?_⟩
  case issue =>
    have checked : commandFault s (.task t) (.i2cRelease b) = none := by
      simp [commandFault, exists_, inited, owned, Agent.inTask, Agent.owns]
    rw [exec_runs moves checked, show codeOf (.i2cRelease b) = .waitNotBusy b :: (releaseCode b).tail from rfl,
      runCode_held (waitNotBusy_holds busy)]
    rfl
  by_cases own : ∃ n, s.turn = .task t n
  · obtain ⟨n, turn⟩ := own
    obtain ⟨noFault, -⟩ := step_moves h
    have exists_ : t < s.tasks.length := exists_of_cmd inside
    rw [step_holds ⟨turn, noFault, exists_⟩ inside (waitNotBusy_holds busy)] at h
    obtain rfl := Host.Outcome.next.inj h
    obtain ⟨us, k, ended⟩ := endTurn_eq s
    rw [ended]
    exact ⟨excl, inside, master, busy, rfl⟩
  · have beside := step_besideOwner excl (not_exists.mp own) h
    obtain ⟨w, as, y, same, kept⟩ := beside.outside
    refine ⟨beside.exclusive excl, by rw [beside.task, inside], by rwa [same], ?_, by rw [beside.task]⟩
    rw [same]
    exact (kept master).trans busy

end Sys2Proof
end

section
/-! PROOFS of the family `other`, frames: what a command leaves alone, in the turn that issues it and in every later turn
(20_memory.md section 2; 41_i2c_bus_control.md; 42_i2c_transfers.md section 2; 43_serial_frame_reader.md section 2). -/

namespace Sys2Proof.Machine

variable {t b r n : Nat} {i : Instr} {m : Micro} {s s' : State} {code rest ops : List Micro} {u v : Bus}

/-! ### A command in progress stays where it can be -/

theorem fits_go (fits : (⟨i, m :: rest⟩ : Cmd).fits) (h : microStep t m s = .go s' ops) : (⟨i, ops ++ rest⟩ : Cmd).fits := by
  cases i
  case i2cInit b => exact (init_ops fits).1 h
  case i2cAcquire b =>
    rw [(acqrel_ops (.inl (fits.subset (List.mem_cons_self ..)))).1 h]
    exact suffix_tail fits
  case i2cRelease b =>
    rw [(acqrel_ops (.inr (fits.subset (List.mem_cons_self ..)))).1 h]
    exact suffix_tail fits
  case sfrPush => exact fits.elim
  case sfrRead | sfrReadUntil =>
    obtain ⟨head, tail⟩ := List.forall_mem_cons.mp fits
    exact List.forall_mem_append.mpr ⟨read_ops head (.inl h), tail⟩
  all_goals
    obtain ⟨head, tail⟩ := List.forall_mem_cons.mp fits
    exact List.forall_mem_append.mpr ⟨transfer_ops head (.inl h), tail⟩

theorem fits_jump (fits : (⟨i, m :: rest⟩ : Cmd).fits) (h : microStep t m s = .jump s' ops) : (⟨i, ops⟩ : Cmd).fits := by
  cases i
  case i2cInit b => exact absurd h (init_ops fits).2
  case i2cAcquire b => exact absurd h (acqrel_ops (.inl (fits.subset (List.mem_cons_self ..)))).2
  case i2cRelease b => exact absurd h (acqrel_ops (.inr (fits.subset (List.mem_cons_self ..)))).2
  case sfrPush => exact fits.elim
  case sfrRead | sfrReadUntil => exact read_ops (fits m (List.mem_cons_self ..)) (.inr h)
  all_goals exact transfer_ops (fits m (List.mem_cons_self ..)) (.inr h)

/-! ### The units a command in progress works on -/

theorem ofRead_reader (h : m.ofRead i r = true) : m.reader? = some r ∨ m.reader? = none := by
  cases m <;> simp only [Micro.ofRead, Bool.and_eq_true, decide_eq_true_eq, Bool.false_eq_true] at h
  all_goals simp [Micro.reader?, h]

theorem ofTransfer_reader (h : m.ofTransfer i b = true) : m.reader? = none := by
  cases m
  case enterRead | readLoop | readAll | untilLoop | leaveRead => cases h
  all_goals rfl

theorem suffix_reader {l : List Micro} (h : code <:+ l) (hl : ∀ m ∈ l, m.reader? = none) : ∀ m ∈ code, m.reader? = none :=
  fun m hm => hl m (h.subset hm)

/-- Every micro-step of a command in progress works on the reader of the command, or on none. -/
theorem fits_reader {c : Cmd} (h : c.fits) : ∀ m ∈ c.code, m.reader? = c.instr.readerOf ∨ m.reader? = none := by
  obtain ⟨i, code⟩ := c
  cases i
  case i2cInit b =>
    refine fun m hm => .inr ?_
    rcases h with h | h
    · exact suffix_reader h (by simp [initCode, Micro.reader?]) m hm
    · exact suffix_reader h (by simp [recoverCode, initCode, Micro.reader?]) m hm
  case i2cAcquire b => exact fun m hm => .inr (suffix_reader h (by simp [acquireCode, Micro.reader?]) m hm)
  case i2cRelease b => exact fun m hm => .inr (suffix_reader h (by simp [releaseCode, Micro.reader?]) m hm)
  case sfrPush => exact h.elim
  case sfrRead | sfrReadUntil => exact fun m hm => ofRead_reader (h m hm)
  all_goals exact fun m hm => .inr (ofTransfer_reader (h m hm))

/-- A command in progress stores to its buffer only. -/
theorem fits_store {c : Cmd} (h : c.fits) {a : Nat} {w : Byte} (hm : .memStore a w ∈ c.code) : c.instr.storesAt a = true := by
  obtain ⟨i, code⟩ := c
  cases i
  case i2cInit b =>
    rcases h with h | h
    · exact absurd (h.subset hm) (by simp [initCode])
    · exact absurd (h.subset hm) (by simp [recoverCode, initCode])
  case i2cAcquire b => exact absurd (h.subset hm) (by simp [acquireCode])
  case i2cRelease b => exact absurd (h.subset hm) (by simp [releaseCode])
  case sfrPush => exact h.elim
  all_goals exact h _ hm

/-! ### A frame, over a turn's micro-steps -/

/-- What every micro-step that command `i` of task `t` can come to leaves alone, and the change of the task's own record and a fault record
do. -/
structure CmdFrame (i : Instr) (t : Nat) (F : State → State → Prop) : Prop where
  refl : ∀ s, F s s
  trans : ∀ {s₁ s₂ s₃}, F s₁ s₂ → F s₂ s₃ → F s₁ s₃
  edit : ∀ {m rest s s'}, (⟨i, m :: rest⟩ : Cmd).fits → MicroEdit t m s s' → F s s'
  setTask : ∀ {s k}, k.prog = (s.task t).prog → F s (s.setTask t k)
  fault : ∀ {s f}, F s { s with fault := f }

variable {F : State → State → Prop}

theorem CmdFrame.runCode (K : CmdFrame i t F) (fits : (⟨i, code⟩ : Cmd).fits) (s : State) : F s (runCode t i n code s) := by
  refine runCode_keeps_code (P := fun code s' => (⟨i, code⟩ : Cmd).fits ∧ F s s') (R := F s) (fun m rest s₁ ⟨fits, kept⟩ => ?_)
    (fun code s₁ ⟨_, kept⟩ => K.trans kept (K.setTask rfl)) n code s ⟨fits, K.refl s⟩
  refine ⟨fun s₂ ops h => ?_, fun s₂ ops h => ?_, fun s₂ h => ?_, fun c _ => ?_⟩
  · exact ⟨fits_go fits h, K.trans kept (K.edit fits (microStep_edit (by rw [h]; rfl)))⟩
  · exact ⟨fits_jump fits h, K.trans kept (K.edit fits (microStep_edit (by rw [h]; rfl)))⟩
  · obtain ⟨res, -, rfl⟩ := microStep_done h
    exact K.trans kept (K.setTask rfl)
  · rw [State.raiseInside, modTask_eq]
    have ended : F s (s₁.setTask t { s₁.task t with cmd := none }) := K.trans kept (K.setTask rfl)
    unfold State.raise
    split
    · exact K.trans ended K.fault
    · exact ended

/-- A later turn. -/
theorem CmdFrame.resume (K : CmdFrame i t F) {c : Cmd} (inside : (s.task t).cmd = some c) (fits : c.fits) (hi : c.instr = i) :
    F s (s.resume t n) := by
  subst hi
  simp only [State.resume, inside]
  exact K.runCode fits s

/-- The turn that issues the command. -/
theorem exec_frame (K : ∀ t, CmdFrame i t F) (notPush : ∀ r v, i ≠ .sfrPush r v) (h : exec i s = .next s') : F s s' := by
  rcases exec_cases h with ⟨c, g, rfl⟩ | ⟨t, n, -, checked, rfl⟩ | ⟨g, n, r, v, -, isPush, -⟩
  · exact (K 0).fault
  · exact (K t).runCode (codeOf_fits checked) s
  · exact absurd isPush (notPush r v)

/-! ### Memory, the other units and the other tasks -/

theorem changesOnly_refl (i : Instr) (g : Agent) (s : State) : s.changesOnly i g s :=
  ⟨fun _ _ => rfl, rfl, rfl, rfl, fun _ _ => rfl, fun _ _ _ => rfl, fun _ _ => rfl⟩

theorem changesOnly_trans {g : Agent} {s₁ s₂ s₃ : State} (h : s₁.changesOnly i g s₂) (h' : s₂.changesOnly i g s₃) :
    s₁.changesOnly i g s₃ := by
  obtain ⟨mem, cfg, now, turns, buses, readers, tasks⟩ := h
  obtain ⟨mem', cfg', now', turns', buses', readers', tasks'⟩ := h'
  exact ⟨fun a ha => (mem' a ha).trans (mem a ha), cfg'.trans cfg, now'.trans now, turns'.trans turns,
    fun b hb => (buses' b hb).trans (buses b hb), fun r hr hg => (readers' r hr hg).trans (readers r hr hg),
    fun t ht => (tasks' t ht).trans (tasks t ht)⟩

theorem changesOnly_setBus {g : Agent} (hb : i.busOf = some b) (u : Bus) (s : State) : s.changesOnly i g (s.setBus b u) :=
  ⟨fun _ _ => rfl, rfl, rfl, rfl, fun c hc => setBus_bus_ne s b c u (by rintro rfl; exact hc hb), fun _ _ _ => rfl, fun _ _ => rfl⟩

theorem changesOnly_setReader {g : Agent} (hr : i.readerOf = some r) (d : Reader) (s : State) : s.changesOnly i g (s.setReader r d) :=
  ⟨fun _ _ => rfl, rfl, rfl, rfl, fun _ _ => rfl, fun x hx _ => setReader_reader_ne s r x d (by rintro rfl; exact hx hr),
    fun _ _ => rfl⟩

theorem changesOnly_frame (i : Instr) (t : Nat) : CmdFrame i t fun s s' => s.changesOnly i (.task t) s' where
  refl := changesOnly_refl i _
  trans := changesOnly_trans
  edit {m rest s s'} fits e := by
    have head : m ∈ (⟨i, m :: rest⟩ : Cmd).code := List.mem_cons_self ..
    cases e with
    | nothing => exact changesOnly_refl i _ s
    | bus b u hb e => exact changesOnly_setBus (by simpa [hb, eq_comm] using fits_bus fits m head) u s
    | free b u hm e =>
      have hb : m.bus? = some b := by rw [hm]; rfl
      exact changesOnly_setBus (by simpa [hb, eq_comm] using fits_bus fits m head) u s
    | reader r k c hr => exact changesOnly_setReader (by simpa [hr, eq_comm] using fits_reader fits m head) _ s
    | store a w hm =>
      subst hm
      have inside := fits_store fits head
      simp only [Instr.storesAt, Bool.and_eq_true, decide_eq_true_eq] at inside
      exact ⟨fun x hx => read_write_ne _ _ (by rintro rfl; omega), rfl, rfl, rfl, fun _ _ => rfl, fun _ _ _ => rfl, fun _ _ => rfl⟩
    | block | unblock => exact ⟨fun _ _ => rfl, rfl, rfl, rfl, fun _ _ => rfl, fun _ _ _ => rfl, fun _ _ => rfl⟩
  setTask {s k} _ := ⟨fun _ _ => rfl, rfl, rfl, rfl, fun _ _ => rfl, fun _ _ _ => rfl,
    fun j hj => setTask_task_ne s t j k (by rintro rfl; exact hj rfl)⟩
  fault := ⟨fun _ _ => rfl, rfl, rfl, rfl, fun _ _ => rfl, fun _ _ _ => rfl, fun _ _ => rfl⟩

theorem push_changesOnly (s : State) (r : Nat) (w : Byte) (g : Nat) : s.changesOnly (.sfrPush r w) (.uartRx g) (s.push r w g) := by
  refine ⟨fun _ _ => rfl, rfl, rfl, rfl, fun _ _ => rfl, fun x hx hg => ?_, fun _ _ => rfl⟩
  exact (setReader_reader_ne _ g x _ (by rintro rfl; exact hg rfl)).trans
    (setReader_reader_ne s r x _ (by rintro rfl; exact hx rfl))

/-! ### Every step keeps the commands in progress where they can be -/

theorem cmdsFit_setTask {k : Task} (fit : s.cmdsFit) (hk : ∀ c, k.cmd = some c → c.fits) : (s.setTask t k).cmdsFit := by
  intro j c hc
  exact getD_set_related (r := fun k l : Task => (∀ c, k.cmd = some c → c.fits) → ∀ c, l.cmd = some c → c.fits) (fun _ => id)
    (fun _ => hk) j (fit j) c hc

theorem cmdsFit_of_tasks_eq (fit : s.cmdsFit) (tasks : s'.tasks = s.tasks) : s'.cmdsFit := by
  intro j c hc
  rw [State.task, tasks] at hc
  exact fit j c hc

theorem runCode_cmdsFit (fits : (⟨i, code⟩ : Cmd).fits) (fit : s.cmdsFit) : (runCode t i n code s).cmdsFit := by
  refine runCode_keeps_code (P := fun code s' => (⟨i, code⟩ : Cmd).fits ∧ s'.cmdsFit) (R := State.cmdsFit)
    (fun m rest s₁ ⟨fits, fit⟩ => ?_) (fun code s₁ ⟨fits, fit⟩ => ?_) n code s ⟨fits, fit⟩
  · refine ⟨fun s₂ ops h => ?_, fun s₂ ops h => ?_, fun s₂ h => ?_, fun c _ => ?_⟩
    · exact ⟨fits_go fits h, cmdsFit_of_tasks_eq fit (microStep_rest (by rw [h]; rfl)).1⟩
    · exact ⟨fits_jump fits h, cmdsFit_of_tasks_eq fit (microStep_rest (by rw [h]; rfl)).1⟩
    · obtain ⟨res, -, rfl⟩ := microStep_done h
      exact cmdsFit_setTask fit fun c hc => by cases hc
    · exact cmdsFit_of_tasks_eq (cmdsFit_setTask (t := t) (k := { s₁.task t with cmd := none }) fit fun c hc => by cases hc)
        (by rw [State.raiseInside, modTask_eq, State.raise]; split <;> rfl)
  · refine cmdsFit_setTask fit fun c hc => ?_
    obtain rfl := Option.some.inj hc
    exact fits

theorem moves_cmdsFit (fit : s.cmdsFit) (moves : Moves s s') : s'.cmdsFit := by
  cases moves with
  | resume t n c _ _ inside => exact runCode_cmdsFit (fit t c inside) fit
  | issue t n d i _ _ _ _ _ checked => exact runCode_cmdsFit (codeOf_fits checked) fit
  | idle | fault | push | answer | clock => exact fit
  | busy => unfold State.envBusy; split <;> exact fit
  | store => unfold State.hostStore; split <;> exact fit

/-! ### What a transfer leaves alone on its bus -/

theorem controlKept_refl (b : Nat) (s : State) : s.controlKept b s := (transferKept_refl s b).1

theorem controlKept_trans {s₁ s₂ s₃ : State} (h : s₁.controlKept b s₂) (h' : s₂.controlKept b s₃) : s₁.controlKept b s₃ := by
  simp only [State.controlKept] at h h' ⊢
  simp_all

theorem fits_transfer {c : Cmd} (fits : c.fits) (transfer : c.instr.isTransfer = true) (bus : c.instr.busOf = some b) :
    ∀ m ∈ c.code, m.ofTransfer c.instr b = true := by
  obtain ⟨i, code⟩ := c
  cases i <;> cases transfer <;> cases bus <;> exact fits

/-- What a micro-step of a transfer makes of its bus. -/
theorem BusEdit.controlKept (e : BusEdit t m u v) (hm : m.ofTransfer i b = true) : v.handle = u.handle ∧ v.initDone = u.initDone ∧
    v.lock = u.lock ∧ v.waiters = u.waiters ∧ v.clkEn = u.clkEn ∧ v.ctl.pe = u.ctl.pe ∧ v.ctl.ccr = u.ctl.ccr ∧
    v.ctl.fs = u.ctl.fs ∧ v.ctl.pins = u.ctl.pins := by
  cases e
  case resetLock | clock | pins | enable | setCcr | setFs | drawBusy | setInitDone | joinWaiters | takeLock | freeLock => cases hm
  all_goals exact ⟨rfl, rfl, rfl, rfl, rfl, rfl, rfl, rfl, rfl⟩

theorem controlKept_frame (transfer : i.isTransfer = true) (bus : i.busOf = some b) (t : Nat) :
    CmdFrame i t fun s s' => s.controlKept b s' where
  refl := controlKept_refl b
  trans := controlKept_trans
  edit {m rest s s'} fits e := by
    have hm := fits_transfer fits transfer bus m (List.mem_cons_self ..)
    cases e with
    | nothing => exact controlKept_refl b s
    | bus c u hc e =>
      obtain rfl : b = c := by simpa [hc, eq_comm] using ofTransfer_bus hm
      exact (transferKept_setBus s b u (e.controlKept hm)).1
    | free c u hd e => rw [hd] at hm; cases hm
    | reader r k c hr => rw [ofTransfer_reader hm] at hr; cases hr
    | store a w hs => exact (transferKept_setMem s b _).1
    | block hp | unblock hp => rw [hp] at hm; cases hm
  setTask {s k} prog := by
    refine ⟨rfl, rfl, rfl, rfl, rfl, rfl, rfl, rfl, rfl, rfl, rfl, rfl, fun j => ?_⟩
    exact getD_set_related (r := fun k l : Task => l.prog = k.prog) (fun _ => rfl) prog j
  fault {s f} := controlKept_refl b s

/-! ### What bus control leaves alone -/

/-- What I2C_ACQUIRE and I2C_RELEASE leave alone of their bus. -/
def Bus.engineSame (u v : Bus) : Prop :=
  v.ctl = u.ctl ∧ v.trace = u.trace ∧ v.phase = u.phase ∧ v.answers = u.answers ∧ v.handle = u.handle ∧ v.initDone = u.initDone

/-- What I2C_INIT leaves alone of its bus. -/
def Bus.initSame (u v : Bus) : Prop := v.ctl.master = u.ctl.master ∧ v.ctl.ackEn = u.ctl.ackEn ∧ v.handle = u.handle

theorem Bus.engineSame.refl (u : Bus) : u.engineSame u := ⟨rfl, rfl, rfl, rfl, rfl, rfl⟩

theorem Bus.initSame.refl (u : Bus) : u.initSame u := ⟨rfl, rfl, rfl⟩

theorem BusEdit.engineSame (e : BusEdit t m u v) (hm : m ∈ acquireCode b ∨ m ∈ releaseCode b) : u.engineSame v := by
  have quiet : ∀ m ∈ acquireCode b ++ releaseCode b, m.asks? = none ∧ m.emits = false ∧ m.mayLose = false := by
    simp [acquireCode, releaseCode, Micro.asks?, Micro.emits, Micro.mayLose]
  obtain ⟨noAsk, noEvent, noLoss⟩ := quiet m (List.mem_append.mpr hm)
  cases e
  case clock | joinWaiters | takeLock | freeLock => exact ⟨rfl, rfl, rfl, rfl, rfl, rfl⟩
  case draw notWedged asks answers => exact absurd noAsk asks
  case emit emits => simp [noEvent] at emits
  case lose loses => simp [noLoss] at loses
  all_goals simp [acquireCode, releaseCode] at hm

theorem BusEdit.initSame (e : BusEdit t m u v) (hm : m ∈ initCode b ∨ m ∈ recoverCode b) : u.initSame v := by
  cases e
  case setAckEn | closeBus | start => simp [initCode, recoverCode] at hm
  case lose loses =>
    have : ∀ m ∈ initCode b ++ recoverCode b, m.mayLose = false := by simp [initCode, recoverCode, Micro.mayLose]
    simp [this m (List.mem_append.mpr hm)] at loses
  all_goals exact ⟨rfl, rfl, rfl⟩

theorem engineKept_of_bus (same : (s.bus b).engineSame (s'.bus b)) (mem : s'.mem = s.mem) (readers : s'.readers = s.readers)
    (draws : s'.draws = s.draws) : s.engineKept b s' := by
  obtain ⟨ctl, trace, phase, answers, handle, initDone⟩ := same
  exact ⟨ctl, trace, phase, answers, handle, initDone, mem, readers, draws⟩

theorem engineKept_trans {s₁ s₂ s₃ : State} (h : s₁.engineKept b s₂) (h' : s₂.engineKept b s₃) : s₁.engineKept b s₃ := by
  simp only [State.engineKept] at h h' ⊢
  simp_all

theorem engineKept_frame (pair : i = .i2cAcquire b ∨ i = .i2cRelease b) (t : Nat) : CmdFrame i t fun s s' => s.engineKept b s' where
  refl s := engineKept_of_bus (.refl _) rfl rfl rfl
  trans := engineKept_trans
  edit {m rest s s'} fits e := by
    have hm : m ∈ acquireCode b ∨ m ∈ releaseCode b := by
      rcases pair with rfl | rfl
      · exact .inl (fits.subset (List.mem_cons_self ..))
      · exact .inr (fits.subset (List.mem_cons_self ..))
    cases e with
    | nothing => exact engineKept_of_bus (.refl _) rfl rfl rfl
    | bus c u hc e => exact engineKept_of_bus (setBus_related .refl (e.engineSame hm) b) rfl rfl rfl
    | block | unblock => exact engineKept_of_bus (.refl _) rfl rfl rfl
    | free c u hd e => simp [hd, acquireCode, releaseCode] at hm
    | reader r k c hr =>
      have : ∀ m ∈ acquireCode b ++ releaseCode b, m.reader? = none := by simp [acquireCode, releaseCode, Micro.reader?]
      simp [this m (List.mem_append.mpr hm)] at hr
    | store a w hs => simp [hs, acquireCode, releaseCode] at hm
  setTask _ := engineKept_of_bus (.refl _) rfl rfl rfl
  fault := engineKept_of_bus (.refl _) rfl rfl rfl

theorem initKeeps_of_bus (same : (s.bus b).initSame (s'.bus b)) (pm : s'.pmDeepBlocks = s.pmDeepBlocks) (mem : s'.mem = s.mem)
    (readers : s'.readers = s.readers) : s.initKeeps b s' := by
  obtain ⟨master, ackEn, handle⟩ := same
  exact ⟨pm, master, ackEn, handle, mem, readers⟩

theorem initKeeps_trans {s₁ s₂ s₃ : State} (h : s₁.initKeeps b s₂) (h' : s₂.initKeeps b s₃) : s₁.initKeeps b s₃ := by
  simp only [State.initKeeps] at h h' ⊢
  simp_all

/-- A micro-step of I2C_INIT is one of its body or of the recovery. -/
theorem fits_init (fits : (⟨.i2cInit b, code⟩ : Cmd).fits) (hm : m ∈ code) : m ∈ initCode b ∨ m ∈ recoverCode b := by
  rcases fits with h | h
  · exact .inl (h.subset hm)
  · rcases List.mem_append.mp (h.subset hm) with h | h
    · exact .inr h
    · exact .inl (List.mem_of_mem_drop h)

theorem initKeeps_frame (b t : Nat) : CmdFrame (.i2cInit b) t fun s s' => s.initKeeps b s' where
  refl s := initKeeps_of_bus (.refl _) rfl rfl rfl
  trans := initKeeps_trans
  edit {m rest s s'} fits e := by
    have hm := fits_init fits (List.mem_cons_self ..)
    cases e with
    | nothing => exact initKeeps_of_bus (.refl _) rfl rfl rfl
    | bus c u hc e | free c u hc e => exact initKeeps_of_bus (setBus_related .refl (e.initSame hm) b) rfl rfl rfl
    | block hp | unblock hp => simp [hp, initCode, recoverCode] at hm
    | reader r k c hr =>
      have : ∀ m ∈ initCode b ++ recoverCode b, m.reader? = none := by simp [initCode, recoverCode, Micro.reader?]
      simp [this m (List.mem_append.mpr hm)] at hr
    | store a w hs => simp [hs, initCode, recoverCode] at hm
  setTask _ := initKeeps_of_bus (.refl _) rfl rfl rfl
  fault := initKeeps_of_bus (.refl _) rfl rfl rfl

/-! ### What the serial commands leave alone -/

theorem setReader_cap {d : Reader} (h : d.cap = (s.reader r).cap) (x : Nat) : ((s.setReader r d).reader x).cap = (s.reader x).cap :=
  getD_set_related (r := fun d e : Reader => e.cap = d.cap) (fun _ => rfl) h x

theorem setReader_takes {d : Reader} (q : ∃ k, d.q = (s.reader r).q.drop k) (results : d.rxResults = (s.reader r).rxResults) (x : Nat) :
    s.takesOnly x (s.setReader r d) :=
  getD_set_related (r := fun d e : Reader => (∃ k, e.q = d.q.drop k) ∧ e.rxResults = d.rxResults) (fun _ => ⟨⟨0, rfl⟩, rfl⟩)
    ⟨q, results⟩ x

/-- What a serial read leaves alone. -/
def State.readKept (s : State) (r : Nat) (s' : State) : Prop := s.busesKept s' ∧ s.takesOnly r s'

theorem busesKept_refl (s : State) : s.busesKept s := ⟨rfl, rfl, rfl, fun _ => rfl⟩

theorem takesOnly_refl (r : Nat) (s : State) : s.takesOnly r s := ⟨⟨0, rfl⟩, rfl⟩

theorem readKept_trans {s₁ s₂ s₃ : State} (h : s₁.readKept r s₂) (h' : s₂.readKept r s₃) : s₁.readKept r s₃ := by
  obtain ⟨⟨buses, pm, draws, cap⟩, ⟨k, q⟩, results⟩ := h
  obtain ⟨⟨buses', pm', draws', cap'⟩, ⟨k', q'⟩, results'⟩ := h'
  exact ⟨⟨buses'.trans buses, pm'.trans pm, draws'.trans draws, fun x => (cap' x).trans (cap x)⟩,
    ⟨k + k', by rw [q', q, List.drop_drop]⟩, results'.trans results⟩

theorem fits_read {c : Cmd} (fits : c.fits) (reader : c.instr.readerOf = some r) : ∀ m ∈ c.code, m.ofRead c.instr r = true := by
  obtain ⟨i, code⟩ := c
  cases i <;> cases reader
  case sfrPush => exact fits.elim
  all_goals exact fits

theorem readKept_frame (reader : i.readerOf = some r) (t : Nat) : CmdFrame i t fun s s' => s.readKept r s' where
  refl s := ⟨busesKept_refl s, takesOnly_refl r s⟩
  trans := readKept_trans
  edit {m rest s s'} fits e := by
    have hm := fits_read fits reader m (List.mem_cons_self ..)
    cases e with
    | nothing => exact ⟨busesKept_refl s, takesOnly_refl r s⟩
    | bus c u hc e => rw [ofRead_bus hm] at hc; cases hc
    | free c u hd e => rw [hd] at hm; cases hm
    | reader x k c hx => exact ⟨⟨rfl, rfl, rfl, setReader_cap (by rfl)⟩, setReader_takes ⟨k, rfl⟩ (by rfl) r⟩
    | store a w hs => exact ⟨⟨rfl, rfl, rfl, fun _ => rfl⟩, ⟨0, rfl⟩, rfl⟩
    | block hp | unblock hp => rw [hp] at hm; cases hm
  setTask _ := ⟨⟨rfl, rfl, rfl, fun _ => rfl⟩, ⟨0, rfl⟩, rfl⟩
  fault := ⟨⟨rfl, rfl, rfl, fun _ => rfl⟩, ⟨0, rfl⟩, rfl⟩

/-- What a push leaves alone. -/
theorem push_kept (s : State) (x : Nat) (w : Byte) (g : Nat) : s.busesKept (s.push x w g) ∧ (s.push x w g).mem = s.mem ∧
    (s.push x w g).tasks = s.tasks ∧ ∀ y, ((s.push x w g).reader y).consumer = (s.reader y).consumer := by
  refine ⟨⟨rfl, rfl, rfl, fun y => ?_⟩, rfl, rfl, fun y => ?_⟩
  · exact (setReader_cap (by rfl) y).trans (setReader_cap (pushByte_cap ..) y)
  · have same {s : State} {r : Nat} {d : Reader} (h : d.consumer = (s.reader r).consumer) :
        ((s.setReader r d).reader y).consumer = (s.reader y).consumer :=
      getD_set_related (r := fun d e : Reader => e.consumer = d.consumer) (fun _ => rfl) h y
    exact (same (by rfl)).trans (same (pushByte_consumer ..))

end Sys2Proof.Machine

namespace Sys2Proof

open Machine

/-- Settles O45: `changesOnly_frame` over a turn, `push_changesOnly` for the receive interrupt, and `moves_cmdsFit` over a step. -/
theorem commandsChangeOnlyTheirUnits : Obligations.CommandsChangeOnlyTheirUnits := by
  refine ⟨fun i s s' g n issuer h => ?issue, fun s t n c inside fits => (changesOnly_frame c.instr t).resume inside fits rfl,
    fun s s' fit h => ?step⟩
  case issue =>
    rcases exec_cases h with ⟨c, g', rfl⟩ | ⟨t, n', issuer', checked, rfl⟩ | ⟨g', n', r, v, issuer', rfl, -, rfl⟩
    · exact ⟨fun _ _ => rfl, rfl, rfl, rfl, fun _ _ => rfl, fun _ _ _ => rfl, fun _ _ => rfl⟩
    · rw [issuer] at issuer'
      cases issuer'
      exact (changesOnly_frame i t).runCode (codeOf_fits checked) s
    · rw [issuer] at issuer'
      cases issuer'
      exact push_changesOnly s r v g'
  case step =>
    obtain ⟨-, s₁, moves, rfl⟩ := step_moves h
    obtain ⟨us, n, ended⟩ := endTurn_eq s₁
    rw [ended]
    exact cmdsFit_of_tasks_eq (moves_cmdsFit fit moves) rfl

/-- Settles O46. -/
theorem transfersLeaveControlState : Obligations.TransfersLeaveControlState :=
  ⟨fun _ _ _ _ transfer bus h => exec_frame (controlKept_frame transfer bus) (fun _ _ isPush => by subst isPush; cases transfer) h,
    fun _ t _ _ _ inside fits transfer bus => (controlKept_frame transfer bus t).resume inside fits rfl⟩

/-- Settles O47. -/
theorem busControlLeavesTheRest : Obligations.BusControlLeavesTheRest := by
  refine ⟨fun b s s' => ⟨fun h => ?pair, fun h => exec_frame (initKeeps_frame b) (fun _ _ => Instr.noConfusion) h⟩,
    fun s t n b c inside fits => ⟨fun pair => (engineKept_frame pair t).resume inside fits rfl,
      fun init => (initKeeps_frame b t).resume inside fits init⟩⟩
  rcases h with h | h
  · exact exec_frame (engineKept_frame (.inl rfl)) (fun _ _ => Instr.noConfusion) h
  · exact exec_frame (engineKept_frame (.inr rfl)) (fun _ _ => Instr.noConfusion) h

/-- Settles O48. -/
theorem serialCommandsLeaveTheRest : Obligations.SerialCommandsLeaveTheRest := by
  refine ⟨fun i s s' r reader h => ?issue, fun s t n r c inside fits reader => (readKept_frame reader t).resume inside fits rfl⟩
  by_cases push : ∃ x v, i = .sfrPush x v
  · obtain ⟨x, v, rfl⟩ := push
    cases reader
    rcases exec_cases h with ⟨c, g, rfl⟩ | ⟨t, n, -, checked, -⟩ | ⟨g, n, r, v, -, ⟨⟩, -, rfl⟩
    · exact ⟨⟨rfl, rfl, rfl, fun _ => rfl⟩, fun notPush => absurd rfl (notPush v), fun _ _ => ⟨rfl, rfl, fun _ => rfl⟩⟩
    · exact absurd checked (push_faults s t r v)
    · obtain ⟨buses, rest⟩ := push_kept s r v g
      exact ⟨buses, fun notPush => absurd rfl (notPush v), fun _ _ => rest⟩
  · obtain ⟨buses, takes⟩ := exec_frame (readKept_frame reader) (fun x v isPush => push ⟨x, v, isPush⟩) h
    exact ⟨buses, fun _ => takes, fun v isPush => absurd ⟨r, v, isPush⟩ push⟩

end Sys2Proof
end

section
/-! PROOFS of the family `other`, bus control: the runs of I2C_INIT, I2C_ACQUIRE and I2C_RELEASE (41_i2c_bus_control.md). -/

namespace Sys2Proof.Machine

/-! ### Runs of micro-steps, composed -/

/-- In at most `k` micro-steps a task with `code` to run in `s` comes to `code'` in `s'`. -/
def Runs (t : Nat) (i : Instr) (k : Nat) (code : List Micro) (s : State) (code' : List Micro) (s' : State) : Prop :=
  ∃ m, m ≤ k ∧ ∀ n, runCode t i (n + m) code s = runCode t i n code' s'

section
variable {t k k' n : Nat} {i : Instr} {m : Micro} {s s' s'' : State} {code code' code'' rest ops : List Micro}

theorem Runs.refl (code : List Micro) (s : State) : Runs t i 0 code s code s := ⟨0, le_rfl, fun _ => rfl⟩

theorem Runs.trans (h : Runs t i k code s code' s') (h' : Runs t i k' code' s' code'' s'') : Runs t i (k + k') code s code'' s'' := by
  obtain ⟨m, hm, eq⟩ := h
  obtain ⟨m', hm', eq'⟩ := h'
  exact ⟨m + m', Nat.add_le_add hm hm', fun n => by rw [← eq', ← eq]; congr 1; omega⟩

theorem Runs.mono (h : Runs t i k code s code' s') (le : k ≤ k') : Runs t i k' code s code' s' := by
  obtain ⟨m, hm, eq⟩ := h
  exact ⟨m, hm.trans le, eq⟩

theorem Runs.go (h : microStep t m s = .go s' ops) : Runs t i 1 (m :: rest) s (ops ++ rest) s' := ⟨1, le_rfl, fun _ => runCode_go h⟩

theorem Runs.jump (h : microStep t m s = .jump s' ops) : Runs t i 1 (m :: rest) s ops s' := ⟨1, le_rfl, fun _ => runCode_jump h⟩

/-- A run that comes to `return`. -/
theorem Runs.returns {res : Result} (h : Runs t i k code s (.ret res :: rest) s') (enough : k + 1 ≤ n) :
    runCode t i n code s = s'.complete t res := by
  obtain ⟨m, hm, eq⟩ := h
  obtain ⟨j, rfl⟩ : ∃ j, n = (j + 1) + m := ⟨n - m - 1, by omega⟩
  rw [eq, runCode_done rfl]

/-- A run that comes to a micro-step that holds. -/
theorem Runs.parks (h : Runs t i k code s (m :: rest) s') (held : microStep t m s' = .hold) (enough : k ≤ n) :
    runCode t i n code s = s'.park t ⟨i, m :: rest⟩ := by
  obtain ⟨j, hj, eq⟩ := h
  obtain ⟨l, rfl⟩ : ∃ l, n = l + j := ⟨n - j, by omega⟩
  rw [eq, runCode_held held]

end

variable {t b n : Nat} {s : State} {u : Bus}

/-! ### Acquire and release -/

theorem acquire_checked (ready : s.busReady b) : commandFault s (.task t) (.i2cAcquire b) = none := by
  simp [commandFault, ready, Agent.inTask]

theorem release_checked (ready : s.busReady b) (owned : (s.bus b).lock = .owned t) :
    commandFault s (.task t) (.i2cRelease b) = none := by
  simp [commandFault, ready, owned, Agent.inTask, Agent.owns]

theorem init_checked (exists_ : b < s.buses.length) (notInited : (s.bus b).initDone = false) :
    commandFault s (.task t) (.i2cInit b) = none := by
  simp [commandFault, exists_, notInited, Agent.inTask]

theorem setErase_setInsert (t : Nat) (xs : List Nat) : setErase t (setInsert t xs) = setErase t xs := by
  induction xs with
  | nil => simp [setInsert, setErase]
  | cons x xs ih =>
    unfold setInsert
    split_ifs with less same
    · simp [setErase]
    · rfl
    · unfold setErase at ih ⊢
      rw [List.filter_cons, List.filter_cons, ih]

theorem exec_acquire_free (moves : s.taskMoves t n) (enough : 5 ≤ n) (ready : s.busReady b) (free : (s.bus b).lock = .free) :
    exec (.i2cAcquire b) s = .next (((s.setBus b { s.bus b with
      lock := .owned t, waiters := setErase t (s.bus b).waiters, clkEn := true }).setPm (s.pmDeepBlocks + 1)).complete t (.ok 0)) := by
  obtain ⟨n, rfl⟩ := Nat.exists_eq_add_of_le' enough
  have ⟨exists_, _⟩ := ready
  rw [exec_runs moves (acquire_checked ready)]
  simp [codeOf, acquireCode, runCode, microStep, microJoinWaiters, microTakeLock, microPmBlock, microClock, exists_, free,
    setErase_setInsert]

theorem exec_release_idle (moves : s.taskMoves t n) (enough : 5 ≤ n) (ready : s.busReady b) (owned : (s.bus b).lock = .owned t)
    (idle : (s.bus b).ctl.busy = false) : exec (.i2cRelease b) s = .next (((s.setBus b { s.bus b with lock := .free, clkEn := false }).setPm
      (s.pmDeepBlocks - 1)).complete t (.ok 0)) := by
  obtain ⟨n, rfl⟩ := Nat.exists_eq_add_of_le' enough
  have ⟨exists_, _⟩ := ready
  rw [exec_runs moves (release_checked ready owned)]
  simp [codeOf, releaseCode, runCode, microStep, microWaitNotBusy, microClock, microPmUnblock, microFreeLock, exists_, idle]

theorem complete_results {res : Result} (ht : t < s.tasks.length) :
    ((s.complete t res).task t).results = (s.task t).results ++ [res] := by simp [ht]

theorem takeLock_holds (held : (s.bus b).lock ≠ .free) : microStep t (.takeLock b) s = .hold := if_neg held

theorem exec_acquire_held (moves : s.taskMoves t n) (enough : 2 ≤ n) (ready : s.busReady b) (held : (s.bus b).lock ≠ .free) :
    exec (.i2cAcquire b) s = .next ((s.setBus b { s.bus b with waiters := setInsert t (s.bus b).waiters }).park t
      ⟨.i2cAcquire b, (acquireCode b).tail⟩) := by
  have ⟨exists_, _⟩ := ready
  rw [exec_runs moves (acquire_checked ready)]
  have joins : Runs t (.i2cAcquire b) 1 (acquireCode b) s (acquireCode b).tail
      (s.setBus b { s.bus b with waiters := setInsert t (s.bus b).waiters }) := Runs.go (ops := []) rfl
  exact congrArg _ (joins.parks (takeLock_holds (by simpa [exists_] using held)) (by omega))

/-! ### Initialisation, with the recovery of a busy bus (40_i2c_handshake.md R95, R96)

Each run begins with bus `b` set to some `u` and ends with it set to another, so that runs compose as they stand. -/

/-- A bus with its lock reset, its clock on and its controller configured: where I2C_INIT looks at BUSY. -/
def Bus.configured (u : Bus) : Bus :=
  { u with
    lock := .free
    waiters := []
    clkEn := true
    ctl := { u.ctl with pe := true, ccr := u.handle.ccrCfg, fs := decide (u.handle.speed = .fast), pins := .i2c } }

/-- A bus in the recovery, where it asks. -/
def Bus.recovering (u : Bus) : Bus := { u with ctl := { u.ctl with pe := false, pins := .gpio } }

/-- A bus after a recovery of `n` pulses, with `as` answers undrawn and BUSY drawn as `y`. -/
def Bus.recovered (u : Bus) (n : Nat) (as : List Answer) (y : Bool) : Bus :=
  { u with
    trace := u.trace ++ [.recover n]
    answers := as
    ctl :=
      { u.ctl with
        ev := {}, pe := true, ccr := u.handle.ccrCfg, fs := decide (u.handle.speed = .fast), pins := .i2c, busy := y } }

section
variable {i : Instr} {rest : List Micro}

/-- The body of I2C_INIT up to the choice of a recovery. -/
theorem runs_configure (exists_ : b < s.buses.length) :
    Runs t i 7 (initCode b) (s.setBus b u) (.recoverIfBusy b :: (initCode b).drop 8) (s.setBus b u.configured) := by
  refine ⟨7, le_rfl, fun n => ?_⟩
  simp [initCode, runCode, microStep, microResetLock, microClock, microPins, microEnable, microSetCcr, microSetFs, exists_,
    Bus.configured]

/-- The end of I2C_INIT, after the recovery where there is one. -/
theorem runs_initEnd (exists_ : b < s.buses.length) : Runs t i 3 ((initCode b).drop 8) (s.setBus b u) [.ret (.ok 0)]
    (s.setBus b { u with clkEn := false, phase := .idle, initDone := true }) := by
  refine ⟨3, le_rfl, fun n => ?_⟩
  simp [initCode, runCode, microStep, microClock, microSetPhase, microSetInitDone, exists_]

theorem runs_recoverIfBusy_idle (exists_ : b < s.buses.length) (idle : u.ctl.busy = false) :
    Runs t i 1 (.recoverIfBusy b :: rest) (s.setBus b u) rest (s.setBus b u) :=
  Runs.go (ops := []) (by simp [microStep, microRecoverIfBusy, exists_, idle])

/-- The recovery of a busy bus up to its ask. -/
theorem runs_recoverIfBusy_busy (exists_ : b < s.buses.length) (busy : u.ctl.busy = true) : Runs t i 3 (.recoverIfBusy b :: rest)
    (s.setBus b u) (.askRecover b :: ((recoverCode b).drop 3 ++ rest)) (s.setBus b u.recovering) := by
  refine ⟨3, le_rfl, fun n => ?_⟩
  simp [recoverCode, runCode, microStep, microRecoverIfBusy, microEnable, microPins, exists_, busy, Bus.recovering]

/-- The rest of the recovery, where the environment answers. -/
theorem runs_recover {as : List Answer} (exists_ : b < s.buses.length) (answers : u.answers = .ok :: as) :
    Runs t i 7 (.askRecover b :: ((recoverCode b).drop 3 ++ rest)) (s.setBus b u) rest
      ((s.setBus b (u.recovered s.cfg.recoveryPulses as (Config.busyAfterRecovery s.draws))).setDraws (s.draws + 1)) := by
  refine ⟨7, le_rfl, fun n => ?_⟩
  simp [recoverCode, runCode, microStep, microAskRecover, ask, answers, answerAllowed, flagsSet, microNoteRecover, microDrawBusy,
    microEnable, microPins, microSetCcr, microSetFs, exists_, Bus.recovered]

end

end Sys2Proof.Machine

namespace Sys2Proof

open Machine

/-- Settles O17. -/
theorem acquireTakesFreeLock : Obligations.AcquireTakesFreeLock := fun _ _ _ _ moves enough ready free =>
  exec_acquire_free moves enough ready free

/-- Settles O18. -/
theorem acquireWaitsForHeldLock : Obligations.AcquireWaitsForHeldLock :=
  ⟨fun _ _ _ _ moves enough ready held => exec_acquire_held moves enough ready held,
    fun _ _ _ _ moves inside held => step_holds moves inside (takeLock_holds held)⟩

/-- Settles O19. -/
theorem releaseFreesLock : Obligations.ReleaseFreesLock := fun _ _ _ _ moves enough ready owned idle =>
  exec_release_idle moves enough ready owned idle

/-- Settles O21: the release runs in the very state the acquire leaves. -/
theorem acquireThenReleaseRestores : Obligations.AcquireThenReleaseRestores := by
  intro s t n b moves enough ready free clockOff idle
  have ⟨turn, noFault, task⟩ := moves
  have ⟨exists_, inited⟩ := ready
  have acquired := exec_acquire_free moves enough ready free
  generalize hs₁ : State.complete _ t (.ok 0) = s₁ at acquired
  have bus₁ : s₁.bus b = { s.bus b with lock := .owned t, waiters := setErase t (s.bus b).waiters, clkEn := true } := by
    simp [← hs₁, exists_]
  have exists₁ : b < s₁.buses.length := by simpa [← hs₁] using exists_
  have task₁ : t < s₁.tasks.length := by simpa [← hs₁] using task
  have moves₁ : s₁.taskMoves t n := ⟨by simpa [← hs₁] using turn, by simpa [← hs₁] using noFault, task₁⟩
  have results₁ : (s₁.task t).results = (s.task t).results ++ [.ok 0] := by
    rw [← hs₁]
    exact complete_results task
  have released := exec_release_idle moves₁ enough ⟨exists₁, by simp [bus₁, inited]⟩ (by simp [bus₁]) (by simp [bus₁, idle])
  refine ⟨s₁, _, acquired, released, by simp [exists₁, free], by simp [exists₁, clockOff], by simp [← hs₁], ?_⟩
  calc _ = (s₁.task t).results ++ [.ok 0] := complete_results task₁
    _ = (s.task t).results ++ [.ok 0, .ok 0] := by simp [results₁]

/-- Settles O16: the body up to the choice, the recovery where the bus is busy, and the end. -/
theorem initCompletes : Obligations.InitCompletes := by
  intro s t n b moves enough exists_ notInited
  rw [exec_runs moves (init_checked exists_ notInited), codeOf]
  have begins := runs_configure (t := t) (i := .i2cInit b) (u := s.bus b) exists_
  rw [setBus_bus] at begins
  refine ⟨fun idle => ?idle, fun rest busy answers => ?answered, fun busy none_ => ?waiting⟩
  case idle =>
    have ends := (begins.trans (runs_recoverIfBusy_idle exists_ idle)).trans (runs_initEnd exists_)
    rw [ends.returns (by omega)]
    rfl
  case answered =>
    have recovers := (begins.trans (runs_recoverIfBusy_busy exists_ busy)).trans (runs_recover exists_ answers)
    have ends := recovers.trans (runs_initEnd (s := s.setDraws (s.draws + 1)) exists_)
    rw [ends.returns (by omega)]
    rfl
  case waiting =>
    have waits := begins.trans (runs_recoverIfBusy_busy exists_ busy)
    rw [waits.parks (microStep_unanswered rfl (by rwa [setBus_bus_self _ _ _ exists_])) (by omega)]
    rfl

end Sys2Proof
end

section
/-! PROOFS of the family `other`, the wire: the run of each part of a transfer, from bus `b` set to some `u` to `b` set to what the part makes
of it, so that the parts compose (40_i2c_handshake.md; 42_i2c_transfers.md sections 1 and 2). -/

namespace Sys2Proof.Machine

/-! ### The bus, part by part -/

/-- The bus with `es` on the wire, `as` answers undrawn, and the event flags cleared where there was an event. -/
def Bus.note (u : Bus) (es : List WireEvent) (as : List Answer) : Bus :=
  { u with trace := u.trace ++ es, answers := as, ctl := { u.ctl with ev := if es.isEmpty then u.ctl.ev else {} } }

/-- The bus with the engine master: of a bus it has already, or of one that is busy from now on (40_i2c_handshake.md R86). -/
def Bus.mastered (u : Bus) : Bus := { u with ctl := { u.ctl with master := true, busy := if u.ctl.master then u.ctl.busy else true } }

/-- The bus after a STOP (40_i2c_handshake.md R90). -/
def Bus.closed (u : Bus) : Bus := { u with ctl := { u.ctl with master := false, busy := false }, phase := .idle }

/-- The bus with its transaction in phase `p`. -/
def Bus.held (u : Bus) (p : Phase) : Bus := { u with phase := p }

/-- The bus with ACK_EN set. -/
def Bus.acking (u : Bus) (on : Bool) : Bus := { u with ctl := { u.ctl with ackEn := on } }

@[simp] theorem Bus.note_answers (u : Bus) (es : List WireEvent) (as : List Answer) : (u.note es as).answers = as := rfl
@[simp] theorem Bus.note_master (u : Bus) (es : List WireEvent) (as : List Answer) : (u.note es as).ctl.master = u.ctl.master := rfl
@[simp] theorem Bus.note_busy (u : Bus) (es : List WireEvent) (as : List Answer) : (u.note es as).ctl.busy = u.ctl.busy := rfl
@[simp] theorem Bus.mastered_master (u : Bus) : u.mastered.ctl.master = true := rfl
@[simp] theorem Bus.mastered_answers (u : Bus) : u.mastered.answers = u.answers := rfl

@[simp] theorem Bus.note_note (u : Bus) (es es' : List WireEvent) (as as' : List Answer) :
    (u.note es as).note es' as' = u.note (es ++ es') as' := by
  cases es <;> cases es' <;> simp [Bus.note]

theorem Bus.note_nil {u : Bus} {as : List Answer} (h : u.answers = as) : u.note [] as = u := by simp [Bus.note, ← h]

theorem Bus.mastered_of_master {u : Bus} (h : u.ctl.master = true) : u.mastered = u := by
  have : { u.ctl with master := true, busy := if u.ctl.master then u.ctl.busy else true } = u.ctl := by
    rw [if_pos h, ← h]
  rw [Bus.mastered, this]

@[simp] theorem Bus.acking_note (u : Bus) (on : Bool) (es : List WireEvent) (as : List Answer) :
    (u.acking on).note es as = (u.note es as).acking on := rfl
@[simp] theorem Bus.acking_acking (u : Bus) (on on' : Bool) : (u.acking on).acking on' = u.acking on' := rfl
@[simp] theorem Bus.acking_answers (u : Bus) (on : Bool) : (u.acking on).answers = u.answers := rfl
@[simp] theorem Bus.acking_master (u : Bus) (on : Bool) : (u.acking on).ctl.master = u.ctl.master := rfl

@[simp] theorem Bus.held_note (u : Bus) (p : Phase) (es : List WireEvent) (as : List Answer) :
    (u.held p).note es as = (u.note es as).held p := rfl
@[simp] theorem Bus.held_acking (u : Bus) (p : Phase) (on : Bool) : (u.held p).acking on = (u.acking on).held p := rfl
@[simp] theorem Bus.held_closed (u : Bus) (p : Phase) : (u.held p).closed = u.closed := rfl
@[simp] theorem Bus.held_mastered (u : Bus) (p : Phase) : (u.held p).mastered = u.mastered.held p := rfl
@[simp] theorem Bus.held_master (u : Bus) (p : Phase) : (u.held p).ctl.master = u.ctl.master := rfl
@[simp] theorem Bus.held_answers (u : Bus) (p : Phase) : (u.held p).answers = u.answers := rfl

@[simp] theorem Bus.note_mastered (u : Bus) (es : List WireEvent) (as : List Answer) :
    (u.note es as).mastered = u.mastered.note es as := by
  cases es <;> rfl
@[simp] theorem Bus.mastered_mastered (u : Bus) : u.mastered.mastered = u.mastered := rfl

theorem Bus.acking_self (u : Bus) : u.acking u.ctl.ackEn = u := rfl

/-- The bus after the opening of a transfer: nothing for a continuation. -/
def Bus.opened (u : Bus) (nostart : Bool) : Bus := if nostart then u else u.mastered

/-- The bus after the end of a transfer: held open in phase `p`, or closed. -/
def Bus.ended (u : Bus) (nostop : Bool) (p : Phase) : Bus := if nostop then u.held p else u.closed

/-- What the parts of a whole transfer make of the bus. -/
theorem busAfter_eq (u : Bus) (addr : Addr7) (d : Dir) (f : XferFlags) (on : Bool) {es : List WireEvent} (noted : es ≠ [])
    (as : List Answer) :
    busAfter u addr d f on es as = (((u.opened f.nostart).note es as).acking on).ended f.nostop (heldPhase d addr) := by
  obtain ⟨e, es, rfl⟩ := List.exists_cons_of_ne_nil noted
  unfold busAfter Bus.ended Bus.opened
  cases f.nostart <;> cases f.nostop <;> rfl

/-- A failure that keeps mastership leaves its event only. -/
theorem busFailed_eq {u : Bus} {e : WireEvent} {kind : ErrorKind} {as : List Answer} (kept : kind ≠ .arbLost) :
    busFailed u e kind as = u.note [e] as := by
  simp [busFailed, Bus.note, kept]

/-! ### START and the address (40_i2c_handshake.md R86, R87, R91) -/

section
variable {t b k j : Nat} {i : Instr} {s : State} {u : Bus} {addr : Addr7} {d : Dir} {rest : List Micro} {as : List Answer}

/-- The micro-steps from GenStart to the first answer to the address, `master` or not before them, and five for each further round. -/
def openCost (master : Bool) (rounds : Nat) : Nat := 5 * rounds + if master then 5 else 6

theorem runs_start (hb : b < s.buses.length) (free : startFree u false) (answers : u.answers = .ok :: as) :
    Runs t i (if u.ctl.master then 3 else 4) (.genStart b addr d k :: rest) (s.setBus b u) (.askAddr b addr d k :: rest)
      (s.setBus b (u.mastered.note [startEvent u.ctl.master] as)) := by
  cases master : u.ctl.master with
  | true =>
    refine ⟨3, le_rfl, fun n => ?_⟩
    simp [runCode, microStep, microGenStart, microAskStart, microGotStart, ask, answers, answerAllowed, flagsSet, started_again, hb, master,
      Bus.mastered, Bus.note, startEvent]
  | false =>
    refine ⟨4, le_rfl, fun n => ?_⟩
    simp [runCode, microStep, microGenStart, microWaitNotBusy, microAskStart, microGotStart, ask, answers, answerAllowed, flagsSet,
      started_first, hb, master, free rfl master, Bus.mastered, Bus.note, startEvent]

theorem runs_addr_ack (hb : b < s.buses.length) (answers : u.answers = .ack :: as) : Runs t i 2 (.askAddr b addr d k :: rest)
    (s.setBus b u) rest (s.setBus b (u.note [.addr (addrByte addr d) .ack] as)) := by
  refine ⟨2, le_rfl, fun n => ?_⟩
  simp [runCode, microStep, microAskAddr, microGotAddr, ask, answers, answerAllowed, flagsSet, hb, Bus.note]

theorem runs_addr_nack (hb : b < s.buses.length) (answers : u.answers = .nack :: as) (left : s.cfg.retryLimit ≠ some k) :
    Runs t i 2 (.askAddr b addr d k :: rest) (s.setBus b u) (.genStart b addr d (k + 1) :: rest)
      (s.setBus b (u.note [.addr (addrByte addr d) .nack] as)) := by
  refine ⟨2, le_rfl, fun n => ?_⟩
  simp [runCode, microStep, microAskAddr, microGotAddr, ask, answers, answerAllowed, flagsSet, retriesUsedUp, left, hb, Bus.note]

theorem runs_addr_givesUp (hb : b < s.buses.length) (answers : u.answers = .nack :: as) (used : s.cfg.retryLimit = some k) :
    Runs t i 2 (.askAddr b addr d k :: rest) (s.setBus b u) (stopCode b ++ [.ret (.err .noAck)])
      (s.setBus b (u.note [.addr (addrByte addr d) .nack] as)) := by
  refine ⟨2, le_rfl, fun n => ?_⟩
  simp [runCode, microStep, microAskAddr, microGotAddr, ask, answers, answerAllowed, flagsSet, retriesUsedUp, used, hb, Bus.note]

theorem startFree_of_master (h : u.ctl.master = true) : startFree u false := fun _ notMaster => by simp [h] at notMaster

/-- A round whose address is refused, with retries left. -/
theorem runs_refusedRound (hb : b < s.buses.length) (free : startFree u false) (left : s.cfg.retryLimit ≠ some k)
    (answers : u.answers = .ok :: .nack :: as) : Runs t i (openCost u.ctl.master 0) (.genStart b addr d k :: rest) (s.setBus b u)
      (.genStart b addr d (k + 1) :: rest)
      (s.setBus b (u.mastered.note [startEvent u.ctl.master, .addr (addrByte addr d) .nack] as)) := by
  have round := (runs_start (t := t) (i := i) (k := k) (addr := addr) (d := d) (rest := rest) hb free answers).trans
    (runs_addr_nack hb rfl left)
  rw [Bus.note_note] at round
  exact round.mono (by cases u.ctl.master <;> simp [openCost])

/-- `j` refused rounds with retries left, then an acknowledged one (42_i2c_transfers.md R113). -/
theorem runs_open (hb : b < s.buses.length) (left : ∀ x, k ≤ x → x < k + j → s.cfg.retryLimit ≠ some x) (free : startFree u false)
    (answers : u.answers = (List.replicate j [Answer.ok, Answer.nack]).flatten ++ .ok :: .ack :: as) :
    Runs t i (openCost u.ctl.master j) (.genStart b addr d k :: rest) (s.setBus b u) rest
      (s.setBus b (u.mastered.note (openEvents u.ctl.master (addrByte addr d) j) as)) := by
  induction j generalizing k u with
  | zero =>
    have round := (runs_start (t := t) (i := i) (k := k) (addr := addr) (d := d) (rest := rest) hb free answers).trans (runs_addr_ack hb rfl)
    rw [Bus.note_note] at round
    exact round.mono (by cases u.ctl.master <;> simp [openCost])
  | succ j ih =>
    have round := runs_refusedRound (t := t) (i := i) (addr := addr) (d := d) (rest := rest) hb free (left k le_rfl (by omega))
      (answers.trans (by rw [List.replicate_succ]; rfl))
    have more := round.trans (ih (fun x _ _ => left x (by omega) (by omega)) (startFree_of_master rfl) rfl)
    rw [Bus.note_master, Bus.mastered_master, Bus.mastered_of_master rfl, Bus.note_note] at more
    exact more.mono (by simp [openCost]; omega)

/-- `j + 1` refused rounds, the last of which uses up the retries (40_i2c_handshake.md R91). -/
theorem runs_givesUp (hb : b < s.buses.length) (limit : s.cfg.retryLimit = some (k + j)) (free : startFree u false)
    (answers : u.answers = (List.replicate (j + 1) [Answer.ok, Answer.nack]).flatten ++ as) :
    Runs t i (openCost u.ctl.master j) (.genStart b addr d k :: rest) (s.setBus b u) (stopCode b ++ [.ret (.err .noAck)])
      (s.setBus b (u.mastered.note ((openEvents u.ctl.master (addrByte addr d) (j + 1)).take (2 * (j + 1))) as)) := by
  induction j generalizing k u with
  | zero =>
    have round := (runs_start (t := t) (i := i) (k := k) (addr := addr) (d := d) (rest := rest) hb free answers).trans
      (runs_addr_givesUp hb rfl limit)
    rw [Bus.note_note] at round
    exact round.mono (by cases u.ctl.master <;> simp [openCost])
  | succ j ih =>
    have round := runs_refusedRound (t := t) (i := i) (k := k) (addr := addr) (d := d) (rest := rest) hb free (by simp [limit])
      (answers.trans (by rw [List.replicate_succ]; rfl))
    have more := round.trans (ih (limit.trans (by congr 1; omega)) (startFree_of_master rfl) rfl)
    rw [Bus.note_master, Bus.mastered_master, Bus.mastered_of_master rfl, Bus.note_note] at more
    exact more.mono (by simp [openCost]; omega)

/-! ### Bytes sent and received (40_i2c_handshake.md R88, R89; 42_i2c_transfers.md R105, R108, R109) -/

theorem runs_send {v : Byte} (hb : b < s.buses.length) (answers : u.answers = .ack :: as) :
    Runs t i 2 (.askSend b v :: rest) (s.setBus b u) rest (s.setBus b (u.note [.tx v .ack] as)) := by
  refine ⟨2, le_rfl, fun n => ?_⟩
  simp [runCode, microStep, microAskSend, microGotSend, ask, answers, answerAllowed, flagsSet, hb, Bus.note]

/-- The head of the send loop, up to the ask. -/
theorem runs_sendHead {buf len j : Nat} (less : j < len) (readable : canRead s.cfg (buf + j) = true) :
    Runs t i 2 (.sendLoop b buf len j :: rest) (s.setBus b u)
      (.askSend b (s.mem.read (buf + j)) :: .sendLoop b buf len (j + 1) :: rest) (s.setBus b u) := by
  refine ⟨2, le_rfl, fun n => ?_⟩
  simp [runCode, microStep, microSendLoop, microLoadSend, less, readable]

/-- `k` bytes of the send loop, from byte `j` on. -/
theorem runs_sendBytes {buf len : Nat} (hb : b < s.buses.length) (readable : s.bufReadable buf len) (within : j + k ≤ len)
    (answers : u.answers = List.replicate k Answer.ack ++ as) :
    Runs t i (4 * k) (.sendLoop b buf len j :: rest) (s.setBus b u) (.sendLoop b buf len (j + k) :: rest)
      (s.setBus b (u.note (txEvents (s.mem.readBytes (buf + j) k)) as)) := by
  induction k generalizing j u with
  | zero =>
    rw [Memory.readBytes, txEvents, List.map_nil, Bus.note_nil (as := as) answers]
    exact Runs.refl _ _
  | succ k ih =>
    have less : j < len := by omega
    have byte := (runs_sendHead (t := t) (i := i) (rest := rest) (b := b) (u := u) less (readable j less)).trans
      (runs_send hb (answers.trans (by rw [List.replicate_succ]; rfl)))
    have more := byte.trans (ih (j := j + 1) (u := u.note _ _) (by omega) rfl)
    rw [Bus.note_note, Nat.add_right_comm j 1 k] at more
    exact more.mono (by omega)

/-- The whole send loop. -/
theorem runs_sendLoop {buf len : Nat} (hb : b < s.buses.length) (readable : s.bufReadable buf len)
    (answers : u.answers = List.replicate len Answer.ack ++ as) : Runs t i (4 * len + 1) (.sendLoop b buf len 0 :: rest) (s.setBus b u) rest
      (s.setBus b (u.note (txEvents (s.mem.readBytes buf len)) as)) := by
  have bytes := runs_sendBytes (t := t) (i := i) (j := 0) (rest := rest) hb readable (Nat.zero_add len).le answers
  exact bytes.trans (Runs.go (ops := []) (by simp [microStep, microSendLoop]))

theorem runs_recv {kind : AckBit} {v : Byte} {dst : Nat} (hb : b < s.buses.length) (writable : canWrite s.cfg dst = true)
    (answers : u.answers = .byte v :: as) : Runs t i 3 (.askRecv b kind dst :: rest) (s.setBus b u) rest
      ((s.setMem (s.mem.write dst v)).setBus b (u.note [.rx v kind] as)) := by
  refine ⟨3, le_rfl, fun n => ?_⟩
  simp [runCode, microStep, microAskRecv, microGotRecv, microMemStore, ask, answers, answerAllowed, flagsSet, hb, writable, Bus.note]

/-- The head of the receive loop, up to the ask. -/
theorem runs_recvHead {buf len j : Nat} {nostop : Bool} (hb : b < s.buses.length) (less : j < len) :
    Runs t i 2 (.recvLoop b buf len j nostop :: rest) (s.setBus b u)
      (.askRecv b (rxAck len j nostop) (buf + j) :: .recvLoop b buf len (j + 1) nostop :: rest)
      (s.setBus b (u.acking (decide (rxAck len j nostop = .ack)))) := by
  refine ⟨2, le_rfl, fun n => ?_⟩
  simp [runCode, microStep, microRecvLoop, microSetAckEn, less, hb, Bus.acking]

/-- The bytes `vs` of the receive loop from byte `j` on, not the last one, and the head of the next (42_i2c_transfers.md R105). -/
theorem runs_recvBytes {buf len : Nat} {nostop : Bool} {vs : List Byte} (hb : b < s.buses.length) (writable : s.bufWritable buf len)
    (within : j + vs.length < len) (answers : u.answers = vs.map Answer.byte ++ as) :
    Runs t i (5 * vs.length + 2) (.recvLoop b buf len j nostop :: rest) (s.setBus b u)
      (.askRecv b (rxAck len (j + vs.length) nostop) (buf + (j + vs.length)) :: .recvLoop b buf len (j + vs.length + 1) nostop :: rest)
      ((s.setMem (s.mem.writeBytes (buf + j) vs)).setBus b
        ((u.note (vs.map fun v => .rx v .ack) as).acking (decide (rxAck len (j + vs.length) nostop = .ack)))) := by
  induction vs generalizing j u s with
  | nil =>
    rw [List.map_nil, Bus.note_nil (as := as) answers]
    exact runs_recvHead hb within
  | cons v vs ih =>
    rw [List.length_cons] at within
    have less : j < len := by omega
    have acked : rxAck len j nostop = .ack := by simp [rxAck]; omega
    have byte := (runs_recvHead (t := t) (i := i) (rest := rest) (nostop := nostop) hb less).trans
      (runs_recv hb (writable j less) answers)
    have more := byte.trans (ih (s := s.setMem (s.mem.write (buf + j) v)) (j := j + 1) hb writable (by omega) rfl)
    simp only [acked, Bus.acking_note, Bus.acking_acking, Bus.note_note, Nat.add_right_comm j 1, Nat.add_assoc j] at more
    exact more.mono (by rw [List.length_cons]; omega)

theorem rxEvents_concat (nostop : Bool) (vs : List Byte) (v : Byte) :
    rxEvents nostop (vs ++ [v]) = vs.map (fun v => .rx v .ack) ++ [.rx v (if nostop then .ack else .nack)] := by
  induction vs with
  | nil => rfl
  | cons w vs ih => cases vs <;> simp_all [rxEvents]

theorem writeBytes_append (m : Memory) (a : Nat) (vs ws : List Byte) :
    m.writeBytes a (vs ++ ws) = (m.writeBytes a vs).writeBytes (a + vs.length) ws := by
  induction vs generalizing m a with
  | nil => rfl
  | cons v vs ih =>
    simp only [List.cons_append, Memory.writeBytes, ih, List.length_cons]
    congr 1
    omega

/-- The whole receive loop: all but the last byte, and the last byte. -/
theorem runs_recvLoop {buf : Nat} {nostop : Bool} {vs : List Byte} (hb : b < s.buses.length) (nonempty : 1 ≤ vs.length)
    (writable : s.bufWritable buf vs.length) (answers : u.answers = vs.map Answer.byte ++ as) :
    Runs t i (5 * vs.length + 1) (.recvLoop b buf vs.length 0 nostop :: rest) (s.setBus b u) rest
      ((s.setMem (s.mem.writeBytes buf vs)).setBus b ((u.note (rxEvents nostop vs) as).acking nostop)) := by
  obtain rfl | ⟨vs, v, rfl⟩ := vs.eq_nil_or_concat
  · simp at nonempty
  · rw [List.concat_eq_append] at *
    have ackLast : rxAck (vs ++ [v]).length vs.length nostop = if nostop then .ack else .nack := by simp [rxAck]
    have isAck : decide ((if nostop then AckBit.ack else .nack) = .ack) = nostop := by cases nostop <;> rfl
    have bytes := runs_recvBytes (t := t) (i := i) (j := 0) (as := .byte v :: as) (rest := rest) (nostop := nostop) (vs := vs)
      (len := (vs ++ [v]).length) hb writable (by simp)
      (answers.trans (by simp))
    rw [Nat.zero_add] at bytes
    have last := bytes.trans (runs_recv (s := s.setMem (s.mem.writeBytes buf vs)) hb (writable vs.length (by simp)) rfl)
    have ends : microStep t (.recvLoop b buf (vs ++ [v]).length (vs.length + 1) nostop) = fun s => .go s [] := by
      funext s
      simp [microStep, microRecvLoop]
    have all := last.trans (Runs.go (ops := []) (congrFun ends _))
    rw [ackLast, isAck, Bus.acking_note, Bus.note_note, ← rxEvents_concat] at all
    rw [writeBytes_append]
    exact all.mono (by simp; omega)

/-! ### The end of a transfer (40_i2c_handshake.md R90, R93, R94; 42_i2c_transfers.md R106) -/

theorem runs_stop (hb : b < s.buses.length) (answers : u.answers = .ok :: as) :
    Runs t i 3 (stopCode b ++ rest) (s.setBus b u) rest (s.setBus b (u.note [.stop] as).closed) := by
  refine ⟨3, le_rfl, fun n => ?_⟩
  simp [stopCode, runCode, microStep, microAskStop, microNoteStop, microCloseBus, ask, answers, answerAllowed, flagsSet, hb, Bus.note,
    Bus.closed]

theorem runs_opening {nostart : Bool} (hb : b < s.buses.length) (free : startFree u nostart)
    (answers : u.answers = openAnswers nostart 0 ++ as) : Runs t i 6 (openCode b addr d nostart ++ rest) (s.setBus b u) rest
      (s.setBus b ((u.opened nostart).note (openTrace nostart u.ctl.master (addrByte addr d) 0) as)) := by
  cases nostart with
  | true =>
    obtain rfl : u.answers = as := answers
    have unchanged : (u.opened true).note (openTrace true u.ctl.master (addrByte addr d) 0) u.answers = u := Bus.note_nil rfl
    rw [unchanged]
    exact (Runs.refl _ _).mono (by omega)
  | false =>
    have opens := runs_open (t := t) (i := i) (addr := addr) (d := d) (k := 0) (j := 0) (as := as) (rest := rest) hb (fun x _ _ => by omega) free
      (answers.trans (by simp [openAnswers]))
    exact opens.mono (by unfold openCost; split <;> omega)

theorem runs_ending {nostop : Bool} {len : Nat} (hb : b < s.buses.length) (answers : u.answers = closeAnswers nostop ++ as) :
    Runs t i 3 (endCode b addr d nostop len) (s.setBus b u) [.ret (.ok len)]
      (s.setBus b ((u.note (closeEvents nostop) as).ended nostop (heldPhase d addr))) := by
  cases nostop with
  | true =>
    obtain rfl : u.answers = as := answers
    refine (Runs.go (ops := []) ?_).mono (by omega)
    simp [microStep, microSetPhase, Bus.ended, Bus.held, Bus.note, closeEvents, hb]
  | false => exact runs_stop hb answers

/-- An answer that ends a transfer early. -/
theorem runs_fails {m : Micro} {a : Answer} {e : WireEvent} {kind : ErrorKind} (hb : b < s.buses.length) (asks : m.asks? = some b)
    (answers : u.answers = a :: as) (failure : m.failure a = some (e, kind)) :
    Runs t i 2 (m :: rest) (s.setBus b u) [.busFail b kind] (s.setBus b (busFailed u e kind as)) := by
  refine ⟨2, le_rfl, fun n => ?_⟩
  cases m <;> cases asks <;> cases a <;> cases failure <;>
    simp [runCode, microStep, microAskStart, microGotStart, microAskAddr, microGotAddr, microAskSend, microGotSend, microAskRecv,
      microGotRecv, ask, answers, answerAllowed, flagsSet, lose_eq, hb, busFailed]

theorem runs_busFail_hang {kind : ErrorKind} (policy : s.cfg.busErrorPolicy = .hang) :
    Runs t i 1 [.busFail b kind] s [.holdForever] s :=
  Runs.jump (by simp [microStep, microBusFail, policy])

theorem runs_busFail_stops {kind : ErrorKind} (hb : b < s.buses.length) (policy : s.cfg.busErrorPolicy = .report)
    (master : u.ctl.master = true) (answers : u.answers = .ok :: as) : Runs t i 5 [.busFail b kind] (s.setBus b u)
      [.ret (.err kind)] (s.setBus b (u.note [.stop] as).closed) := by
  have aborts : Runs t i 2 [.busFail b kind] (s.setBus b u) (stopCode b ++ [.ret (.err kind)]) (s.setBus b u) := by
    refine ⟨2, le_rfl, fun n => ?_⟩
    simp [runCode, microStep, microBusFail, microAbort, policy, master, hb]
  exact aborts.trans (runs_stop hb answers)

theorem runs_busFail_idles {kind : ErrorKind} (hb : b < s.buses.length) (policy : s.cfg.busErrorPolicy = .report)
    (notMaster : u.ctl.master = false) : Runs t i 3 [.busFail b kind] (s.setBus b u)
      [.ret (.err kind)] (s.setBus b (u.held .idle)) := by
  refine ⟨3, le_rfl, fun n => ?_⟩
  simp [Bus.held, runCode, microStep, microBusFail, microAbort, microSetPhase, policy, notMaster, hb]

end

end Sys2Proof.Machine
end

section
/-! PROOFS of the family `other`, the transfers: each is the run of its opening, its loop and its end, or of its opening and what ends it
early (42_i2c_transfers.md). -/

namespace Sys2Proof.Machine

section
variable {s : State} {t n b len buf : Nat} {addr : Addr7} {f : XferFlags} {reg : Byte} {u : Bus} {as : List Answer} {i : Instr}
  {rest : List Micro} {d : Dir} {vs : List Byte}

theorem fault_of_check {p : Prop} [Decidable p] {c : FaultCode} {x : Option FaultCode} :
    (if p then some c else x) = none ↔ ¬p ∧ x = none := by
  by_cases p <;> simp [*]

theorem transferFault_none {opening : Bool} : transferFault s (.task t) b len buf opening = none ↔
    s.busReady b ∧ lenLegal len buf ∧ (s.bus b).lock = .owned t ∧ opening = true := by
  have operands : ¬(len = 0 ∨ 2 ^ 31 ≤ len ∨ 2 ^ 32 < buf + len) ↔ lenLegal len buf := by omega
  simp only [transferFault, fault_of_check, operands]
  simp [Agent.inTask, Agent.owns, State.busReady, and_assoc]

theorem transferFault_opening {opening : Bool} (ready : s.busReady b) (legal : lenLegal len buf) (owned : (s.bus b).lock = .owned t)
    (illegal : opening = false) : transferFault s (.task t) b len buf opening = some .badContinuation := by
  obtain ⟨exists_, inited⟩ := ready
  unfold transferFault
  rw [if_neg (by omega), if_neg (by simp [Agent.inTask]), if_neg (by simp [inited]), if_neg (by omega),
    if_neg (by simp [Agent.owns, owned]), if_pos illegal]

theorem openEvents_ne_nil (master : Bool) (v : Byte) (k : Nat) : openEvents master v k ≠ [] := by cases k <;> simp [openEvents]

/-- A transfer that only sends sets no acknowledge. -/
@[simp] theorem opened_acking (u : Bus) (nostart : Bool) (es : List WireEvent) (as : List Answer) :
    ((u.opened nostart).note es as).acking u.ctl.ackEn = (u.opened nostart).note es as := by
  cases nostart <;> rfl

/-- What a transfer without flags makes of the bus. -/
theorem busAfter_closed {es : List WireEvent} (on : Bool) (noted : es ≠ []) :
    busAfter u addr d {} on es as = ((u.mastered.note es as).acking on).closed := busAfter_eq u addr d {} on noted as

/-- The same of one that only sends. -/
theorem busAfter_sent {es : List WireEvent} (noted : es ≠ []) :
    busAfter u addr d {} u.ctl.ackEn es as = (u.mastered.note es as).closed := busAfter_closed _ noted

theorem rxEvents_ne_nil {nostop : Bool} (nonempty : 1 ≤ vs.length) : rxEvents nostop vs ≠ [] := by
  match vs, nonempty with
  | [_], _ => simp [rxEvents]
  | _ :: _ :: _, _ => simp [rxEvents]

theorem txEvents_ne_nil {m : Memory} (nonempty : 1 ≤ len) : txEvents (m.readBytes buf len) ≠ [] := by
  obtain ⟨k, rfl⟩ := Nat.exists_eq_add_of_le' nonempty
  simp [txEvents, Memory.readBytes]

/-- START, or a repeated START, with its address acknowledged. -/
theorem runs_address (hb : b < s.buses.length) (free : startFree u false) (answers : u.answers = .ok :: .ack :: as) :
    Runs t i 6 (.genStart b addr d 0 :: rest) (s.setBus b u) rest
      (s.setBus b (u.mastered.note [startEvent u.ctl.master, .addr (addrByte addr d) .ack] as)) :=
  runs_opening (nostart := false) hb free answers

/-- The first phase of a register transfer: the address acknowledged, and the register byte. -/
theorem runs_regPhase (hb : b < s.buses.length) (free : startFree u false) (answers : u.answers = .ok :: .ack :: .ack :: as) :
    Runs t i 9 (regPhaseCode b addr reg ++ rest) (s.setBus b u) rest
      (s.setBus b ((u.mastered.note [startEvent u.ctl.master, .addr (addrByte addr .write) .ack, .tx reg .ack] as).held
        (.heldW addr))) := by
  have sends := (runs_address (t := t) (i := i) (addr := addr) (d := .write)
    (rest := .askSend b reg :: .setPhase b (.heldW addr) :: rest) hb free answers).trans (runs_send hb rfl)
  have holds := sends.trans (Runs.go (ops := []) rfl)
  rw [Bus.note_note, modBus_eq, setBus_setBus, setBus_bus_self _ _ _ hb] at holds
  exact holds

/-- A repeated START with its address acknowledged. -/
theorem runs_restart (hb : b < s.buses.length) (master : u.ctl.master = true) (answers : u.answers = .ok :: .ack :: as) :
    Runs t i 5 (.genStart b addr d 0 :: rest) (s.setBus b u) rest
      (s.setBus b (u.note [.restart, .addr (addrByte addr d) .ack] as)) := by
  have opens := runs_open (t := t) (i := i) (addr := addr) (d := d) (k := 0) (j := 0) (as := as) (rest := rest) hb
    (fun _ _ _ => by omega) (startFree_of_master master) answers
  rw [master, Bus.mastered_of_master master] at opens
  exact opens

/-! ### Transfers that end early -/

section
variable {k : Nat} {code : List Micro} {m : Micro} {a : Answer} {e : WireEvent} {kind : ErrorKind}

/-- A transfer whose retries are used up in its first address phase (40_i2c_handshake.md R91). -/
theorem exec_givesUp (moves : s.taskMoves t n) (enough : 5 * k + 10 ≤ n) (checked : commandFault s (.task t) i = none)
    (bus : i.busOf = some b) (starts : codeOf i = .genStart b addr d 0 :: code) (limit : s.cfg.retryLimit = some k)
    (free : startFree (s.bus b) false)
    (answers : (s.bus b).answers = (List.replicate (k + 1) [Answer.ok, Answer.nack]).flatten ++ .ok :: as) :
    exec i s = .next ((s.setBus b (busAfter (s.bus b) addr d {} (s.bus b).ctl.ackEn
      ((openEvents (s.bus b).ctl.master (addrByte addr d) (k + 1)).take (2 * (k + 1)) ++ [.stop]) as)).complete t (.err .noAck)) := by
  have ⟨exists_, _⟩ := checked_bus checked bus
  have givesUp := runs_givesUp (t := t) (i := i) (addr := addr) (d := d) (k := 0) (j := k) (rest := code) exists_ (by simpa using limit)
    free answers
  have ends := givesUp.trans (runs_stop exists_ rfl)
  rw [setBus_bus, Bus.note_note] at ends
  have cost : openCost (s.bus b).ctl.master k ≤ 5 * k + 6 := by unfold openCost; split <;> omega
  rw [exec_runs moves checked, starts, ends.returns (by omega), busAfter_sent (by simp)]

/-- A failure under Hang (40_i2c_handshake.md R93). -/
theorem runs_failed_hang (hb : b < s.buses.length) (policy : s.cfg.busErrorPolicy = .hang) (asks : m.asks? = some b)
    (answers : u.answers = a :: as) (failure : m.failure a = some (e, kind)) :
    Runs t i 3 (m :: rest) (s.setBus b u) [.holdForever] (s.setBus b (busFailed u e kind as)) :=
  (runs_fails hb asks answers failure).trans (runs_busFail_hang policy)

/-- A failure of a master under Report (40_i2c_handshake.md R94). -/
theorem runs_failed_stops (hb : b < s.buses.length) (policy : s.cfg.busErrorPolicy = .report) (asks : m.asks? = some b)
    (answers : u.answers = a :: .ok :: as) (failure : m.failure a = some (e, kind)) (kept : kind ≠ .arbLost)
    (master : u.ctl.master = true) :
    Runs t i 7 (m :: rest) (s.setBus b u) [.ret (.err kind)] (s.setBus b (u.note [e, .stop] as).closed) := by
  have fails := runs_fails (t := t) (i := i) (rest := rest) hb asks answers failure
  rw [busFailed_eq kept] at fails
  have stops := fails.trans (runs_busFail_stops hb policy master rfl)
  rwa [Bus.note_note] at stops

/-- A failure without mastership, or with the arbitration lost, under Report (40_i2c_handshake.md R94). -/
theorem runs_failed_idles (hb : b < s.buses.length) (policy : s.cfg.busErrorPolicy = .report) (asks : m.asks? = some b)
    (answers : u.answers = a :: as) (failure : m.failure a = some (e, kind)) (lost : kind = .arbLost ∨ u.ctl.master = false) :
    Runs t i 5 (m :: rest) (s.setBus b u) [.ret (.err kind)] (s.setBus b ((busFailed u e kind as).held .idle)) := by
  refine (runs_fails hb asks answers failure).trans (runs_busFail_idles hb policy ?_)
  rcases lost with rfl | notMaster <;> simp [busFailed, *]

end

/-- A transfer that began with a START and has a byte refused (40_i2c_handshake.md R93, R94). -/
theorem exec_dataNack {j : Nat} {v : Byte} {es : List WireEvent} (moves : s.taskMoves t n) (checked : commandFault s (.task t) i = none)
    (hb : b < s.buses.length) (enough : j + 8 ≤ n) (reaches : Runs t i j (codeOf i) (s.setBus b (s.bus b)) (.askSend b v :: code)
      (s.setBus b ((s.bus b).mastered.note es (.nack :: as)))) :
    let u := s.bus b
    let events := es ++ [.tx v .nack]
    (s.cfg.busErrorPolicy = .hang → exec i s = .next ((s.setBus b { u with
      trace := u.trace ++ events, answers := as,
      ctl := { u.ctl with ev := {}, master := true, busy := if u.ctl.master then u.ctl.busy else true } }).park t ⟨i, [.holdForever]⟩)) ∧
    (∀ as', s.cfg.busErrorPolicy = .report → as = .ok :: as' → exec i s =
      .next ((s.setBus b (busAfter u addr .write {} u.ctl.ackEn (events ++ [.stop]) as')).complete t (.err .dataNack))) := by
  rw [setBus_bus] at reaches
  rw [exec_runs moves checked]
  refine ⟨fun policy => ?_, fun as' policy more => ?_⟩
  · rw [(reaches.trans (runs_failed_hang hb policy rfl rfl rfl)).parks rfl (by omega), busFailed_eq (by simp), Bus.note_note]
    simp [Bus.note, Bus.mastered]
  · subst more
    rw [(reaches.trans (runs_failed_stops hb policy rfl rfl rfl (by simp) rfl)).returns (by omega), busAfter_sent (by simp)]
    simp

/-- A transfer that loses the arbitration in its address phase, under Report (40_i2c_handshake.md R94). -/
theorem exec_addressLost (moves : s.taskMoves t n) (enough : 10 ≤ n) (checked : commandFault s (.task t) i = none)
    (bus : i.busOf = some b) (starts : codeOf i = .genStart b addr d 0 :: code) (policy : s.cfg.busErrorPolicy = .report)
    (free : startFree (s.bus b) false) (answers : (s.bus b).answers = .ok :: .arbLost :: as) :
    exec i s = .next ((s.setBus b { s.bus b with
      phase := .idle
      trace := (s.bus b).trace ++ [startEvent (s.bus b).ctl.master, .lost]
      answers := as
      ctl := { (s.bus b).ctl with
        ev := {}, master := false, busy := if (s.bus b).ctl.master then (s.bus b).ctl.busy else true } }).complete t
      (.err .arbLost)) := by
  have ⟨exists_, _⟩ := checked_bus checked bus
  have begins := runs_start (t := t) (i := i) (addr := addr) (d := d) (k := 0) (rest := code) exists_ free answers
  have idles := begins.trans (runs_failed_idles exists_ policy rfl rfl rfl (.inl rfl))
  rw [setBus_bus] at idles
  rw [exec_runs moves checked, starts, idles.returns (by split <;> omega)]
  simp [busFailed, Bus.held, Bus.note, Bus.mastered]

end

end Sys2Proof.Machine

namespace Sys2Proof

open Machine

/-- Settles O25. -/
theorem readBytesCompletes : Obligations.ReadBytesCompletes := by
  intro s t n b addr f buf vs rest moves enough ready owned legal addr10 reg16 opening free writable answers
  have ⟨exists_, _⟩ := ready
  have ⟨nonempty, _⟩ := legal
  have checked : commandFault s (.task t) (.i2cRead b addr f vs.length buf) = none := transferFault_none.2 ⟨ready, legal, owned, opening⟩
  rw [exec_runs moves checked, codeOf, readBytesCode_supported addr10 reg16]
  simp only [List.append_assoc] at answers
  have opens := runs_opening (t := t) (i := .i2cRead b addr f vs.length buf) (addr := addr) (d := .read)
    (rest := .recvLoop b buf vs.length 0 f.nostop :: endCode b addr .read f.nostop vs.length) exists_ free answers
  have receives := opens.trans (runs_recvLoop exists_ nonempty writable rfl)
  have ends := receives.trans (runs_ending (s := s.setMem _) exists_ rfl)
  rw [setBus_bus] at ends
  rw [ends.returns (by omega), busAfter_eq _ _ _ _ _ (by simp [rxEvents_ne_nil nonempty])]
  simp

/-- Settles O26. -/
theorem writeBytesCompletes : Obligations.WriteBytesCompletes := by
  intro s t n b addr f len buf rest moves enough ready owned legal addr10 reg16 opening free readable answers
  have ⟨exists_, _⟩ := ready
  have ⟨nonempty, _⟩ := legal
  have checked : commandFault s (.task t) (.i2cWrite b addr f len buf) = none := transferFault_none.2 ⟨ready, legal, owned, opening⟩
  rw [exec_runs moves checked, codeOf, writeBytesCode_supported addr10 reg16]
  simp only [List.append_assoc] at answers
  have opens := runs_opening (t := t) (i := .i2cWrite b addr f len buf) (addr := addr) (d := .write)
    (rest := .sendLoop b buf len 0 :: endCode b addr .write f.nostop len) exists_ free answers
  have sends := opens.trans (runs_sendLoop exists_ readable rfl)
  have ends := sends.trans (runs_ending exists_ rfl)
  rw [setBus_bus] at ends
  rw [ends.returns (by omega), busAfter_eq _ _ _ _ _ (by simp [txEvents_ne_nil nonempty])]
  simp

/-- Settles O27. -/
theorem readRegsCompletes : Obligations.ReadRegsCompletes := by
  intro s t n b addr reg buf vs rest moves enough ready owned legal opening free writable answers
  have ⟨exists_, _⟩ := ready
  have ⟨nonempty, _⟩ := legal
  have checked : commandFault s (.task t) (.i2cReadRegs b addr reg {} vs.length buf) = none :=
    transferFault_none.2 ⟨ready, legal, owned, opening⟩
  rw [exec_runs moves checked, codeOf]
  simp only [List.append_assoc] at answers
  have begins := runs_regPhase (t := t) (i := .i2cReadRegs b addr reg {} vs.length buf) (addr := addr) (reg := reg)
    (rest := .genStart b addr .read 0 :: .recvLoop b buf vs.length 0 false :: (stopCode b ++ [.ret (.ok vs.length)])) exists_ free answers
  have restarts := begins.trans (runs_restart exists_ rfl rfl)
  have receives := restarts.trans (runs_recvLoop exists_ nonempty writable rfl)
  have ends := receives.trans (runs_stop (s := s.setMem _) exists_ rfl)
  rw [setBus_bus] at ends
  rw [readRegsCode_supported]
  refine (congrArg _ (ends.returns (by omega))).trans ?_
  rw [busAfter_closed _ (by simp)]
  simp

/-- Settles O28. -/
theorem writeRegsCompletes : Obligations.WriteRegsCompletes := by
  intro s t n b addr reg len buf rest moves enough ready owned legal opening free readable answers
  have ⟨exists_, _⟩ := ready
  have checked : commandFault s (.task t) (.i2cWriteRegs b addr reg {} len buf) = none :=
    transferFault_none.2 ⟨ready, legal, owned, opening⟩
  rw [exec_runs moves checked, codeOf]
  simp only [List.append_assoc] at answers
  have begins := runs_regPhase (t := t) (i := .i2cWriteRegs b addr reg {} len buf) (addr := addr) (reg := reg)
    (rest := .sendLoop b buf len 0 :: (stopCode b ++ [.ret (.ok len)])) exists_ free answers
  have sends := begins.trans (runs_sendLoop exists_ readable rfl)
  have ends := sends.trans (runs_stop exists_ rfl)
  rw [setBus_bus] at ends
  rw [writeRegsCode_supported]
  refine (congrArg _ (ends.returns (by omega))).trans ?_
  rw [busAfter_sent (by simp)]
  simp

/-- Settles O30. -/
theorem addressRetriesUntilAcked : Obligations.AddressRetriesUntilAcked := by
  intro s t n b addr d k i code rest exists_ noLimit free answers
  have opens := runs_open (t := t) (i := i) (addr := addr) (d := d) (k := 0) (j := k) (as := rest) (rest := code) exists_
    (fun _ _ _ => by simp [noLimit]) free (by simpa [openAnswers] using answers)
  rw [setBus_bus] at opens
  obtain ⟨m, le, eq⟩ := opens
  refine ⟨m, le.trans (by unfold openCost; split <;> omega), (eq n).trans ?_⟩
  simp [Bus.note, Bus.mastered, openEvents_ne_nil]

/-- Settles O31: the first address phase of each transfer, and the second of a register read. -/
theorem retryLimitGivesNoAck : Obligations.RetryLimitGivesNoAck := by
  refine ⟨fun s t n b k addr reg f len buf rest moves enough limit start addr10 reg16 free answers => ?first,
    fun s t n b k addr reg len buf rest moves enough limit free checked answers => ?second⟩
  case first =>
    have enough' : 5 * k + 10 ≤ n := by omega
    refine ⟨fun checked => ?_, fun checked => ?_, fun checked => ?_, fun checked => ?_⟩
    · exact exec_givesUp moves enough' checked rfl (by rw [codeOf, readBytesCode_supported addr10 reg16, openCode_start _ start]; rfl)
        limit free answers
    · exact exec_givesUp moves enough' checked rfl (by rw [codeOf, writeBytesCode_supported addr10 reg16, openCode_start _ start]; rfl)
        limit free answers
    · exact exec_givesUp moves enough' checked rfl readRegsCode_supported limit free answers
    · exact exec_givesUp moves enough' checked rfl writeRegsCode_supported limit free answers
  case second =>
    have ⟨exists_, _⟩ := checked_bus checked rfl
    have begins := runs_regPhase (t := t) (i := .i2cReadRegs b addr reg {} len buf) (addr := addr) (reg := reg)
      (rest := .genStart b addr .read 0 :: .recvLoop b buf len 0 false :: (stopCode b ++ [.ret (.ok len)])) exists_ free answers
    have givesUp := begins.trans (runs_givesUp (j := k) exists_ (by simpa using limit) (startFree_of_master rfl) rfl)
    have ends := givesUp.trans (runs_stop exists_ rfl)
    rw [setBus_bus] at ends
    rw [exec_runs moves checked, codeOf, readRegsCode_supported]
    refine (congrArg _ (ends.returns (by simp [openCost]; omega))).trans ?_
    rw [busAfter_sent (by simp)]
    simp

/-- Settles O32. -/
theorem dataNackFollowsPolicy : Obligations.DataNackFollowsPolicy := by
  refine ⟨fun s t n b addr f len buf j rest moves enough checked addr10 reg16 start less free readable answers => ?data,
    fun s t n b addr reg i len buf rest moves enough regs checked free answers => ?register,
    fun s t n i moves inside => step_holds moves inside rfl⟩
  case data =>
    have ⟨exists_, _⟩ := checked_bus checked rfl
    have starts : codeOf (.i2cWrite b addr f len buf) =
        .genStart b addr .write 0 :: .sendLoop b buf len 0 :: endCode b addr .write f.nostop len := by
      rw [codeOf, writeBytesCode_supported addr10 reg16, openCode_start _ start]
      rfl
    simp only [List.append_assoc] at answers
    have opens := runs_address (t := t) (i := .i2cWrite b addr f len buf) (addr := addr) (d := .write)
      (rest := .sendLoop b buf len 0 :: endCode b addr .write f.nostop len) exists_ free answers
    have sends := (opens.trans (runs_sendBytes exists_ readable (by omega) rfl)).trans (runs_sendHead (by omega) (readable _ (by omega)))
    rw [Bus.note_note, Nat.zero_add, ← starts] at sends
    exact exec_dataNack moves checked exists_ (by omega) sends
  case register =>
    have ⟨exists_, _⟩ := checked_bus (b := b) checked (by rcases regs with rfl | rfl <;> rfl)
    obtain ⟨code, starts⟩ : ∃ code, codeOf i = .genStart b addr .write 0 :: .askSend b reg :: code := by
      rcases regs with rfl | rfl
      · exact ⟨_, readRegsCode_supported⟩
      · exact ⟨_, writeRegsCode_supported⟩
    refine exec_dataNack moves checked exists_ (by omega) (j := 6) (code := code) (es := [_, _]) ?_
    rw [starts]
    exact runs_address exists_ free answers

/-- Settles O33. -/
theorem lostArbitrationReported : Obligations.LostArbitrationReported := by
  refine ⟨fun s t n b addr f len buf rest moves enough policy start addr10 reg16 free answers => ?address,
    fun s t n b i m code a rest e kind moves inside asks answers failure => ?anywhere⟩
  case address =>
    refine ⟨fun checked => ?_, fun checked => ?_⟩
    · exact exec_addressLost moves enough checked rfl
        (by rw [codeOf, readBytesCode_supported addr10 reg16, openCode_start _ start]; rfl) policy free answers
    · exact exec_addressLost moves enough checked rfl
        (by rw [codeOf, writeBytesCode_supported addr10 reg16, openCode_start _ start]; rfl) policy free answers
  case anywhere =>
    have exists_ : b < s.buses.length := by
      by_contra absent
      rw [bus_of_le (not_lt.1 absent)] at answers
      cases answers
    rw [step_task_resumes moves inside]
    refine ⟨fun policy enough => ?_, fun policy enough lost => ?_, fun rest' policy enough kept master more => ?_⟩
    · have hangs := runs_failed_hang (t := t) (i := i) (rest := code) exists_ policy asks answers failure
      rw [setBus_bus] at hangs
      rw [hangs.parks rfl enough]
    · have idles := runs_failed_idles (t := t) (i := i) (rest := code) exists_ policy asks answers failure lost
      rw [setBus_bus] at idles
      rw [idles.returns enough]
      rfl
    · subst more
      have stops := runs_failed_stops (t := t) (i := i) (rest := code) exists_ policy asks answers failure kept master
      rw [setBus_bus] at stops
      rw [stops.returns (by omega)]
      rfl

/-- Settles O34: the bytes `vs`, and an overrun of a master. -/
theorem overrunKeepsReceivedBytes : Obligations.OverrunKeepsReceivedBytes := by
  intro s t n b addr f len buf vs rest moves enough checked policy addr10 reg16 start less free writable answers
  have ⟨exists_, _⟩ := checked_bus checked rfl
  rw [exec_runs moves checked, codeOf, readBytesCode_supported addr10 reg16, openCode_start _ start]
  simp only [List.append_assoc] at answers
  have opens := runs_address (t := t) (i := .i2cRead b addr f len buf) (addr := addr) (d := .read)
    (rest := .recvLoop b buf len 0 f.nostop :: endCode b addr .read f.nostop len) exists_ free answers
  have receives := opens.trans (runs_recvBytes exists_ writable (by omega) rfl)
  have stops := receives.trans (runs_failed_stops (s := s.setMem _) exists_ policy rfl rfl rfl (by simp) rfl)
  rw [setBus_bus] at stops
  refine (congrArg _ (stops.returns (by omega))).trans ?_
  rw [busAfter_closed _ (by simp)]
  simp

/-! ### The composition law (42_i2c_transfers.md R112) -/

/-- I2C_WRITE_BYTES of one byte with NOSTOP, the first half of the law. -/
theorem exec_writeByteHeld {s : State} {t n b p : Nat} {addr : Addr7} {as : List Answer} (moves : s.taskMoves t n) (enough : 17 ≤ n)
    (ready : s.busReady b) (owned : (s.bus b).lock = .owned t) (opening : openingInTable false (s.bus b).phase .write addr = true)
    (free : startFree (s.bus b) false) (legal : lenLegal 1 p) (readable : s.bufReadable p 1)
    (answers : (s.bus b).answers = .ok :: .ack :: .ack :: as) :
    ∃ s₁, exec (.i2cWrite b addr { nostop := true } 1 p) s = .next s₁ ∧ s₁.taskMoves t n ∧ s₁.busReady b ∧ s₁.cfg = s.cfg ∧
      s₁.mem = s.mem ∧ s₁.bus b = ((s.bus b).mastered.note
        [startEvent (s.bus b).ctl.master, .addr (addrByte addr .write) .ack, .tx (s.mem.read p) .ack] as).held (.heldW addr) := by
  have ⟨exists_, inited⟩ := ready
  have ⟨turn, noFault, task⟩ := moves
  have writes := writeBytesCompletes s t n b addr { nostop := true } 1 p as moves (by omega) ready owned legal rfl rfl opening free
    readable answers
  rw [busAfter_eq _ _ _ _ _ (by simp [txEvents_ne_nil])] at writes
  generalize hs₁ : State.complete _ t (.ok 1) = s₁ at writes
  have bus₁ : s₁.bus b = ((s.bus b).mastered.note
      [startEvent (s.bus b).ctl.master, .addr (addrByte addr .write) .ack, .tx (s.mem.read p) .ack] as).held (.heldW addr) := by
    rw [← hs₁]
    exact setBus_bus_self _ _ _ exists_
  refine ⟨s₁, writes, ⟨?_, ?_, ?_⟩, ⟨?_, ?_⟩, ?_, ?_, bus₁⟩
  · simpa [← hs₁] using turn
  · simpa [← hs₁] using noFault
  · simpa [← hs₁] using task
  · simpa [← hs₁] using exists_
  · rw [bus₁]
    exact inited
  · simp [← hs₁]
  · simp [← hs₁]

/-- Settles O37: the four transfers, each by its own completion. -/
theorem registerTransfersAreTwoByteTransfers : Obligations.RegisterTransfersAreTwoByteTransfers := by
  rintro s t n b addr reg p buf rest moves ready owned opening free legal₁ readable₁ rfl
  refine ⟨fun len legal readable enough answers => ?writes, fun vs legal writable enough answers => ?reads⟩
  case writes =>
    obtain ⟨s₁, first, moves₁, ready₁, cfg₁, mem₁, bus₁⟩ := exec_writeByteHeld moves (by omega) ready owned opening free legal₁ readable₁
      (as := List.replicate len .ack ++ .ok :: rest) (by simpa using answers)
    have second := writeBytesCompletes s₁ t n b addr { nostart := true } len buf rest moves₁ (by omega) ready₁ (by rw [bus₁]; exact owned)
      legal rfl rfl (by rw [bus₁]; exact decide_eq_true rfl) (fun start => by cases start) (by rwa [State.bufReadable, cfg₁])
      (by simp [bus₁, openAnswers, closeAnswers])
    have whole := writeRegsCompletes s t n b addr (s.mem.read p) len buf rest moves (by omega) ready owned legal opening free readable answers
    refine ⟨s₁, _, _, first, second, whole, ?_, mem₁, ?_⟩
    all_goals simp [setBus_bus_self _ _ _ ready.1, setBus_bus_self _ _ _ ready₁.1, bus₁, mem₁, busAfter, openTrace, startEvent,
      closeEvents, Bus.held, Bus.note, Bus.mastered]
  case reads =>
    obtain ⟨s₁, first, moves₁, ready₁, cfg₁, mem₁, bus₁⟩ := exec_writeByteHeld moves (by omega) ready owned opening free legal₁ readable₁
      (as := .ok :: .ack :: (vs.map Answer.byte ++ .ok :: rest)) (by simpa using answers)
    have second := readBytesCompletes s₁ t n b addr {} buf vs rest moves₁ (by omega) ready₁ (by rw [bus₁]; exact owned)
      legal rfl rfl (by rw [bus₁]; rfl) (startFree_of_master (by rw [bus₁]; rfl)) (by rwa [State.bufWritable, cfg₁])
      (by simp [bus₁, openAnswers, closeAnswers])
    have whole := readRegsCompletes s t n b addr (s.mem.read p) buf vs rest moves (by omega) ready owned legal opening free writable answers
    have refused : commandFault s₁ (.task t) (.i2cRead b addr { nostart := true } vs.length buf) = some .badContinuation :=
      transferFault_opening ready₁ legal (by rw [bus₁]; exact owned) (by rw [bus₁]; rfl)
    refine ⟨s₁, _, _, first, second, whole, ?_, ?_, ?_, _, exec_raises moves₁ refused, rfl⟩
    · simp [setBus_bus_self _ _ _ ready.1, setBus_bus_self _ _ _ ready₁.1, bus₁, mem₁, busAfter, openTrace, openEvents, startEvent,
      closeEvents, Bus.held, Bus.note, Bus.mastered]
    · simp [mem₁]
    · simp [setBus_bus_self _ _ _ ready.1, setBus_bus_self _ _ _ ready₁.1, bus₁, mem₁, busAfter, openTrace, openEvents, startEvent,
      closeEvents, Bus.held, Bus.note, Bus.mastered]

end Sys2Proof
end

section
/-! PROOFS of the family `other`, the serial frame reader: the runs of its reads, part by part (43_serial_frame_reader.md R116 to R118). -/

namespace Sys2Proof.Machine

section
variable {s : State} {t n r k buf timeout deadline : Nat} {d : Reader} {i : Instr} {rest : List Micro} {vs later pat got : List Byte}
  {res : Result}

theorem read_checked (checked : commandFault s (.task t) (.sfrRead r n buf timeout) = none) :
    r < s.readers.length ∧ (s.reader r).consumer = none := by
  simp only [commandFault, fault_of_check] at checked
  obtain ⟨exists_, -, -, noConsumer, -⟩ := checked
  exact ⟨not_le.1 exists_, not_not.1 noConsumer⟩

theorem until_checked {patlen max pat : Nat} (checked : commandFault s (.task t) (.sfrReadUntil r patlen max buf timeout pat) = none) :
    r < s.readers.length ∧ 1 ≤ max ∧ (s.reader r).consumer = none := by
  simp only [commandFault, fault_of_check] at checked
  obtain ⟨exists_, -, operands, noConsumer, -⟩ := checked
  exact ⟨not_le.1 exists_, by omega, not_not.1 noConsumer⟩

/-- The queue a push leaves, whichever interrupt its result goes to. -/
theorem push_queue_self (exists_ : r < s.readers.length) (v : Byte) (g : Nat) :
    ((s.push r v g).reader r).q = (pushByte v (s.reader r)).q := by
  have result : ((s.push r v g).reader r).q = ((s.setReader r (pushByte v (s.reader r))).reader r).q :=
    getD_set_related (r := fun d e : Reader => e.q = d.q) (fun _ => rfl) (by rfl) r
  rw [result, setReader_reader_self _ _ _ exists_]

/-! ### Entering and leaving a read -/

theorem runs_enterRead (hr : r < s.readers.length) (free : d.consumer = none) :
    Runs t i 1 (.enterRead r :: rest) (s.setReader r d) rest (s.setReader r { d with consumer := some t }) :=
  Runs.go (ops := []) (by simp [microStep, microEnterRead, hr, free])

theorem runs_leave (hr : r < s.readers.length) :
    Runs t i 1 (leaveCode r res) (s.setReader r d) [.ret res] (s.setReader r { d with consumer := none }) :=
  Runs.go (ops := []) (by simp [microStep, microLeaveRead, hr])

/-- A read whose wait is over at its deadline. -/
theorem runs_timesOut {m : Micro} (hr : r < s.readers.length)
    (ends : microStep t m (s.setReader r d) = .jump (s.setReader r d) (leaveCode r (.err .timeout))) :
    Runs t i 2 [m] (s.setReader r d) [.ret (.err .timeout)] (s.setReader r { d with consumer := none }) :=
  (Runs.jump ends).trans (runs_leave hr)

/-! ### SFR_READ_TIMEOUT -/

/-- A read of at least one byte enters its reader. -/
theorem runs_readEnters (hr : r < s.readers.length) (free : d.consumer = none) (some_ : 1 ≤ n) :
    Runs t i 1 (sfrReadCode r n buf timeout) (s.setReader r d) [.armRead r n buf timeout]
      (s.setReader r { d with consumer := some t }) := by
  rw [sfrReadCode, if_neg (by omega)]
  exact runs_enterRead hr free

theorem runs_armRead_incremental (policy : s.cfg.timeoutConsume = .incremental) : Runs t i 1 [.armRead r n buf timeout] s
    [.readLoop r n buf 0 (s.now + timeout)] s :=
  Runs.go (ops := [_]) (by simp [microStep, microArmRead, policy])

theorem runs_armRead_allOrNothing (policy : s.cfg.timeoutConsume = .allOrNothing) : Runs t i 1 [.armRead r n buf timeout] s
    [.readAll r n buf (s.now + timeout)] s :=
  Runs.go (ops := [_]) (by simp [microStep, microArmRead, policy])

theorem readLoop_waits {taken : Nat} (less : taken < n) (empty : (s.reader r).q = []) (early : s.now < deadline) :
    microStep t (.readLoop r n buf taken deadline) s = .hold := by
  simp [microStep, microReadLoop, less, empty, early]

theorem readLoop_over {taken : Nat} (less : taken < n) (empty : (s.reader r).q = []) (late : deadline ≤ s.now) :
    microStep t (.readLoop r n buf taken deadline) s = .jump s (leaveCode r (.err .timeout)) := by
  simp [microStep, microReadLoop, less, empty, late]

theorem readLoop_full : microStep t (.readLoop r n buf n deadline) s = .jump s (leaveCode r (.ok n)) := by
  simp [microStep, microReadLoop]

theorem readAll_waits (less : (s.reader r).q.length < n) (early : s.now < deadline) :
    microStep t (.readAll r n buf deadline) s = .hold := by
  simp [microStep, microReadAll, not_le.2 less, early]

theorem readAll_over (less : (s.reader r).q.length < n) (late : deadline ≤ s.now) :
    microStep t (.readAll r n buf deadline) s = .jump s (leaveCode r (.err .timeout)) := by
  simp [microStep, microReadAll, not_le.2 less, late]

/-- `k` bytes of the Incremental loop. -/
theorem runs_readBytes {taken : Nat} (hr : r < s.readers.length) (writable : s.bufWritable buf n) (within : taken + vs.length ≤ n)
    (queue : d.q = vs ++ later) : Runs t i (2 * vs.length) [.readLoop r n buf taken deadline] (s.setReader r d)
      [.readLoop r n buf (taken + vs.length) deadline]
      ((s.setMem (s.mem.writeBytes (buf + taken) vs)).setReader r { d with q := later }) := by
  induction vs generalizing taken d s with
  | nil =>
    obtain rfl : d.q = later := queue
    exact Runs.refl _ _
  | cons v vs ih =>
    rw [List.length_cons] at within
    have less : taken < n := by omega
    have byte : Runs t i 2 [.readLoop r n buf taken deadline] (s.setReader r d) [.readLoop r n buf (taken + 1) deadline]
        ((s.setMem (s.mem.write (buf + taken) v)).setReader r { d with q := vs ++ later }) := by
      refine ⟨2, le_rfl, fun n => ?_⟩
      simp [runCode, microStep, microReadLoop, microMemStore, less, hr, queue, writable taken less]
    have more := byte.trans (ih (s := s.setMem _) (taken := taken + 1) hr writable (by omega) rfl)
    rw [Nat.add_right_comm taken 1] at more
    exact more.mono (by rw [List.length_cons]; omega)

/-- The stores of a whole frame. -/
theorem runs_stores (writable : s.bufWritable buf vs.length) :
    Runs t i vs.length (storeCode buf vs ++ rest) s rest (s.setMem (s.mem.writeBytes buf vs)) := by
  induction vs generalizing buf s with
  | nil => exact Runs.refl _ _
  | cons v vs ih =>
    have store : Runs t i 1 (storeCode buf (v :: vs) ++ rest) s (storeCode (buf + 1) vs ++ rest) (s.setMem (s.mem.write buf v)) :=
      Runs.go (ops := []) (by simpa [microStep, microMemStore] using writable 0 (by simp))
    have more := store.trans (ih (s := s.setMem (s.mem.write buf v)) (buf := buf + 1) fun j less => by
      simpa [Nat.add_assoc, Nat.add_comm 1] using writable (j + 1) (by simpa using less))
    exact more.mono (by rw [List.length_cons]; omega)

/-- The frame is there: all of it taken (43_serial_frame_reader.md R117). -/
theorem runs_readAll (hr : r < s.readers.length) (writable : s.bufWritable buf n) (full : n ≤ d.q.length) :
    Runs t i (n + 1) [.readAll r n buf deadline] (s.setReader r d) (leaveCode r (.ok n))
      ((s.setMem (s.mem.writeBytes buf (d.q.take n))).setReader r { d with q := d.q.drop n }) := by
  have takes : Runs t i 1 [.readAll r n buf deadline] (s.setReader r d) (storeCode buf (d.q.take n) ++ leaveCode r (.ok n))
      (s.setReader r { d with q := d.q.drop n }) :=
    Runs.jump (by simp [microStep, microReadAll, hr, full])
  have length : (d.q.take n).length = n := by simpa using full
  have stores := takes.trans (runs_stores (by rw [length]; exact writable))
  exact stores.mono (by omega)

/-! ### SFR_READ_UNTIL -/

theorem untilLoop_waits {max : Nat} (empty : (s.reader r).q = []) (early : s.now < deadline) :
    microStep t (.untilLoop r max buf deadline pat got) s = .hold := by
  simp [microStep, microUntilLoop, empty, early]

theorem untilLoop_over {max : Nat} (empty : (s.reader r).q = []) (late : deadline ≤ s.now) :
    microStep t (.untilLoop r max buf deadline pat got) s = .jump s (leaveCode r (.err .timeout)) := by
  simp [microStep, microUntilLoop, empty, late]

theorem untilTest_match {max : Nat} (ends : endsWith got pat = true) :
    microStep t (.untilTest r max buf deadline pat got) s = .jump s (leaveCode r (.ok got.length)) := by
  simp [microStep, microUntilTest, ends]

theorem untilTest_full {max : Nat} (noMatch : endsWith got pat = false) (full : got.length = max) :
    microStep t (.untilTest r max buf deadline pat got) s = .jump s (leaveCode r (.err .noMatch)) := by
  simp [microStep, microUntilTest, noMatch, full]

theorem untilTest_more {max : Nat} (noMatch : endsWith got pat = false) (room : got.length ≠ max) :
    microStep t (.untilTest r max buf deadline pat got) s = .go s [.untilLoop r max buf deadline pat got] := by
  simp [microStep, microUntilTest, noMatch, room]

/-- The pattern read, byte by byte (43_serial_frame_reader.md R118). -/
theorem runs_loadPattern {max p : Nat} (readable : s.bufReadable p k) : Runs t i (k + 1) [.loadPattern r max buf timeout p k got] s
    [.enterRead r, .armUntil r max buf timeout (got ++ s.mem.readBytes p k)] s := by
  induction k generalizing p got with
  | zero => exact Runs.go (ops := [_, _]) (by simp [microStep, microLoadPattern, Memory.readBytes])
  | succ k ih =>
    have byte : Runs t i 1 [.loadPattern r max buf timeout p (k + 1) got] s
        [.loadPattern r max buf timeout (p + 1) k (got ++ [s.mem.read p])] s :=
      Runs.go (ops := [_]) (by simpa [microStep, microLoadPattern] using readable 0 (by omega))
    have more := byte.trans (ih (p := p + 1) (got := got ++ [s.mem.read p]) fun j less => by
      simpa [Nat.add_assoc, Nat.add_comm 1] using readable (j + 1) (by omega))
    rw [List.append_assoc] at more
    exact more.mono (by omega)

/-- A read that has entered and waits for its first byte. -/
theorem runs_untilBegins {max patlen p : Nat} (hr : r < s.readers.length) (free : d.consumer = none) (readable : s.bufReadable p patlen) :
    Runs t i (patlen + 3) (sfrUntilCode r patlen max buf timeout p) (s.setReader r d)
      [.untilLoop r max buf (s.now + timeout) (s.mem.readBytes p patlen) []] (s.setReader r { d with consumer := some t }) :=
  ((runs_loadPattern (s := s.setReader r d) readable).trans (runs_enterRead hr free)).trans (Runs.go (ops := [_]) rfl)

/-- One byte taken, up to the tests. -/
theorem runs_untilByte {max : Nat} {v : Byte} (hr : r < s.readers.length) (writable : canWrite s.cfg (buf + got.length) = true)
    (queue : d.q = v :: later) : Runs t i 2 [.untilLoop r max buf deadline pat got] (s.setReader r d)
      [.untilTest r max buf deadline pat (got ++ [v])]
      ((s.setMem (s.mem.write (buf + got.length) v)).setReader r { d with q := later }) := by
  refine ⟨2, le_rfl, fun n => ?_⟩
  simp [runCode, microStep, microUntilLoop, microMemStore, hr, queue, writable]

/-- The bytes `vs` taken, none of which completes the pattern or fills the buffer. -/
theorem runs_untilBytes {max : Nat} (hr : r < s.readers.length) (writable : s.bufWritable buf max)
    (within : got.length + vs.length < max) (noMatch : ∀ k, 1 ≤ k → k ≤ vs.length → endsWith (got ++ vs.take k) pat = false)
    (queue : d.q = vs ++ later) : Runs t i (3 * vs.length) [.untilLoop r max buf deadline pat got] (s.setReader r d)
      [.untilLoop r max buf deadline pat (got ++ vs)]
      ((s.setMem (s.mem.writeBytes (buf + got.length) vs)).setReader r { d with q := later }) := by
  induction vs generalizing got d s with
  | nil =>
    obtain rfl : d.q = later := queue
    rw [List.append_nil]
    exact Runs.refl _ _
  | cons v vs ih =>
    rw [List.length_cons] at within
    have noMatch₁ : endsWith (got ++ [v]) pat = false := noMatch 1 le_rfl (by simp)
    have notFull : (got ++ [v]).length ≠ max := by simp; omega
    have byte := (runs_untilByte (t := t) (i := i) (deadline := deadline) hr (writable got.length (by omega)) queue).trans
      (Runs.go (ops := [_]) (untilTest_more noMatch₁ notFull))
    have more := byte.trans (ih (s := s.setMem _) (got := got ++ [v]) hr writable (by simp; omega)
      (fun k some le => by simpa using noMatch (k + 1) (by omega) (by simpa using le)) rfl)
    rw [List.append_assoc, List.length_append] at more
    exact more.mono (by rw [List.length_cons]; omega)

/-- The bytes `vs` taken, up to the tests after the last of them. -/
theorem runs_untilFrame {max : Nat} (hr : r < s.readers.length) (writable : s.bufWritable buf max) (within : vs.length ≤ max)
    (nonempty : vs ≠ []) (noMatch : noMatchBefore vs.dropLast pat) (queue : d.q = vs ++ later) :
    Runs t i (3 * vs.length - 1) [.untilLoop r max buf deadline pat []] (s.setReader r d) [.untilTest r max buf deadline pat vs]
      ((s.setMem (s.mem.writeBytes buf vs)).setReader r { d with q := later }) := by
  obtain rfl | ⟨vs, v, rfl⟩ := vs.eq_nil_or_concat
  · exact absurd rfl nonempty
  · rw [List.concat_eq_append] at *
    rw [List.dropLast_concat] at noMatch
    rw [List.length_append, List.length_singleton] at within
    have bytes := runs_untilBytes (t := t) (i := i) (got := []) (deadline := deadline) (later := v :: later) hr writable
      (by simpa using within) noMatch (queue.trans (by simp))
    have last := bytes.trans (runs_untilByte (s := s.setMem _) hr (writable vs.length (by omega)) rfl)
    rw [writeBytes_append, List.length_append]
    exact last.mono (by simp; omega)

theorem noMatch_dropLast (noMatch : noMatchBefore vs pat) : noMatchBefore vs.dropLast pat := fun k some_ le => by
  rw [List.length_dropLast] at le
  rw [List.dropLast_eq_take, List.take_take, min_eq_left le]
  exact noMatch k some_ (by omega)

/-- A later turn of a waiting read, from its deadline on. -/
theorem step_timesOut {m : Micro} (moves : s.taskMoves t n) (hr : r < s.readers.length) (inside : (s.task t).cmd = some ⟨i, [m]⟩)
    (enough : 3 ≤ n) (ends : microStep t m s = .jump s (leaveCode r (.err .timeout))) :
    step s = .next ((s.setReader r { s.reader r with consumer := none }).complete t (.err .timeout)).endTurn := by
  have leaves := runs_timesOut (i := i) (d := s.reader r) hr (by rwa [setReader_reader])
  rw [setReader_reader] at leaves
  rw [step_task_resumes moves inside]
  exact congrArg (fun s => Host.Outcome.next s.endTurn) (leaves.returns enough)

end

end Sys2Proof.Machine

namespace Sys2Proof

open Machine

/-- Settles O38. -/
theorem pushStoresOrDrops : Obligations.PushStoresOrDrops := by
  intro s g r v ⟨issuer, noFault, producer⟩ exists_
  have pushes : exec (.sfrPush r v) s = .next (s.push r v g) := by
    rw [exec_push_irq noFault issuer, if_pos (by exact decide_eq_true exists_)]
  refine ⟨fun room => ?stored, fun full => ?dropped⟩
  case stored =>
    have room : hasRoom (s.reader r) = true := decide_eq_true room
    exact ⟨_, pushes, by simp [State.push, pushByte, pushResult, room], by simp [push_queue_self exists_, pushByte, room]⟩
  case dropped =>
    have room : hasRoom (s.reader r) = false := decide_eq_false (not_lt.2 full)
    exact ⟨_, pushes, by simp [State.push, pushByte, pushResult, room], by simp [push_queue_self exists_, pushByte, room]⟩

/-- Settles O39. -/
theorem readTakesBufferedBytes : Obligations.ReadTakesBufferedBytes := by
  intro s t n r count buf timeout moves enough checked
  have ⟨exists_, free⟩ := read_checked checked
  rw [exec_runs moves checked, codeOf]
  refine ⟨fun some_ full writable => ?bytes, fun none_ => ?nothing⟩
  case bytes =>
    have enters := runs_readEnters (t := t) (i := .sfrRead r count buf timeout) (buf := buf) (timeout := timeout) exists_ free some_
    rw [setReader_reader] at enters
    have taken : ((s.reader r).q.take count).length = count := by simpa using full
    cases policy : s.cfg.timeoutConsume with
    | incremental =>
      have reads := (enters.trans (runs_armRead_incremental policy)).trans
        (runs_readBytes (vs := (s.reader r).q.take count) exists_ writable (by omega) (List.take_append_drop count _).symm)
      rw [taken, Nat.zero_add] at reads
      have leaves := (reads.trans (Runs.jump readLoop_full)).trans (runs_leave (s := s.setMem _) exists_)
      exact congrArg _ (leaves.returns (by omega))
    | allOrNothing =>
      have reads := (enters.trans (runs_armRead_allOrNothing policy)).trans (runs_readAll exists_ writable full)
      have leaves := reads.trans (runs_leave (s := s.setMem _) exists_)
      exact congrArg _ (leaves.returns (by omega))
  case nothing =>
    subst none_
    exact congrArg _ ((Runs.refl [.ret (.ok 0)] s).returns (by omega))

/-- Settles O40. -/
theorem timedOutReadFollowsPolicy : Obligations.TimedOutReadFollowsPolicy := by
  intro s t n r count buf moves enough checked less writable
  have ⟨exists_, free⟩ := read_checked checked
  rw [exec_runs moves checked, codeOf]
  have enters := runs_readEnters (t := t) (i := .sfrRead r count buf 0) (buf := buf) (timeout := 0) exists_ free (by omega : 1 ≤ count)
  rw [setReader_reader] at enters
  refine ⟨fun policy => ?incremental, fun policy => ?allOrNothing⟩
  case incremental =>
    have reads := (enters.trans (runs_armRead_incremental policy)).trans
      (runs_readBytes (vs := (s.reader r).q) exists_ writable (by omega) (List.append_nil _).symm)
    have leaves := reads.trans
      (runs_timesOut (s := s.setMem _) exists_ (readLoop_over (by omega) (by simp [exists_]) (Nat.add_zero _).le))
    exact (congrArg _ (leaves.returns (by omega))).trans (by simp [free])
  case allOrNothing =>
    have waits := enters.trans (runs_armRead_allOrNothing policy)
    have leaves := waits.trans (runs_timesOut exists_ (readAll_over (by simpa [exists_] using less) (Nat.add_zero _).le))
    exact (congrArg _ (leaves.returns (by omega))).trans (by rw [← free, setReader_reader])

/-- Settles O41: the issuing turn comes to a wait, and a later turn finds it. -/
theorem readWaitsUntilDeadline : Obligations.ReadWaitsUntilDeadline := by
  refine ⟨fun s t n r count buf timeout moves enough checked some_ later empty policy => ?incremental,
    fun s t n r count buf got deadline i moves exists_ inside less empty => ?readLoop,
    fun s t n r count buf timeout moves enough checked later less policy => ?allOrNothing,
    fun s t n r count buf deadline i moves exists_ inside less => ?readAll,
    fun s t n r patlen max buf timeout pat moves enough checked later empty readable => ?pattern,
    fun s t n r max buf deadline pat got i moves exists_ inside empty => ?untilLoop⟩
  case incremental =>
    have ⟨exists_, free⟩ := read_checked checked
    have enters := runs_readEnters (t := t) (i := .sfrRead r count buf timeout) (buf := buf) (timeout := timeout) exists_ free some_
    rw [setReader_reader] at enters
    have waits := enters.trans (runs_armRead_incremental policy)
    rw [exec_runs moves checked]
    exact congrArg _ (waits.parks (readLoop_waits (by omega) (by simpa [exists_] using empty) (by simp; omega)) (by omega))
  case allOrNothing =>
    have ⟨exists_, free⟩ := read_checked checked
    have enters := runs_readEnters (t := t) (i := .sfrRead r count buf timeout) (buf := buf) (timeout := timeout) exists_ free
      (by omega : 1 ≤ count)
    rw [setReader_reader] at enters
    have waits := enters.trans (runs_armRead_allOrNothing policy)
    rw [exec_runs moves checked]
    exact congrArg _ (waits.parks (readAll_waits (by simpa [exists_] using less) (by simp; omega)) (by omega))
  case pattern =>
    have ⟨exists_, _, free⟩ := until_checked checked
    have begins := runs_untilBegins (t := t) (i := .sfrReadUntil r patlen max buf timeout pat) (buf := buf) (timeout := timeout) (max := max)
      exists_ free readable
    rw [setReader_reader] at begins
    rw [exec_runs moves checked]
    exact congrArg _ (begins.parks (untilLoop_waits (by simpa [exists_] using empty) (by simp; omega)) (by omega))
  case readLoop =>
    exact ⟨fun early => step_holds moves inside (readLoop_waits less empty early),
      fun late enough => step_timesOut moves exists_ inside enough (readLoop_over less empty late)⟩
  case readAll =>
    exact ⟨fun early => step_holds moves inside (readAll_waits less early),
      fun late enough => step_timesOut moves exists_ inside enough (readAll_over less late)⟩
  case untilLoop =>
    exact ⟨fun early => step_holds moves inside (untilLoop_waits empty early),
      fun late enough => step_timesOut moves exists_ inside enough (untilLoop_over empty late)⟩

/-- Settles O42: all but the last byte, and the last byte. -/
theorem readUntilStopsAtFirstMatch : Obligations.ReadUntilStopsAtFirstMatch := by
  intro s t n r patlen max buf timeout pat got later moves enough checked readable writable queue within nonempty isMatch noMatch
  have ⟨exists_, _, free⟩ := until_checked checked
  have begins := runs_untilBegins (t := t) (i := .sfrReadUntil r patlen max buf timeout pat) (buf := buf) (timeout := timeout) (max := max)
    exists_ free readable
  have takes := begins.trans (runs_untilFrame exists_ writable within nonempty noMatch queue)
  have leaves := (takes.trans (Runs.jump (untilTest_match isMatch))).trans (runs_leave (s := s.setMem _) exists_)
  rw [setReader_reader] at leaves
  rw [exec_runs moves checked, readerAfter, queue, List.drop_left]
  exact congrArg _ (leaves.returns (by have := List.length_pos_iff.2 nonempty; omega))

/-- Settles O43. -/
theorem readUntilWithoutMatch : Obligations.ReadUntilWithoutMatch := by
  intro s t n r patlen max buf pat got later moves enough readable writable queue noMatch
  refine ⟨fun timeout checked full => ?noMatch, fun checked less empty => ?timeout⟩
  case noMatch =>
    have ⟨exists_, some_, free⟩ := until_checked checked
    have nonempty : got ≠ [] := by
      rintro rfl
      simp at full
      omega
    have noEnd : endsWith got (s.mem.readBytes pat patlen) = false := by
      simpa using noMatch got.length (List.length_pos_iff.2 nonempty) le_rfl
    have begins := runs_untilBegins (t := t) (i := .sfrReadUntil r patlen max buf timeout pat) (buf := buf) (timeout := timeout) (max := max)
      exists_ free readable
    have takes := begins.trans (runs_untilFrame exists_ writable full.le nonempty (noMatch_dropLast noMatch) queue)
    have leaves := (takes.trans (Runs.jump (untilTest_full noEnd full))).trans (runs_leave (s := s.setMem _) exists_)
    rw [setReader_reader] at leaves
    rw [exec_runs moves checked, readerAfter, queue, List.drop_left]
    exact congrArg _ (leaves.returns (by omega))
  case timeout =>
    have ⟨exists_, _, free⟩ := until_checked checked
    subst empty
    have begins := runs_untilBegins (t := t) (i := .sfrReadUntil r patlen max buf 0 pat) (buf := buf) (timeout := 0) (max := max)
      exists_ free readable
    have takes := begins.trans (runs_untilBytes (vs := got) exists_ writable (by simpa using less) noMatch queue)
    have leaves := takes.trans (runs_timesOut (s := s.setMem _) exists_ (untilLoop_over (by simp [exists_]) (Nat.add_zero _).le))
    rw [setReader_reader] at leaves
    rw [exec_runs moves checked, readerAfter, queue, List.drop_left]
    exact congrArg _ (leaves.returns (by omega))

end Sys2Proof
end

section
/-! PROOFS of the family `other`, what the micro-steps of a command make of its bus, as one relation between the command before and after
(10_state.md section 8; 41_i2c_bus_control.md; 42_i2c_transfers.md). -/

namespace Sys2Proof.Machine

variable {t b : Nat} {i : Instr} {m : Micro} {s s' : State} {code code' rest ops : List Micro} {u v : Bus}

theorem ask_ne_jump (c : Nat) (p : Prim) (k : Answer → List Micro) (s s' : State) (ops : List Micro) : ask c p k s ≠ .jump s' ops := by
  rcases ask_cases c p k s with h | ⟨a, rest, -, -, h⟩ <;> simp [h]

/-! ### Transfers: mastership (10_state.md R46) -/

/-- What of 10_state.md R46 is about one bus alone. -/
def gripOk (u : Bus) : Prop := heldOk u ∧ (u.ctl.master = true → u.ctl.busy = true)

/-- Micro-steps that neither rely on mastership nor change it. -/
def Micro.neutral : Micro → Bool
  | .genStart _ _ _ _ | .askStart _ _ _ _ _ | .gotStart _ _ _ _ _ _ | .askAddr _ _ _ _ | .gotAddr _ _ _ _ _ | .setPhase _ _
  | .closeBus _ => false
  | _ => true

theorem gripped_neutral (h : m.neutral = true) (master : Bool) : gripped master (m :: rest) = gripped master rest := by
  cases m
  case genStart | askStart | gotStart | askAddr | gotAddr | setPhase | closeBus => cases h
  all_goals rfl

/-- A micro-step of a transfer that jumps goes to micro-steps that rely on no mastership. -/
theorem gripped_jump (hm : m.ofTransfer i b = true) (h : microStep t m s = .jump s' ops) (master : Bool) : gripped master ops = true := by
  cases m
  case gotStart c addr d retries first a =>
    simp only [microStep, microGotStart] at h
    split at h <;> cases h
    rfl
  case gotAddr c addr d retries a =>
    simp only [microStep, microGotAddr] at h
    split at h
    case h_2 => split at h <;> cases h; rfl
    all_goals cases h <;> rfl
  case gotSend c v a =>
    simp only [microStep, microGotSend] at h
    split at h <;> cases h <;> rfl
  case gotRecv c k dst a =>
    simp only [microStep, microGotRecv] at h
    split at h <;> cases h <;> rfl
  case busFail c kind =>
    simp only [microStep, microBusFail] at h
    split at h <;> cases h <;> rfl
  case abort c kind =>
    simp only [microStep, microAbort] at h
    split at h <;> cases h <;> rfl
  case askRecover | askStart | askAddr | askSend | askRecv | askStop =>
    exact (ask_ne_jump _ _ _ _ _ _ h).elim
  case takeLock | waitNotBusy | genStart | recvLoop | sendLoop | loadSend | memStore =>
    simp only [microStep, microTakeLock, microWaitNotBusy, microGenStart, microRecvLoop, microSendLoop, microLoadSend,
      microMemStore] at h
    split at h <;> cases h
  case enterRead | armRead | readLoop | readAll | loadPattern | armUntil | untilLoop | untilTest | leaveRead => cases hm
  all_goals cases h

/-- An ask draws an answer and goes on to read it. -/
theorem gripped_ask {p : Prim} {k : Answer → List Micro} (h : ask b p k s = .go s' ops)
    (grip : ∀ a, gripped (s.bus b).ctl.master (k a ++ rest) = true) : gripped (s'.bus b).ctl.master (ops ++ rest) = true := by
  rcases ask_cases b p k s with held | ⟨a, as, -, -, drawn⟩
  · rw [held] at h; cases h
  · rw [drawn] at h
    cases h
    rw [setBus_related (r := fun u v => v.ctl.master = u.ctl.master) (fun _ => rfl) (by rfl) b]
    exact grip a

/-- A micro-step of a transfer that goes on leaves it relying on the mastership it has. -/
theorem gripped_go (hb : b < s.buses.length) (hm : m.ofTransfer i b = true) (h : microStep t m s = .go s' ops)
    (grip : gripped (s.bus b).ctl.master (m :: rest) = true) : gripped (s'.bus b).ctl.master (ops ++ rest) = true := by
  cases m <;> simp only [Micro.ofTransfer, Bool.and_eq_true, decide_eq_true_eq, Bool.false_eq_true] at hm
  case waitNotBusy c =>
    simp only [microStep, microWaitNotBusy] at h
    split at h <;> cases h
    exact grip
  case genStart c addr d retries =>
    subst hm
    simp only [microStep, microGenStart] at h
    split at h <;> cases h
    · simpa [gripped, *] using grip
    · exact grip
  case gotStart c addr d retries first a =>
    subst hm
    simp only [microStep, microGotStart] at h
    split at h <;> cases h
    cases first
    · have ⟨master, after⟩ : (s.bus c).ctl.master = true ∧ gripped true rest = true := by simpa [gripped] using grip
      simpa [started_again, hb, gripped, master] using after
    · simpa [started_first, hb, gripped] using grip
  case gotAddr c addr d retries a =>
    subst hm
    have ⟨master, after⟩ : (s.bus c).ctl.master = true ∧ gripped (s.bus c).ctl.master rest = true := by
      simpa [gripped] using grip
    rw [master] at after
    simp only [microStep, microGotAddr] at h
    split at h
    case h_1 => cases h; simpa [hb, master] using after
    case h_2 =>
      split at h <;> cases h
      simpa [hb, master, gripped] using after
    all_goals cases h
  case gotSend c v a =>
    subst hm
    simp only [microStep, microGotSend] at h
    split at h <;> cases h
    rw [gripped_neutral rfl] at grip
    simpa [hb] using grip
  case gotRecv c k dst a =>
    obtain ⟨rfl, -⟩ := hm
    simp only [microStep, microGotRecv] at h
    split at h <;> cases h
    rw [gripped_neutral rfl] at grip
    simpa [hb, gripped] using grip
  case setPhase c p =>
    subst hm
    cases h
    have after : gripped (s.bus c).ctl.master rest = true := by
      simp only [gripped, Bool.and_eq_true] at grip
      exact grip.2
    simpa [hb] using after
  case closeBus | setAckEn | noteStop => subst hm; cases h; simpa [hb, gripped] using grip
  case recvLoop c buf len j nostop =>
    simp only [microStep, microRecvLoop] at h
    split at h <;> cases h <;> exact grip
  case sendLoop c buf len j =>
    simp only [microStep, microSendLoop] at h
    split at h <;> cases h <;> exact grip
  case loadSend | memStore =>
    simp only [microStep, microLoadSend, microMemStore] at h
    split at h <;> cases h
    exact grip
  case busFail | abort =>
    simp only [microStep, microBusFail, microAbort] at h
    split at h <;> cases h
  case askStart | askAddr | askSend | askStop => subst hm; exact gripped_ask h fun _ => grip
  case askRecv => obtain ⟨rfl, -⟩ := hm; exact gripped_ask h fun a => grip
  case holdForever | ret => cases h

/-- A micro-step of a transfer by the owner keeps 10_state.md R46 of its bus. -/
theorem BusEdit.gripOk (e : BusEdit t m u v) (hm : m.ofTransfer i b = true) (grip : gripped u.ctl.master (m :: rest) = true)
    (owned : u.lock ≠ .free) (ok : gripOk u) : gripOk v := by
  obtain ⟨held, busy⟩ := ok
  cases e
  case resetLock | clock | pins | enable | setCcr | setFs | drawBusy | setInitDone | joinWaiters | takeLock | freeLock => cases hm
  case setPhase c p =>
    simp only [gripped, Bool.and_eq_true, Bool.or_eq_true, decide_eq_true_eq] at grip
    refine ⟨fun open_ => ?_, busy⟩
    have master := grip.1.resolve_left open_
    exact ⟨owned, master, busy master⟩
  case setAckEn | draw | emit => exact ⟨held, busy⟩
  case closeBus => exact ⟨fun open_ => absurd rfl open_, fun master => by cases master⟩
  case start => exact ⟨fun open_ => ⟨owned, rfl, rfl⟩, fun _ => rfl⟩
  case lose => exact ⟨fun open_ => absurd rfl open_, fun master => by cases master⟩

/-! ### What a command in progress makes of its bus -/

/-- One micro-step of I2C_INIT from `code` to `code'`: it runs, or it sets `init_done` (41_i2c_bus_control.md R97). -/
structure InitMove (b : Nat) (code : List Micro) (u : Bus) (code' : List Micro) (v : Bus) : Prop where
  begun : .setInitDone b ∈ code
  lock : v.lock = u.lock ∨ v.lock = .free
  phase : v.phase = u.phase ∨ v.phase = .idle
  master : v.ctl.master = u.ctl.master
  done : v.initDone = u.initDone ∨ .setInitDone b ∉ code' ∧ .clock b false ∉ code ∧ v.clkEn = u.clkEn
  clock : .clock b false ∉ code' → v.clkEn = false ∨ .clock b false ∉ code ∧ v.clkEn = u.clkEn

/-- One micro-step of task `t` in a command on bus `b`: the command, the bus and the power-block count before and after. -/
inductive BusMove (t b : Nat) : Cmd → Bus → Nat → Cmd → Bus → Nat → Prop where
  | join (u : Bus) (pm : Nat) (w : List Nat) : BusMove t b ⟨.i2cAcquire b, acquireCode b⟩ u pm
      ⟨.i2cAcquire b, (acquireCode b).drop 1⟩ { u with waiters := w } pm
  | take (u : Bus) (pm : Nat) (w : List Nat) : u.lock = .free → BusMove t b ⟨.i2cAcquire b, (acquireCode b).drop 1⟩ u pm
      ⟨.i2cAcquire b, (acquireCode b).drop 2⟩ { u with lock := .owned t, waiters := w } pm
  | block (u : Bus) (pm : Nat) : BusMove t b ⟨.i2cAcquire b, (acquireCode b).drop 2⟩ u pm
      ⟨.i2cAcquire b, (acquireCode b).drop 3⟩ u (pm + 1)
  | clockOn (u : Bus) (pm : Nat) : BusMove t b ⟨.i2cAcquire b, (acquireCode b).drop 3⟩ u pm
      ⟨.i2cAcquire b, (acquireCode b).drop 4⟩ { u with clkEn := true } pm
  | notBusy (u : Bus) (pm : Nat) : u.ctl.busy = false → BusMove t b ⟨.i2cRelease b, releaseCode b⟩ u pm
      ⟨.i2cRelease b, (releaseCode b).drop 1⟩ u pm
  | clockOff (u : Bus) (pm : Nat) : BusMove t b ⟨.i2cRelease b, (releaseCode b).drop 1⟩ u pm
      ⟨.i2cRelease b, (releaseCode b).drop 2⟩ { u with clkEn := false } pm
  | unblock (u : Bus) (pm : Nat) : BusMove t b ⟨.i2cRelease b, (releaseCode b).drop 2⟩ u pm
      ⟨.i2cRelease b, (releaseCode b).drop 3⟩ u (pm - 1)
  | free (u : Bus) (pm : Nat) : BusMove t b ⟨.i2cRelease b, (releaseCode b).drop 3⟩ u pm
      ⟨.i2cRelease b, (releaseCode b).drop 4⟩ { u with lock := .free } pm
  | init (code code' : List Micro) (u v : Bus) (pm : Nat) : InitMove b code u code' v →
    BusMove t b ⟨.i2cInit b, code⟩ u pm ⟨.i2cInit b, code'⟩ v pm
  | transfer (i : Instr) (code code' : List Micro) (u v : Bus) (pm : Nat) : i.isTransfer = true → i.busOf = some b →
    v.initDone = u.initDone → v.lock = u.lock → v.clkEn = u.clkEn →
    (gripped u.ctl.master code = true → gripped v.ctl.master code' = true ∧ (u.lock ≠ .free → gripOk u → gripOk v)) →
    BusMove t b ⟨i, code⟩ u pm ⟨i, code'⟩ v pm

theorem acquire_move (hb : b < s.buses.length) (fits : (⟨.i2cAcquire b, m :: rest⟩ : Cmd).fits) (h : microStep t m s = .go s' ops) :
    BusMove t b ⟨.i2cAcquire b, m :: rest⟩ (s.bus b) s.pmDeepBlocks ⟨.i2cAcquire b, ops ++ rest⟩ (s'.bus b) s'.pmDeepBlocks := by
  simp only [Cmd.fits, acquireCode, List.suffix_cons_iff, List.suffix_nil, List.cons.injEq, reduceCtorEq, or_false] at fits
  rcases fits with ⟨rfl, rfl⟩ | ⟨rfl, rfl⟩ | ⟨rfl, rfl⟩ | ⟨rfl, rfl⟩ | ⟨rfl, rfl⟩
  · cases h
    rw [modBus_eq, setBus_bus_self _ _ _ hb]
    exact .join ..
  · simp only [microStep, microTakeLock] at h
    split at h <;> cases h
    rw [modBus_eq, setBus_bus_self _ _ _ hb]
    exact .take _ _ _ ‹_›
  · cases h
    exact .block ..
  · cases h
    rw [modBus_eq, setBus_bus_self _ _ _ hb]
    exact .clockOn ..
  · cases h

theorem release_move (hb : b < s.buses.length) (fits : (⟨.i2cRelease b, m :: rest⟩ : Cmd).fits) (h : microStep t m s = .go s' ops) :
    BusMove t b ⟨.i2cRelease b, m :: rest⟩ (s.bus b) s.pmDeepBlocks ⟨.i2cRelease b, ops ++ rest⟩ (s'.bus b) s'.pmDeepBlocks := by
  simp only [Cmd.fits, releaseCode, List.suffix_cons_iff, List.suffix_nil, List.cons.injEq, reduceCtorEq, or_false] at fits
  rcases fits with ⟨rfl, rfl⟩ | ⟨rfl, rfl⟩ | ⟨rfl, rfl⟩ | ⟨rfl, rfl⟩ | ⟨rfl, rfl⟩
  · simp only [microStep, microWaitNotBusy] at h
    split at h <;> cases h
    exact .notBusy _ _ (Bool.not_eq_true _ ▸ ‹_›)
  · cases h
    rw [modBus_eq, setBus_bus_self _ _ _ hb]
    exact .clockOff ..
  · cases h
    exact .unblock ..
  · cases h
    rw [modBus_eq, setBus_bus_self _ _ _ hb]
    exact .free ..
  · cases h

theorem init_mem (fits : (⟨.i2cInit b, m :: rest⟩ : Cmd).fits) : m ∈ initCode b ∨ m ∈ recoverCode b := by
  rcases fits with fits | fits
  · exact .inl (fits.subset (List.mem_cons_self ..))
  · exact (List.mem_append.1 (fits.subset (List.mem_cons_self ..))).symm.imp List.mem_of_mem_drop id

/-- Before its `return` I2C_INIT has `init_done` still to set, and last of all; and a clock it turns on still to turn off. -/
theorem init_ahead (fits : (⟨.i2cInit b, m :: rest⟩ : Cmd).fits) (running : m ≠ .ret (.ok 0)) : .setInitDone b ∈ m :: rest ∧
    (m = .setInitDone b → rest = [.ret (.ok 0)]) ∧ (m = .clock b true → .clock b false ∈ rest) := by
  simp only [Cmd.fits, initCode, recoverCode, List.suffix_cons_iff, List.suffix_nil, List.cons.injEq, reduceCtorEq, or_false,
    List.cons_append, List.nil_append, List.drop_succ_cons, List.drop_zero] at fits
  rcases fits with fits | fits
  all_goals
    casesm* _ ∨ _
    all_goals simp_all

theorem init_mayLose (hm : m ∈ initCode b ∨ m ∈ recoverCode b) : m.mayLose = false := by
  cases m
  case gotStart | gotAddr | gotSend | gotRecv => simp [initCode, recoverCode] at hm
  all_goals rfl

/-- Every micro-step of I2C_INIT but the clock's and the last keeps clock and `init_done`. -/
theorem BusEdit.initKept (e : BusEdit t m u v) (hm : m ∈ initCode b ∨ m ∈ recoverCode b) (notClock : ∀ on, m ≠ .clock b on)
    (notLast : m ≠ .setInitDone b) : (v.lock = u.lock ∨ v.lock = .free) ∧ (v.phase = u.phase ∨ v.phase = .idle) ∧
      v.ctl.master = u.ctl.master ∧ v.initDone = u.initDone ∧ v.clkEn = u.clkEn := by
  cases e
  case resetLock => exact ⟨.inr rfl, .inl rfl, rfl, rfl, rfl⟩
  case pins | enable | setCcr | setFs | drawBusy | draw | emit => exact ⟨.inl rfl, .inl rfl, rfl, rfl, rfl⟩
  case setPhase c p =>
    obtain ⟨-, rfl⟩ : c = b ∧ p = .idle := by simpa [initCode, recoverCode] using hm
    exact ⟨.inl rfl, .inr rfl, rfl, rfl, rfl⟩
  case clock c on =>
    obtain rfl : c = b := by rcases hm with hm | hm <;> simp [initCode, recoverCode] at hm; omega
    exact absurd rfl (notClock on)
  case setInitDone c =>
    obtain rfl : c = b := by simpa [initCode, recoverCode] using hm
    exact absurd rfl notLast
  case lose may => rw [init_mayLose hm] at may; cases may
  case joinWaiters | takeLock | freeLock | setAckEn | closeBus | start => simp [initCode, recoverCode] at hm

theorem init_move (hb : b < s.buses.length) (fits : (⟨.i2cInit b, m :: rest⟩ : Cmd).fits) (h : microStep t m s = .go s' ops) :
    InitMove b (m :: rest) (s.bus b) (ops ++ rest) (s'.bus b) ∧ s'.pmDeepBlocks = s.pmDeepBlocks := by
  obtain ⟨begun, last, off⟩ := init_ahead fits (by rintro rfl; cases h)
  have hm := init_mem fits
  by_cases isLast : m = .setInitDone b
  · obtain rfl := isLast
    obtain rfl := last rfl
    cases h
    rw [modBus_eq, setBus_bus_self _ _ _ hb]
    exact ⟨⟨begun, .inl rfl, .inl rfl, rfl, .inr ⟨by simp, by simp, rfl⟩, fun _ => .inr ⟨by simp, rfl⟩⟩, rfl⟩
  by_cases isClock : ∃ on, m = .clock b on
  · obtain ⟨on, rfl⟩ := isClock
    cases h
    rw [modBus_eq, setBus_bus_self _ _ _ hb]
    refine ⟨⟨begun, .inl rfl, .inl rfl, rfl, .inl rfl, fun stopped => .inl ?_⟩, rfl⟩
    cases on with
    | true => exact absurd (off rfl) stopped
    | false => rfl
  have notClock := not_exists.mp isClock
  have same {v : Bus} (kept : (v.lock = (s.bus b).lock ∨ v.lock = .free) ∧ (v.phase = (s.bus b).phase ∨ v.phase = .idle) ∧
      v.ctl.master = (s.bus b).ctl.master ∧ v.initDone = (s.bus b).initDone ∧ v.clkEn = (s.bus b).clkEn) :
      InitMove b (m :: rest) (s.bus b) (ops ++ rest) v := by
    obtain ⟨lock, phase, master, done, clock⟩ := kept
    refine ⟨begun, lock, phase, master, .inl done, fun stopped => .inr ⟨fun running => ?_, clock⟩⟩
    exact stopped (List.mem_append_right _ ((List.mem_cons.1 running).resolve_left fun h => notClock _ h.symm))
  cases microStep_edit (t := t) (m := m) (s' := s') (by rw [h]; rfl) with
  | nothing | reader | store => exact ⟨same ⟨.inl rfl, .inl rfl, rfl, rfl, rfl⟩, rfl⟩
  | bus c u hc e =>
    obtain rfl : b = c := by simpa [hc, Instr.busOf, eq_comm] using fits_bus fits m (List.mem_cons_self ..)
    exact ⟨same (by rw [setBus_bus_self _ _ _ hb]; exact e.initKept hm notClock isLast), rfl⟩
  | free c u hd e =>
    obtain rfl : b = c := by subst hd; simpa [initCode, recoverCode, eq_comm] using hm
    exact ⟨same (by rw [setDraws_bus, setBus_bus_self _ _ _ hb]; exact e.initKept hm notClock isLast), rfl⟩
  | block hd | unblock hd => subst hd; simp [initCode, recoverCode] at hm

theorem transfer_edit (hm : m.ofTransfer i b = true) (h : (microStep t m s).next? = some s') (hb : b < s.buses.length) :
    s'.pmDeepBlocks = s.pmDeepBlocks ∧ (s'.bus b = s.bus b ∨ BusEdit t m (s.bus b) (s'.bus b)) := by
  cases microStep_edit h with
  | nothing | reader | store => exact ⟨rfl, .inl rfl⟩
  | bus c u hc e =>
    obtain rfl : b = c := by simpa [hc, eq_comm] using ofTransfer_bus hm
    exact ⟨rfl, .inr (by rwa [setBus_bus_self _ _ _ hb])⟩
  | free c u hd | block hd | unblock hd => rw [hd] at hm; cases hm

theorem transfer_move (hb : b < s.buses.length) (fits : (⟨i, m :: rest⟩ : Cmd).fits) (transfer : i.isTransfer = true)
    (bus : i.busOf = some b) (h : microStep t m s = .go s' ops ∧ code' = ops ++ rest ∨ microStep t m s = .jump s' ops ∧ code' = ops) :
    BusMove t b ⟨i, m :: rest⟩ (s.bus b) s.pmDeepBlocks ⟨i, code'⟩ (s'.bus b) s'.pmDeepBlocks := by
  have hm := fits_transfer fits transfer bus m (List.mem_cons_self ..)
  have next : (microStep t m s).next? = some s' := by rcases h with ⟨h, -⟩ | ⟨h, -⟩ <;> rw [h] <;> rfl
  obtain ⟨pm, edit⟩ := transfer_edit hm next hb
  have grip : gripped (s.bus b).ctl.master (m :: rest) = true → gripped (s'.bus b).ctl.master code' = true := fun grip => by
    rcases h with ⟨h, rfl⟩ | ⟨h, rfl⟩
    · exact gripped_go hb hm h grip
    · exact gripped_jump hm h _
  rw [pm]
  rcases edit with same | edit
  · rw [same] at grip ⊢
    exact .transfer i _ _ _ _ _ transfer bus rfl rfl rfl fun g => ⟨grip g, fun _ => id⟩
  · obtain ⟨-, initDone, lock, -, clkEn, -⟩ := edit.controlKept hm
    exact .transfer i _ _ _ _ _ transfer bus initDone lock clkEn fun g => ⟨grip g, edit.gripOk hm g⟩

/-- A micro-step of a bus command that goes on. -/
theorem busMove_go (hb : b < s.buses.length) (fits : (⟨i, m :: rest⟩ : Cmd).fits) (bus : i.busOf = some b)
    (h : microStep t m s = .go s' ops) :
    BusMove t b ⟨i, m :: rest⟩ (s.bus b) s.pmDeepBlocks ⟨i, ops ++ rest⟩ (s'.bus b) s'.pmDeepBlocks := by
  cases i <;> cases bus
  case i2cInit =>
    obtain ⟨move, pm⟩ := init_move hb fits h
    rw [pm]
    exact .init _ _ _ _ _ move
  case i2cAcquire => exact acquire_move hb fits h
  case i2cRelease => exact release_move hb fits h
  all_goals exact transfer_move hb fits rfl rfl (.inl ⟨h, rfl⟩)

/-- A micro-step of a bus command that jumps. -/
theorem busMove_jump (hb : b < s.buses.length) (fits : (⟨i, m :: rest⟩ : Cmd).fits) (bus : i.busOf = some b)
    (h : microStep t m s = .jump s' ops) :
    BusMove t b ⟨i, m :: rest⟩ (s.bus b) s.pmDeepBlocks ⟨i, ops⟩ (s'.bus b) s'.pmDeepBlocks := by
  cases i <;> cases bus
  case i2cInit => exact absurd h (init_ops fits).2
  case i2cAcquire => exact absurd h (acqrel_ops (.inl (fits.subset (List.mem_cons_self ..)))).2
  case i2cRelease => exact absurd h (acqrel_ops (.inr (fits.subset (List.mem_cons_self ..)))).2
  all_goals exact transfer_move hb fits rfl rfl (.inr ⟨h, rfl⟩)

end Sys2Proof.Machine
end

section
/-! PROOFS of the family `other`, one bus and the commands in progress: where they stand, the clock, the power-block count and the open
transaction, over every micro-step, issue and end of a command (10_state.md R45, R46). -/

namespace Sys2Proof.Machine

open Function (update)

variable {t t' b pm pm' : Nat} {i : Instr} {m : Micro} {s : State} {code code' rest : List Micro} {u v : Bus} {c c' d : Cmd}
  {cmd : Nat → Option Cmd} {x : Option Cmd}

/-! ### Where a command stands, of its bus alone -/

/-- Where command `c` of task `t` on bus `b` can be, `u` the bus: `Cmd.mayStand` of that bus alone. -/
def Cmd.standsAt (b : Nat) (u : Bus) (t : Nat) (c : Cmd) : Prop :=
  match c.instr with
  | .i2cInit _ => .setInitDone b ∈ c.code → u.initDone = false ∧ (.clock b false ∉ c.code → u.clkEn = false)
  | .i2cAcquire _ => u.initDone = true ∧ (.takeLock b ∉ c.code → u.lock = .owned t)
  | .i2cRelease _ => u.initDone = true ∧ (.freeLock b ∈ c.code → u.lock = .owned t)
  | .i2cRead _ _ _ _ _ => u.initDone = true ∧ u.lock = .owned t
  | .i2cWrite _ _ _ _ _ => u.initDone = true ∧ u.lock = .owned t
  | .i2cReadRegs _ _ _ _ _ _ => u.initDone = true ∧ u.lock = .owned t
  | .i2cWriteRegs _ _ _ _ _ _ => u.initDone = true ∧ u.lock = .owned t
  | .sfrPush _ _ => True
  | .sfrRead _ _ _ _ => True
  | .sfrReadUntil _ _ _ _ _ _ => True

theorem mayStand_iff (bus : c.instr.busOf = some b) : c.mayStand s t ↔ b < s.buses.length ∧ c.standsAt b (s.bus b) t := by
  obtain ⟨i, code⟩ := c
  cases i <;> cases bus <;> simp [Cmd.mayStand, Cmd.standsAt, State.busReady, and_assoc]

theorem mayStand_of_noBus (bus : c.instr.busOf = none) : c.mayStand s t := by
  obtain ⟨i, code⟩ := c
  cases i
  case sfrPush | sfrRead | sfrReadUntil => exact trivial
  all_goals cases bus

theorem standsAt_transfer (transfer : c.instr.isTransfer = true) : c.standsAt b u t ↔ u.initDone = true ∧ u.lock = .owned t := by
  obtain ⟨i, code⟩ := c
  cases i <;> cases transfer <;> rfl

/-- Of an initialised bus nothing but the lock of its owner matters. -/
theorem standsAt_kept (inited : u.initDone = true) (inited' : v.initDone = true) (lock : u.lock = .owned t → v.lock = .owned t)
    (stands : c.standsAt b u t) : c.standsAt b v t := by
  obtain ⟨i, code⟩ := c
  cases i
  case i2cInit =>
    intro begun
    exact absurd (inited.symm.trans (stands begun).1) (by simp)
  case i2cAcquire | i2cRelease => exact ⟨inited', fun h => lock (stands.2 h)⟩
  case sfrPush | sfrRead | sfrReadUntil => trivial
  all_goals exact ⟨inited', lock stands.2⟩

/-- On a bus not yet initialised only I2C_INIT is in progress. -/
theorem standsAt_uninit (notInited : u.initDone = false) (bus : c.instr.busOf = some b) (stands : c.standsAt b u t) :
    c.instr = .i2cInit b := by
  obtain ⟨i, code⟩ := c
  cases i <;> cases bus
  case i2cInit => rfl
  all_goals
    exact absurd (notInited.symm.trans stands.1) (by simp)

theorem BusMove.instr_eq (move : BusMove t b c u pm c' v pm') : c'.instr = c.instr := by cases move <;> rfl

theorem BusMove.busOf (move : BusMove t b c u pm c' v pm') : c.instr.busOf = some b := by
  cases move
  case transfer bus _ _ _ _ => exact bus
  all_goals rfl

/-- A micro-step of I2C_INIT works on a bus not yet initialised; one of any other command on an initialised one, and leaves it to another
owner but for the waiters. -/
theorem BusMove.beside (move : BusMove t b c u pm c' v pm') (stands : c.standsAt b u t) :
    u.initDone = false ∧ c.instr = .i2cInit b ∨
      u.initDone = true ∧ v.initDone = true ∧ ∀ t', t' ≠ t → u.lock = .owned t' → u.sameButWaiters v := by
  have self {t' : Nat} (other : t' ≠ t) (owned : u.lock = .owned t) (owned' : u.lock = .owned t') : False := by
    rw [owned] at owned'
    exact other (Lock.owned.inj owned').symm
  cases move
  case join w => exact .inr ⟨stands.1, stands.1, fun _ _ _ => ⟨w, rfl⟩⟩
  case take w free => exact .inr ⟨stands.1, stands.1, fun _ _ owned => by rw [free] at owned; cases owned⟩
  case block | notBusy | unblock => exact .inr ⟨stands.1, stands.1, fun _ _ _ => .refl u⟩
  case clockOn => exact .inr ⟨stands.1, stands.1, fun _ other owned => (self other (stands.2 (by simp [acquireCode])) owned).elim⟩
  case clockOff | free =>
    exact .inr ⟨stands.1, stands.1, fun _ other owned => (self other (stands.2 (by simp [releaseCode])) owned).elim⟩
  case init code code' move => exact .inl ⟨(stands move.begun).1, rfl⟩
  case transfer i code code' transfer bus initDone lock clkEn grip =>
    have ⟨inited, owned⟩ := (standsAt_transfer transfer).1 stands
    exact .inr ⟨inited, initDone.trans inited, fun _ other owned' => (self other owned owned').elim⟩

/-- The command itself still stands where it can after its micro-step. -/
theorem BusMove.standsAt (move : BusMove t b c u pm c' v pm') (stands : c.standsAt b u t) : c'.standsAt b v t := by
  cases move
  case join => exact ⟨stands.1, fun h => absurd h (by simp [acquireCode])⟩
  case take => exact ⟨stands.1, fun _ => rfl⟩
  case block | clockOn => exact ⟨stands.1, fun _ => stands.2 (by simp [acquireCode])⟩
  case notBusy | clockOff | unblock => exact ⟨stands.1, fun _ => stands.2 (by simp [releaseCode])⟩
  case free => exact ⟨stands.1, fun h => absurd h (by simp [releaseCode])⟩
  case init code code' move =>
    obtain ⟨begun, -, -, -, done, clock⟩ := move
    have ⟨notInited, off⟩ := stands begun
    intro begun'
    refine ⟨(done.resolve_right fun h => h.1 begun').trans notInited, fun stopped => ?_⟩
    rcases clock stopped with off' | ⟨stopped', same⟩
    · exact off'
    · exact same.trans (off stopped')
  case transfer i code code' transfer bus initDone lock clkEn grip =>
    rw [standsAt_transfer transfer, initDone, lock]
    exact (standsAt_transfer transfer).1 stands

/-! ### What holds of every bus and the commands in progress -/

/-- Task `t` is inside I2C_INIT of bus `b`. -/
def Inits (cmd : Nat → Option Cmd) (b t : Nat) : Prop := ∃ c, cmd t = some c ∧ c.instr = .i2cInit b

/-- Every command in progress on bus `b` stands where it can, two of them are not I2C_INIT, and before its initialisation the lock is free. -/
structure Stands (b : Nat) (u : Bus) (cmd : Nat → Option Cmd) : Prop where
  each : ∀ t c, cmd t = some c → c.instr.busOf = some b → c.standsAt b u t
  apart : ∀ t t', Inits cmd b t → Inits cmd b t' → t = t'
  free : u.initDone = false → u.lock = .free

/-- What a bus and the commands in progress keep: over a micro-step, the end of a command, its issue, a change of a command elsewhere,
and what the environment may change. -/
structure LocalKeeps (L : Nat → Bus → (Nat → Option Cmd) → Prop) : Prop where
  move : ∀ {t b c u pm c' v pm' cmd}, BusMove t b c u pm c' v pm' → cmd t = some c → Stands b u cmd → L b u cmd →
    L b v (update cmd t (some c'))
  ends : ∀ {t b c u cmd}, cmd t = some c → c.clockPending b = false → L b u cmd → L b u (update cmd t none)
  begins : ∀ {t b i s cmd}, commandFault s (.task t) i = none → i.busOf = some b → cmd t = none →
    (i = .i2cInit b → ∀ t', ¬ Inits cmd b t') → L b (s.bus b) cmd → L b (s.bus b) (update cmd t (some ⟨i, codeOf i⟩))
  off : ∀ {t b u cmd x}, (∀ c, cmd t = some c → c.instr.busOf ≠ some b) → (∀ c, x = some c → c.instr.busOf ≠ some b) →
    L b u cmd → L b u (update cmd t x)
  outside : ∀ {b u v cmd}, u.sameButOutside v → L b u cmd → L b v cmd

/-- What holds of every command in progress, where one is set. -/
theorem forall_update {p : Nat → Cmd → Prop} (each : ∀ t c, cmd t = some c → p t c) (set : ∀ c, x = some c → p t c) :
    ∀ t' c, update cmd t x t' = some c → p t' c := by
  intro t' c h
  by_cases same : t' = t
  · subst same
    rw [Function.update_self] at h
    exact set c h
  · rw [Function.update_of_ne same] at h
    exact each t' c h

/-- Another task's command stands where it did, over a micro-step of task `t`. -/
theorem BusMove.standsAt_other (move : BusMove t b c u pm c' v pm') (inside : cmd t = some c) (stands : Stands b u cmd) (other : t' ≠ t)
    (inside' : cmd t' = some d) (bus : d.instr.busOf = some b) : d.standsAt b v t' := by
  have stands' := stands.each t' d inside' bus
  rcases move.beside (stands.each t c inside move.busOf) with ⟨notInited, init⟩ | ⟨inited, inited', beside⟩
  · exact absurd (stands.apart t' t ⟨d, inside', standsAt_uninit notInited bus stands'⟩ ⟨c, inside, init⟩) other
  · exact standsAt_kept inited inited' (fun owned => (beside t' other owned).lock_eq.trans owned) stands'

theorem BusMove.uninit (move : BusMove t b c u pm c' v pm') (stands : c.standsAt b u t) (notInited : v.initDone = false) :
    u.initDone = false ∧ c.instr = .i2cInit b := by
  rcases move.beside stands with uninit | ⟨-, inited, -⟩
  · exact uninit
  · rw [notInited] at inited
    cases inited

/-- What a micro-step of I2C_INIT keeps. -/
theorem BusMove.initMove (move : BusMove t b c u pm c' v pm') (init : c.instr = .i2cInit b) : InitMove b c.code u c'.code v := by
  cases move
  case init move => exact move
  case transfer i code code' transfer bus initDone lock clkEn grip =>
    rw [show i = .i2cInit b from init] at transfer
    cases transfer
  all_goals cases init

theorem Bus.sameButOutside.kept (h : u.sameButOutside v) : v.initDone = u.initDone ∧ v.lock = u.lock ∧ v.clkEn = u.clkEn ∧
    v.phase = u.phase ∧ v.ctl.master = u.ctl.master := by
  obtain ⟨w, as, y, rfl, -⟩ := h
  exact ⟨rfl, rfl, rfl, rfl, rfl⟩

/-- A command just issued on its bus stands where it can. -/
theorem codeOf_standsAt (checked : commandFault s (.task t) i = none) (bus : i.busOf = some b) :
    (⟨i, codeOf i⟩ : Cmd).standsAt b (s.bus b) t := by
  have owner := (checked_bus checked bus).2
  cases i <;> cases bus
  case i2cInit =>
    simp only [commandFault, fault_of_check] at checked
    exact fun _ => ⟨by simpa using checked.2.2.1, fun h => absurd h (by simp [codeOf, initCode])⟩
  case i2cAcquire =>
    simp only [commandFault, fault_of_check] at checked
    exact ⟨by simpa using checked.2.2.1, fun h => absurd h (by simp [codeOf, acquireCode])⟩
  case i2cRelease =>
    have ⟨inited, owned⟩ : (s.bus b).initDone = true ∧ (s.bus b).lock = .owned t := by simpa using owner
    exact ⟨inited, fun _ => owned⟩
  all_goals simpa [Cmd.standsAt] using owner

theorem inits_update (same : ∀ c, x = some c → c.instr = .i2cInit b → Inits cmd b t) (h : Inits (update cmd t x) b t') :
    Inits cmd b t' := by
  obtain ⟨c, h, init⟩ := h
  exact forall_update (p := fun t' c => c.instr = .i2cInit b → Inits cmd b t') (fun t' c h init => ⟨c, h, init⟩) same t' c h init

theorem stands_keeps : LocalKeeps Stands where
  move {t b c u pm c' v pm' cmd} move inside _ stands := by
    have before {t'} (h : Inits (update cmd t (some c')) b t') : Inits cmd b t' :=
      inits_update (fun d same init => ⟨c, inside, by rw [← move.instr_eq, Option.some.inj same, init]⟩) h
    refine ⟨fun t' d inside' bus => ?_, fun t₁ t₂ h₁ h₂ => stands.apart t₁ t₂ (before h₁) (before h₂), fun notInited => ?_⟩
    · by_cases other : t' = t
      · subst other
        rw [Function.update_self] at inside'
        obtain rfl := Option.some.inj inside'
        exact move.standsAt (stands.each t' c inside move.busOf)
      · rw [Function.update_of_ne other] at inside'
        exact move.standsAt_other inside stands other inside' bus
    · obtain ⟨before, init⟩ := move.uninit (stands.each t c inside move.busOf) notInited
      rcases (move.initMove init).lock with lock | lock
      · exact lock.trans (stands.free before)
      · exact lock
  ends {t b c u cmd} inside _ stands := by
    have before {t'} (h : Inits (update cmd t none) b t') : Inits cmd b t' := inits_update (fun _ none_ => by cases none_) h
    exact ⟨forall_update stands.each (fun _ none_ => by cases none_), fun t₁ t₂ h₁ h₂ => stands.apart t₁ t₂ (before h₁) (before h₂),
      stands.free⟩
  begins {t b i s cmd} checked bus outside alone stands := by
    refine ⟨forall_update stands.each fun c same _ => ?_, fun t₁ t₂ h₁ h₂ => ?_, stands.free⟩
    · obtain rfl := Option.some.inj same
      exact codeOf_standsAt checked bus
    · by_cases init : i = .i2cInit b
      · have only {t'} (h : Inits (update cmd t (some ⟨i, codeOf i⟩)) b t') : t' = t := by
          by_contra other
          obtain ⟨d, inside, isInit⟩ := h
          rw [Function.update_of_ne other] at inside
          exact alone init t' ⟨d, inside, isInit⟩
        exact (only h₁).trans (only h₂).symm
      · have before {t'} (h : Inits (update cmd t (some ⟨i, codeOf i⟩)) b t') : Inits cmd b t' :=
          inits_update (fun d same isInit => absurd (by rw [← isInit, ← Option.some.inj same]) init) h
        exact stands.apart t₁ t₂ (before h₁) (before h₂)
  off {t b u cmd x} before after stands := by
    have before {t'} (h : Inits (update cmd t x) b t') : Inits cmd b t' :=
      inits_update (fun c same init => absurd (by rw [init]; rfl) (after c same)) h
    exact ⟨forall_update stands.each (fun c same bus => absurd bus (after c same)),
      fun t₁ t₂ h₁ h₂ => stands.apart t₁ t₂ (before h₁) (before h₂), stands.free⟩
  outside {b u v cmd} same stands := by
    obtain ⟨w, as, y, rfl, -⟩ := same
    exact ⟨stands.each, stands.apart, stands.free⟩

end Sys2Proof.Machine
end

section
/-! PROOFS of the family `other`, the clock, the power-block count and the open transaction of one bus, over what its commands do
(10_state.md R45, R46). -/

namespace Sys2Proof.Machine

open Function (update)

variable {t b pm pm' : Nat} {i : Instr} {s : State} {code : List Micro} {u v : Bus} {c c' : Cmd} {cmd : Nat → Option Cmd}
  {pending : Nat → Cmd → Bool} {lock : Lock}

/-! ### The lock held, corrected (10_state.md R45) -/

/-- `State.settled` of one bus, by its lock. -/
def settledAt (pending : Nat → Cmd → Bool) (b : Nat) (lock : Lock) (cmd : Nat → Option Cmd) : Bool :=
  match lock with
  | .free => false
  | .owned t => !((cmd t).any (pending b))

/-- A task's command that is as pending before as after corrects nothing else. -/
theorem settledAt_update {x : Option Cmd} (same : x.any (pending b) = (cmd t).any (pending b)) :
    settledAt pending b lock (update cmd t x) = settledAt pending b lock cmd := by
  cases lock with
  | free => rfl
  | owned t' =>
    by_cases other : t' = t
    · subst other
      simp [settledAt, same]
    · simp [settledAt, Function.update_of_ne other]

theorem settledAt_move (inside : cmd t = some c) (same : pending b c' = pending b c) :
    settledAt pending b lock (update cmd t (some c')) = settledAt pending b lock cmd :=
  settledAt_update (by rw [inside]; exact same)

theorem settledAt_self (c : Cmd) : settledAt pending b (.owned t) (update cmd t (some c)) = !pending b c := by simp [settledAt]

theorem settledAt_inside (inside : cmd t = some c) : settledAt pending b (.owned t) cmd = !pending b c := by simp [settledAt, inside]

/-- Only a command of one of the two is pending. -/
theorem not_pending (acquire : c.instr ≠ .i2cAcquire b) (release : c.instr ≠ .i2cRelease b) :
    c.clockPending b = false ∧ c.blockPending b = false := by
  simp [Cmd.clockPending, Cmd.blockPending, acquire, release]

theorem not_pending_off (off : c.instr.busOf ≠ some b) : c.clockPending b = false ∧ c.blockPending b = false :=
  not_pending (fun same => off (by rw [same]; rfl)) (fun same => off (by rw [same]; rfl))

theorem not_pending_transfer (transfer : i.isTransfer = true) :
    (⟨i, code⟩ : Cmd).clockPending b = false ∧ (⟨i, code⟩ : Cmd).blockPending b = false :=
  not_pending (by rintro rfl; cases transfer) (by rintro rfl; cases transfer)

/-- A command just issued is not pending. -/
theorem not_pending_codeOf : (⟨i, codeOf i⟩ : Cmd).clockPending b = false ∧ (⟨i, codeOf i⟩ : Cmd).blockPending b = false := by
  constructor <;> simp [Cmd.clockPending, Cmd.blockPending] <;> constructor <;> rintro rfl <;> simp [codeOf, acquireCode, releaseCode]

/-- The clock of an initialised bus is on exactly while its lock is held, as corrected. -/
def Clocked (b : Nat) (u : Bus) (cmd : Nat → Option Cmd) : Prop :=
  u.initDone = true → u.clkEn = settledAt Cmd.clockPending b u.lock cmd

theorem BusMove.clocked (move : BusMove t b c u pm c' v pm') (inside : cmd t = some c) (stands : Stands b u cmd)
    (clocked : Clocked b u cmd) : Clocked b v (update cmd t (some c')) := by
  have own := stands.each t c inside move.busOf
  intro inited
  cases move
  case join =>
    rw [settledAt_move inside (by simp [Cmd.clockPending, acquireCode])]
    exact clocked inited
  case take free =>
    rw [settledAt_self]
    exact (clocked inited).trans (by simp [free, settledAt, Cmd.clockPending, acquireCode])
  case block =>
    rw [settledAt_move inside (by simp [Cmd.clockPending, acquireCode])]
    exact clocked inited
  case clockOn =>
    rw [own.2 (by simp [acquireCode]), settledAt_self]
    simp [Cmd.clockPending, acquireCode]
  case notBusy =>
    rw [settledAt_move inside (by simp [Cmd.clockPending, releaseCode])]
    exact clocked inited
  case clockOff =>
    rw [own.2 (by simp [releaseCode]), settledAt_self]
    simp [Cmd.clockPending, releaseCode]
  case unblock =>
    rw [settledAt_move inside (by simp [Cmd.clockPending, releaseCode])]
    exact clocked inited
  case free =>
    rw [clocked inited, own.2 (by simp [releaseCode]), settledAt_inside inside]
    simp [settledAt, Cmd.clockPending, releaseCode]
  case init code code' move =>
    obtain ⟨begun, lock, -, -, done, -⟩ := move
    have ⟨notInited, off⟩ := own begun
    have free : v.lock = .free := lock.elim (fun same => same.trans (stands.free notInited)) id
    rcases done with same | ⟨-, stopped, same⟩
    · exact absurd (inited.symm.trans (same.trans notInited)) (by simp)
    · rw [free, same]
      exact off stopped
  case transfer i code code' transfer bus initDone lock clkEn grip =>
    rw [settledAt_move inside (by rw [(not_pending_transfer transfer).1, (not_pending_transfer transfer).1]), lock, clkEn]
    exact clocked (initDone.symm.trans inited)

theorem clocked_keeps : LocalKeeps Clocked where
  move move inside stands clocked := move.clocked inside stands clocked
  ends {t b c u cmd} inside settled clocked inited := by
    rw [settledAt_update (by rw [inside]; exact settled.symm)]
    exact clocked inited
  begins {t b i s cmd} _ _ outside _ clocked inited := by
    rw [settledAt_update (by rw [outside]; exact not_pending_codeOf.1)]
    exact clocked inited
  off {t b u cmd x} before after clocked inited := by
    have none_ {y : Option Cmd} (h : ∀ c, y = some c → c.instr.busOf ≠ some b) : y.any (Cmd.clockPending b) = false := by
      cases y with
      | none => rfl
      | some c => exact (not_pending_off (h c rfl)).1
    rw [settledAt_update (by rw [none_ before, none_ after])]
    exact clocked inited
  outside {b u v cmd} same clocked := by
    obtain ⟨w, as, y, rfl, -⟩ := same
    exact clocked

/-- The lock of the bus and the power-block count change together. -/
theorem BusMove.counted (move : BusMove t b c u pm c' v pm') (inside : cmd t = some c) (stands : Stands b u cmd) :
    let held := settledAt Cmd.blockPending b u.lock cmd
    let held' := settledAt Cmd.blockPending b v.lock (update cmd t (some c'))
    pm' = pm ∧ held' = held ∨ pm' = pm + 1 ∧ held = false ∧ held' = true ∨ pm' = pm - 1 ∧ held = true ∧ held' = false := by
  have own := stands.each t c inside move.busOf
  cases move
  case join => exact .inl ⟨rfl, settledAt_move inside (by simp [Cmd.blockPending, acquireCode])⟩
  case take free =>
    refine .inl ⟨rfl, ?_⟩
    rw [settledAt_self, free]
    simp [settledAt, Cmd.blockPending, acquireCode]
  case block =>
    refine .inr (.inl ⟨rfl, ?_⟩)
    rw [own.2 (by simp [acquireCode]), settledAt_inside inside, settledAt_self]
    simp [Cmd.blockPending, acquireCode]
  case clockOn => exact .inl ⟨rfl, settledAt_move inside (by simp [Cmd.blockPending, acquireCode])⟩
  case notBusy | clockOff => exact .inl ⟨rfl, settledAt_move inside (by simp [Cmd.blockPending, releaseCode])⟩
  case unblock =>
    refine .inr (.inr ⟨rfl, ?_⟩)
    rw [own.2 (by simp [releaseCode]), settledAt_inside inside, settledAt_self]
    simp [Cmd.blockPending, releaseCode]
  case free =>
    refine .inl ⟨rfl, ?_⟩
    rw [own.2 (by simp [releaseCode]), settledAt_inside inside]
    simp [settledAt, Cmd.blockPending, releaseCode]
  case init code code' move =>
    have free := stands.free (own move.begun).1
    have free' : v.lock = .free := move.lock.elim (fun same => same.trans free) id
    exact .inl ⟨rfl, by rw [free, free']; rfl⟩
  case transfer i code code' transfer bus initDone lock clkEn grip =>
    refine .inl ⟨rfl, ?_⟩
    rw [lock]
    exact settledAt_move inside (by rw [(not_pending_transfer transfer).2, (not_pending_transfer transfer).2])

/-! ### The open transaction (10_state.md R46) -/

/-- A bus not yet initialised has no transaction open. -/
def Unopened (_ : Nat) (u : Bus) (_ : Nat → Option Cmd) : Prop := u.initDone = false → u.phase = .idle

theorem unopened_keeps : LocalKeeps Unopened where
  move {t b c u pm c' v pm' cmd} move inside stands unopened notInited := by
    obtain ⟨before, init⟩ := move.uninit (stands.each t c inside move.busOf) notInited
    exact (move.initMove init).phase.elim (fun same => same.trans (unopened before)) id
  ends _ _ unopened := unopened
  begins _ _ _ _ unopened := unopened
  off _ _ unopened := unopened
  outside same unopened := by
    obtain ⟨w, as, y, rfl, -⟩ := same
    exact unopened

/-- What 10_state.md R46 needs of a command on bus `b`, `u` the bus: `Cmd.holdsOn` of that bus alone. -/
def Cmd.holdsAt (b : Nat) (u : Bus) (c : Cmd) : Prop :=
  match c.instr with
  | .i2cRead _ _ _ _ _ => gripped u.ctl.master c.code = true
  | .i2cWrite _ _ _ _ _ => gripped u.ctl.master c.code = true
  | .i2cReadRegs _ _ _ _ _ _ => gripped u.ctl.master c.code = true
  | .i2cWriteRegs _ _ _ _ _ _ => gripped u.ctl.master c.code = true
  | .i2cRelease _ => .waitNotBusy b ∉ c.code → .freeLock b ∈ c.code → u.phase = .idle
  | .i2cInit _ => True
  | .i2cAcquire _ => True
  | .sfrPush _ _ => True
  | .sfrRead _ _ _ _ => True
  | .sfrReadUntil _ _ _ _ _ _ => True

theorem holdsOn_iff (bus : c.instr.busOf = some b) : c.holdsOn s ↔ c.holdsAt b (s.bus b) := by
  obtain ⟨i, code⟩ := c
  cases i <;> cases bus <;> rfl

theorem holdsOn_of_noBus (bus : c.instr.busOf = none) : c.holdsOn s := by
  obtain ⟨i, code⟩ := c
  cases i
  case sfrPush | sfrRead | sfrReadUntil => exact trivial
  all_goals cases bus

theorem holdsAt_transfer (transfer : c.instr.isTransfer = true) : c.holdsAt b u ↔ gripped u.ctl.master c.code = true := by
  obtain ⟨i, code⟩ := c
  cases i <;> cases transfer <;> rfl

/-- 10_state.md R46 of one bus and the commands in progress on it. -/
structure Held (b : Nat) (u : Bus) (cmd : Nat → Option Cmd) : Prop where
  ok : gripOk u
  idle : u.initDone = false → u.phase = .idle ∧ u.ctl.master = false
  each : ∀ t c, cmd t = some c → c.instr.busOf = some b → c.holdsAt b u

theorem BusMove.holdsAt (move : BusMove t b c u pm c' v pm') (ok : gripOk u) (holds : c.holdsAt b u) : c'.holdsAt b v := by
  obtain ⟨held, busy⟩ := ok
  cases move
  case join | take | block | clockOn | init => trivial
  case notBusy free =>
    intro _ _
    by_contra open_
    exact absurd (free.symm.trans (held open_).2.2) (by simp)
  case clockOff | unblock => exact fun _ _ => holds (by simp [releaseCode]) (by simp [releaseCode])
  case free => exact fun _ h => absurd h (by simp [releaseCode])
  case transfer i code code' transfer bus initDone lock clkEn grip =>
    rw [holdsAt_transfer transfer] at holds ⊢
    exact (grip holds).1

theorem BusMove.gripOk (move : BusMove t b c u pm c' v pm') (stands : c.standsAt b u t) (holds : c.holdsAt b u) (ok : gripOk u)
    (idle : u.initDone = false → u.phase = .idle ∧ u.ctl.master = false) : gripOk v := by
  have ⟨held, busy⟩ := ok
  cases move
  case join | block | clockOn | notBusy | clockOff | unblock => exact ok
  case take => exact ⟨fun open_ => ⟨by simp, (held open_).2⟩, busy⟩
  case free =>
    have closed : u.phase = .idle := holds (by simp [releaseCode]) (by simp [releaseCode])
    exact ⟨fun open_ => absurd closed open_, busy⟩
  case init code code' move =>
    obtain ⟨closed, notMaster⟩ := idle (stands move.begun).1
    have closed' : v.phase = .idle := move.phase.elim (fun same => same.trans closed) id
    exact ⟨fun open_ => absurd closed' open_, fun master => absurd (master.symm.trans (move.master.trans notMaster)) (by simp)⟩
  case transfer i code code' transfer bus initDone lock clkEn grip =>
    have ⟨_, owned⟩ := (standsAt_transfer transfer).1 stands
    exact (grip ((holdsAt_transfer transfer).1 holds)).2 (by simp [owned]) ok

/-- Of a bus that its owner has to itself a command holds what it did. -/
theorem holdsAt_owned (beside : u.lock = .owned t → u.sameButWaiters v) (stands : c.standsAt b u t) (holds : c.holdsAt b u) :
    c.holdsAt b v := by
  have kept (owned : u.lock = .owned t) : c.holdsAt b v := by
    obtain ⟨w, rfl⟩ := beside owned
    exact holds
  obtain ⟨i, code⟩ := c
  cases i
  case i2cInit | i2cAcquire | sfrPush | sfrRead | sfrReadUntil => trivial
  case i2cRelease => exact fun past ahead => kept (stands.2 ahead) past ahead
  all_goals exact kept stands.2

theorem BusMove.holdsAt_other {t' : Nat} {d : Cmd} (move : BusMove t b c u pm c' v pm') (inside : cmd t = some c)
    (stands : Stands b u cmd) (other : t' ≠ t) (inside' : cmd t' = some d) (bus : d.instr.busOf = some b) (holds : d.holdsAt b u) :
    d.holdsAt b v := by
  have stands' := stands.each t' d inside' bus
  rcases move.beside (stands.each t c inside move.busOf) with ⟨notInited, init⟩ | ⟨-, -, beside⟩
  · exact absurd (stands.apart t' t ⟨d, inside', standsAt_uninit notInited bus stands'⟩ ⟨c, inside, init⟩) other
  · exact holdsAt_owned (beside t' other) stands' holds

/-- A byte transfer relies on no mastership but that of a continuation. -/
theorem gripped_bytes {addr : Addr7} {dir : Dir} {nostart nostop master : Bool} {body : Micro} {len : Nat} (neutral : body.neutral = true)
    (continues : nostart = true → master = true) :
    gripped master (openCode b addr dir nostart ++ body :: endCode b addr dir nostop len) = true := by
  have ends : gripped true (body :: endCode b addr dir nostop len) = true := by
    rw [gripped_neutral neutral]
    cases nostop <;> simp [endCode, stopCode, gripped]
  cases nostart with
  | true =>
    obtain rfl := continues rfl
    exact ends
  | false => exact ends

/-- A continuation needs a transaction held open (42_i2c_transfers.md R103). -/
theorem open_of_continuation {p : Phase} {dir : Dir} {addr : Addr7} (legal : openingInTable true p dir addr = true) : p ≠ .idle := by
  rintro rfl
  cases dir <;> cases legal

/-- A command just issued relies on no mastership that it has not: a continuation finds its transaction held open. -/
theorem codeOf_holdsAt (checked : commandFault s (.task t) i = none) (bus : i.busOf = some b) (held : heldOk (s.bus b)) :
    (⟨i, codeOf i⟩ : Cmd).holdsAt b (s.bus b) := by
  have master {nostart : Bool} {dir : Dir} {addr : Addr7} (legal : openingInTable nostart (s.bus b).phase dir addr = true)
      (continues : nostart = true) : (s.bus b).ctl.master = true := by
    subst continues
    exact (held (open_of_continuation legal)).2.1
  cases i <;> cases bus
  case i2cInit | i2cAcquire => trivial
  case i2cRelease => exact fun past _ => absurd (by simp [codeOf, releaseCode]) past
  case i2cRead addr f len buf =>
    have ⟨_, _, _, legal⟩ := transferFault_none.1 checked
    change gripped _ (readBytesCode b addr f len buf) = true
    unfold readBytesCode
    split
    · rfl
    · exact gripped_bytes rfl (master legal)
  case i2cWrite addr f len buf =>
    have ⟨_, _, _, legal⟩ := transferFault_none.1 checked
    change gripped _ (writeBytesCode b addr f len buf) = true
    unfold writeBytesCode
    split
    · rfl
    · exact gripped_bytes rfl (master legal)
  case i2cReadRegs addr reg f len buf =>
    change gripped _ (readRegsCode b addr reg f len buf) = true
    unfold readRegsCode
    split <;> rfl
  case i2cWriteRegs addr reg f len buf =>
    change gripped _ (writeRegsCode b addr reg f len buf) = true
    unfold writeRegsCode
    split <;> rfl

theorem held_keeps : LocalKeeps Held where
  move {t b c u pm c' v pm' cmd} move inside stands held := by
    obtain ⟨ok, idle, each⟩ := held
    have own := stands.each t c inside move.busOf
    have holds := each t c inside move.busOf
    refine ⟨move.gripOk own holds ok idle, fun notInited => ?_, fun t' d inside' bus => ?_⟩
    · obtain ⟨before, init⟩ := move.uninit own notInited
      obtain ⟨closed, notMaster⟩ := idle before
      have move := move.initMove init
      exact ⟨move.phase.elim (fun same => same.trans closed) id, move.master.trans notMaster⟩
    · by_cases other : t' = t
      · subst other
        rw [Function.update_self] at inside'
        obtain rfl := Option.some.inj inside'
        exact move.holdsAt ok holds
      · rw [Function.update_of_ne other] at inside'
        exact move.holdsAt_other inside stands other inside' bus (each t' d inside' bus)
  ends _ _ held := ⟨held.ok, held.idle, forall_update held.each fun _ none_ => by cases none_⟩
  begins {t b i s cmd} checked bus _ _ held := by
    refine ⟨held.ok, held.idle, forall_update held.each fun c same _ => ?_⟩
    obtain rfl := Option.some.inj same
    exact codeOf_holdsAt checked bus held.ok.1
  off {t b u cmd x} _ after held := ⟨held.ok, held.idle, forall_update held.each fun c same bus => absurd bus (after c same)⟩
  outside {b u v cmd} same held := by
    obtain ⟨⟨open_, busy⟩, idle, each⟩ := held
    obtain ⟨w, as, y, rfl, kept⟩ := same
    refine ⟨⟨fun h => ?_, fun master => ?_⟩, idle, each⟩
    · obtain ⟨lock, master, isBusy⟩ := open_ h
      exact ⟨lock, master, (kept master).trans isBusy⟩
    · exact (kept master).trans (busy master)

end Sys2Proof.Machine
end

section
/-! PROOFS of the family `other`, the invariants of 10_state.md R45 and R46 over a turn: what holds of every bus and of the commands in progress,
while one task's command runs. -/

namespace Sys2Proof.Machine

open Function (update)

variable {t b n : Nat} {i : Instr} {m : Micro} {s s' : State} {code code' rest : List Micro} {c : Cmd} {cmd : Nat → Option Cmd}
  {L M : Nat → Bus → (Nat → Option Cmd) → Prop} {G H : State → (Nat → Option Cmd) → Prop}

/-! ### A micro-step, of the whole state -/

/-- Task `t`, with `m` and then `rest` to run in `s`, comes to `code'` in `s'`. -/
inductive Advances (t : Nat) (m : Micro) (rest : List Micro) (s : State) : List Micro → State → Prop where
  | go {s' : State} {ops : List Micro} : microStep t m s = .go s' ops → Advances t m rest s (ops ++ rest) s'
  | jump {s' : State} {ops : List Micro} : microStep t m s = .jump s' ops → Advances t m rest s ops s'

theorem Advances.fits (adv : Advances t m rest s code' s') (fits : (⟨i, m :: rest⟩ : Cmd).fits) : (⟨i, code'⟩ : Cmd).fits := by
  cases adv with
  | go h => exact fits_go fits h
  | jump h => exact fits_jump fits h

theorem Advances.edit (adv : Advances t m rest s code' s') : MicroEdit t m s s' := by
  cases adv with
  | go h | jump h => exact microStep_edit (by rw [h]; rfl)

theorem Advances.busMove (adv : Advances t m rest s code' s') (fits : (⟨i, m :: rest⟩ : Cmd).fits) (bus : i.busOf = some b)
    (hb : b < s.buses.length) :
    BusMove t b ⟨i, m :: rest⟩ (s.bus b) s.pmDeepBlocks ⟨i, code'⟩ (s'.bus b) s'.pmDeepBlocks := by
  cases adv with
  | go h => exact busMove_go hb fits bus h
  | jump h => exact busMove_jump hb fits bus h

theorem Advances.bus_other (adv : Advances t m rest s code' s') (fits : (⟨i, m :: rest⟩ : Cmd).fits) (other : i.busOf ≠ some b) :
    s'.bus b = s.bus b := by
  refine adv.edit.bus_eq ?_
  rcases fits_bus fits m (List.mem_cons_self ..) with bus | bus <;> rw [bus]
  · exact other
  · simp

/-- A serial command leaves the power-block count. -/
theorem Advances.pm_serial (adv : Advances t m rest s code' s') (fits : (⟨i, m :: rest⟩ : Cmd).fits) (serial : i.busOf = none) :
    s'.pmDeepBlocks = s.pmDeepBlocks := by
  have notBlock : m ≠ .pmBlock ∧ m ≠ .pmUnblock := by
    cases i <;> cases serial
    case sfrPush => exact fits.elim
    all_goals
      have head := fits m (List.mem_cons_self ..)
      constructor <;> rintro rfl <;> cases head
  cases adv.edit with
  | block h => exact absurd h notBlock.1
  | unblock h => exact absurd h notBlock.2
  | nothing | bus | free | reader | store => rfl

/-- A command that ends is not pending. -/
theorem not_pending_end (fits : (⟨i, m :: rest⟩ : Cmd).fits) (ends : (∃ res, m = .ret res) ∨ ∃ r, m = .enterRead r) (b : Nat) :
    (⟨i, m :: rest⟩ : Cmd).clockPending b = false ∧ (⟨i, m :: rest⟩ : Cmd).blockPending b = false := by
  by_cases acquire : i = .i2cAcquire b
  · subst acquire
    simp only [Cmd.fits, acquireCode, List.suffix_cons_iff, List.suffix_nil, List.cons.injEq, reduceCtorEq, or_false] at fits
    rcases fits with ⟨rfl, rfl⟩ | ⟨rfl, rfl⟩ | ⟨rfl, rfl⟩ | ⟨rfl, rfl⟩ | ⟨rfl, rfl⟩
    case inr.inr.inr.inr => simp [Cmd.clockPending, Cmd.blockPending]
    all_goals simp at ends
  by_cases release : i = .i2cRelease b
  · subst release
    simp only [Cmd.fits, releaseCode, List.suffix_cons_iff, List.suffix_nil, List.cons.injEq, reduceCtorEq, or_false] at fits
    rcases fits with ⟨rfl, rfl⟩ | ⟨rfl, rfl⟩ | ⟨rfl, rfl⟩ | ⟨rfl, rfl⟩ | ⟨rfl, rfl⟩
    case inr.inr.inr.inr => simp [Cmd.clockPending, Cmd.blockPending]
    all_goals simp at ends
  exact not_pending acquire release

/-! ### What holds of the state and the commands in progress -/

/-- The commands in progress. -/
def State.cmds (s : State) (t : Nat) : Option Cmd := (s.task t).cmd

/-- Every command in progress is somewhere it can be, on a bus that exists. -/
structure Standing (s : State) (cmd : Nat → Option Cmd) : Prop where
  fit : ∀ t c, cmd t = some c → c.fits
  onBus : ∀ t c, cmd t = some c → ∀ b, c.instr.busOf = some b → b < s.buses.length
  stands : ∀ b, b < s.buses.length → Stands b (s.bus b) cmd

/-- What a state and the commands in progress keep: over a micro-step, the end of a command, its issue, and what does not change the buses but as
the environment may. -/
structure GlobalKeeps (G : State → (Nat → Option Cmd) → Prop) : Prop where
  micro : ∀ {t i m rest s code' s' cmd}, Standing s cmd → cmd t = some ⟨i, m :: rest⟩ → Advances t m rest s code' s' → G s cmd →
    G s' (update cmd t (some ⟨i, code'⟩))
  ends : ∀ {t c s cmd}, cmd t = some c → (∀ b, c.clockPending b = false ∧ c.blockPending b = false) → G s cmd → G s (update cmd t none)
  begins : ∀ {t i s cmd}, commandFault s (.task t) i = none → cmd t = none → (∀ b, i = .i2cInit b → ∀ t', ¬ Inits cmd b t') →
    G s cmd → G s (update cmd t (some ⟨i, codeOf i⟩))
  outside : ∀ {s s' cmd}, s'.buses.length = s.buses.length → s'.pmDeepBlocks = s.pmDeepBlocks →
    (∀ b, (s.bus b).sameButOutside (s'.bus b)) → G s cmd → G s' cmd

theorem LocalKeeps.everywhere (K : LocalKeeps L) : GlobalKeeps fun s cmd => ∀ b, b < s.buses.length → L b (s.bus b) cmd where
  micro {t i m rest s code' s' cmd} standing inside adv each b hb := by
    rw [adv.edit.buses_length] at hb
    have fits := standing.fit t _ inside
    by_cases bus : i.busOf = some b
    · exact K.move (adv.busMove fits bus hb) inside (standing.stands b hb) (each b hb)
    · rw [adv.bus_other fits bus]
      refine K.off (fun c h => ?_) (fun c h => ?_) (each b hb)
      · rw [inside] at h
        obtain rfl := Option.some.inj h
        exact bus
      · obtain rfl := Option.some.inj h
        exact bus
  ends inside settled each b hb := K.ends inside (settled b).1 (each b hb)
  begins {t i s cmd} checked outside alone each b hb := by
    by_cases bus : i.busOf = some b
    · exact K.begins checked bus outside (alone b) (each b hb)
    · refine K.off (fun c h => ?_) (fun c h => ?_) (each b hb)
      · rw [outside] at h
        cases h
      · obtain rfl := Option.some.inj h
        exact bus
  outside len _ same each b hb := K.outside (same b) (each b (len ▸ hb))

theorem GlobalKeeps.and (K : GlobalKeeps G) (K' : GlobalKeeps H) : GlobalKeeps fun s cmd => G s cmd ∧ H s cmd where
  micro standing inside adv both := ⟨K.micro standing inside adv both.1, K'.micro standing inside adv both.2⟩
  ends inside settled both := ⟨K.ends inside settled both.1, K'.ends inside settled both.2⟩
  begins checked outside alone both := ⟨K.begins checked outside alone both.1, K'.begins checked outside alone both.2⟩
  outside len pm same both := ⟨K.outside len pm same both.1, K'.outside len pm same both.2⟩

theorem standing_keeps : GlobalKeeps Standing where
  micro {t i m rest s code' s' cmd} standing inside adv _ := by
    refine ⟨forall_update standing.fit fun c h => ?_, forall_update (fun t c h b bus => ?_) fun c h b bus => ?_,
      stands_keeps.everywhere.micro standing inside adv standing.stands⟩
    · obtain rfl := Option.some.inj h
      exact adv.fits (standing.fit t _ inside)
    · rw [adv.edit.buses_length]
      exact standing.onBus t c h b bus
    · obtain rfl := Option.some.inj h
      rw [adv.edit.buses_length]
      exact standing.onBus t _ inside b bus
  ends inside settled standing := ⟨forall_update standing.fit (fun _ h => by cases h), forall_update standing.onBus (fun _ h => by cases h),
    stands_keeps.everywhere.ends inside settled standing.stands⟩
  begins {t i s cmd} checked outside alone standing := by
    refine ⟨forall_update standing.fit fun c h => ?_, forall_update standing.onBus fun c h b bus => ?_,
      stands_keeps.everywhere.begins checked outside alone standing.stands⟩
    · obtain rfl := Option.some.inj h
      exact codeOf_fits checked
    · obtain rfl := Option.some.inj h
      exact (checked_bus checked bus).1
  outside len pm same standing := ⟨standing.fit, fun t c h b bus => len ▸ standing.onBus t c h b bus,
    stands_keeps.everywhere.outside len pm same standing.stands⟩

/-! ### The power-block count -/

/-- The power-block count is the number of held locks, as corrected. -/
def Counted (s : State) (cmd : Nat → Option Cmd) : Prop :=
  s.pmDeepBlocks = (List.range s.buses.length).countP fun b => settledAt Cmd.blockPending b (s.bus b).lock cmd

/-- Counts that differ at one place. -/
theorem countP_range_of_ne {p q : Nat → Bool} (hb : b < n) (same : ∀ j, j ≠ b → q j = p j) :
    (List.range n).countP q + (p b).toNat = (List.range n).countP p + (q b).toNat := by
  induction n with
  | zero => omega
  | succ n ih =>
    rw [List.range_succ, List.countP_append, List.countP_append, List.countP_singleton, List.countP_singleton]
    by_cases last : b = n
    · subst last
      have before : (List.range b).countP q = (List.range b).countP p :=
        List.countP_congr fun j hj => by rw [same j (by simp at hj; omega)]
      rw [before]
      cases p b <;> cases q b <;> simp
    · have := ih (by omega)
      rw [same n (Ne.symm last)]
      omega

/-- The count is unchanged where every bus is. -/
theorem counted_of_eq {cmd' : Nat → Option Cmd} (len : s'.buses.length = s.buses.length) (pm : s'.pmDeepBlocks = s.pmDeepBlocks)
    (same : ∀ b, settledAt Cmd.blockPending b (s'.bus b).lock cmd' = settledAt Cmd.blockPending b (s.bus b).lock cmd)
    (counted : Counted s cmd) : Counted s' cmd' := by
  unfold Counted
  rw [len, pm, counted]
  exact List.countP_congr fun b _ => by rw [same b]

theorem counted_keeps : GlobalKeeps Counted where
  micro {t i m rest s code' s' cmd} standing inside adv counted := by
    have fits := standing.fit t _ inside
    have elsewhere {j : Nat} (off : i.busOf ≠ some j) : settledAt Cmd.blockPending j (s'.bus j).lock (update cmd t (some ⟨i, code'⟩)) =
        settledAt Cmd.blockPending j (s.bus j).lock cmd := by
      rw [adv.bus_other fits off]
      exact settledAt_move inside (by rw [(not_pending_off off).2, (not_pending_off off).2])
    cases bus : i.busOf with
    | none => exact counted_of_eq adv.edit.buses_length (adv.pm_serial fits bus) (fun j => elsewhere (by simp [bus])) counted
    | some b =>
      have hb := standing.onBus t _ inside b bus
      have count := countP_range_of_ne (p := fun j => settledAt Cmd.blockPending j (s.bus j).lock cmd) hb
        fun j other => elsewhere (j := j) (by simpa [bus] using other.symm)
      unfold Counted at counted ⊢
      rw [adv.edit.buses_length]
      rcases (adv.busMove fits bus hb).counted inside (standing.stands b hb) with ⟨pm, same⟩ | ⟨pm, before, after⟩ | ⟨pm, before, after⟩
      · simp only [same] at count
        omega
      · simp only [before, after, Bool.toNat_true, Bool.toNat_false] at count
        omega
      · simp only [before, after, Bool.toNat_true, Bool.toNat_false] at count
        omega
  ends {t c s cmd} inside settled := counted_of_eq rfl rfl fun b => settledAt_update (by rw [inside]; exact (settled b).2.symm)
  begins {t i s cmd} _ outside _ := counted_of_eq rfl rfl fun b => settledAt_update (by rw [outside]; exact not_pending_codeOf.2)
  outside len pm same := counted_of_eq len pm fun b => by rw [(same b).kept.2.1]

/-! ### A turn -/

/-- What a task's turn leaves, where it keeps what holds of the state and the commands in progress. -/
def Kept (G : State → (Nat → Option Cmd) → Prop) (s : State) : Prop := Standing s s.cmds ∧ G s s.cmds

theorem cmds_setTask {k : Task} (ht : t < s.tasks.length) : (s.setTask t k).cmds = update s.cmds t k.cmd := by
  funext j
  by_cases same : j = t
  · subst same
    simp [State.cmds, ht]
  · rw [Function.update_of_ne same, State.cmds, setTask_task_ne _ _ _ _ (Ne.symm same)]
    rfl

/-- A state with other tasks is no other where the commands in progress are the same. -/
theorem GlobalKeeps.kept_of_buses_eq (K : GlobalKeeps G) (standing : Standing s cmd) (good : G s cmd) (buses : s'.buses = s.buses)
    (pm : s'.pmDeepBlocks = s.pmDeepBlocks) (cmds : s'.cmds = cmd) : Kept G s' := by
  subst cmds
  have same (b : Nat) : (s.bus b).sameButOutside (s'.bus b) := by
    rw [State.bus, State.bus, buses]
    exact .refl _
  exact ⟨standing_keeps.outside (by rw [buses]) pm same standing, K.outside (by rw [buses]) pm same good⟩

theorem GlobalKeeps.runCode (K : GlobalKeeps G) (ht : t < s.tasks.length) (standing : Standing s (update s.cmds t (some ⟨i, code⟩)))
    (good : G s (update s.cmds t (some ⟨i, code⟩))) : Kept G (runCode t i n code s) := by
  have cmds {s' : State} {k : Task} (tasks : s'.tasks = s.tasks) : (s'.setTask t k).cmds = update s.cmds t k.cmd := by
    rw [cmds_setTask (by rwa [tasks])]
    congr 1
    funext j
    rw [State.cmds, State.task, tasks]
    rfl
  refine runCode_keeps_code (P := fun code s' => s'.tasks = s.tasks ∧ Standing s' (update s.cmds t (some ⟨i, code⟩)) ∧
    G s' (update s.cmds t (some ⟨i, code⟩))) (R := Kept G) (fun m rest s₁ ⟨tasks, standing, good⟩ => ?_)
    (fun code s₁ ⟨tasks, standing, good⟩ => K.kept_of_buses_eq standing good rfl rfl (cmds tasks)) n code s ⟨rfl, standing, good⟩
  have inside : update s.cmds t (some ⟨i, m :: rest⟩) t = some ⟨i, m :: rest⟩ := Function.update_self ..
  have advances {code' s₂} (adv : Advances t m rest s₁ code' s₂) : s₂.tasks = s.tasks ∧
      Standing s₂ (update s.cmds t (some ⟨i, code'⟩)) ∧ G s₂ (update s.cmds t (some ⟨i, code'⟩)) := by
    have standing' := standing_keeps.micro standing inside adv standing
    have good' := K.micro standing inside adv good
    rw [Function.update_idem] at standing' good'
    exact ⟨adv.edit.tasks_eq.trans tasks, standing', good'⟩
  have ended (ends : (∃ res, m = .ret res) ∨ ∃ r, m = .enterRead r) : Standing s₁ (update s.cmds t none) ∧ G s₁ (update s.cmds t none) := by
    have settled := not_pending_end (standing.fit t _ inside) ends
    have standing' := standing_keeps.ends inside settled standing
    have good' := K.ends inside settled good
    rw [Function.update_idem] at standing' good'
    exact ⟨standing', good'⟩
  refine ⟨fun _ _ h => advances (.go h), fun _ _ h => advances (.jump h), fun s₂ h => ?_, fun f h => ?_⟩
  · obtain ⟨res, isRet, rfl⟩ := microStep_done h
    obtain ⟨standing', good'⟩ := ended (.inl ⟨res, isRet⟩)
    exact K.kept_of_buses_eq standing' good' rfl rfl (cmds tasks)
  · obtain ⟨r, enters, -⟩ := microStep_raise h
    obtain ⟨standing', good'⟩ := ended (.inr ⟨r, enters⟩)
    have raised : (s₁.raiseInside f t i.word0).cmds = update s.cmds t none := by
      refine Eq.trans ?_ (cmds (k := { s₁.task t with cmd := none }) tasks)
      funext j
      rw [State.cmds, State.raiseInside, raise_task]
      rfl
    refine K.kept_of_buses_eq standing' good' ?_ ?_ raised
    all_goals
      unfold State.raiseInside State.raise
      split <;> rfl

/-- The turn that issues a command. -/
theorem GlobalKeeps.issue (K : GlobalKeeps G) (ht : t < s.tasks.length) (checked : commandFault s (.task t) i = none)
    (outside : s.cmds t = none) (alone : ∀ b, i = .i2cInit b → ∀ t', ¬ Inits s.cmds b t') (kept : Kept G s) :
    Kept G (Machine.runCode t i n (codeOf i) s) :=
  K.runCode ht (standing_keeps.begins checked outside alone kept.1) (K.begins checked outside alone kept.2)

/-- A later turn of a task inside a command. -/
theorem GlobalKeeps.resume (K : GlobalKeeps G) (inside : s.cmds t = some c) (kept : Kept G s) :
    Kept G (Machine.runCode t c.instr n c.code s) := by
  have same : update s.cmds t (some ⟨c.instr, c.code⟩) = s.cmds := by
    rw [← inside, Function.update_eq_self]
  exact K.runCode (exists_of_cmd inside) (by rw [same]; exact kept.1) (by rw [same]; exact kept.2)

theorem GlobalKeeps.moves (K : GlobalKeeps G) (alone : s.initNotDoubled) (moves : Moves s s') (kept : Kept G s) : Kept G s' := by
  have ⟨standing, good⟩ := kept
  have outside {s' : State} (len : s'.buses.length = s.buses.length) (pm : s'.pmDeepBlocks = s.pmDeepBlocks) (tasks : s'.tasks = s.tasks)
      (same : ∀ b, (s.bus b).sameButOutside (s'.bus b)) : Kept G s' := by
    have cmds : s'.cmds = s.cmds := by
      funext j
      rw [State.cmds, State.task, tasks]
      rfl
    rw [Kept, cmds]
    exact ⟨standing_keeps.outside len pm same standing, K.outside len pm same good⟩
  cases moves with
  | idle => exact kept
  | fault | push | clock => exact outside rfl rfl rfl fun b => .refl _
  | resume t n c _ _ inside => exact K.resume inside kept
  | issue t n d i turn exists_ notInside fetched decoded checked =>
    refine K.issue exists_ checked notInside (fun b init t' ⟨c, inside, isInit⟩ => ?_) kept
    subst init
    exact alone t n d b t' c turn notInside fetched decoded inside isInit
  | answer c a => exact outside List.length_set rfl rfl (setBus_related .refl ⟨_, _, (s.bus c).ctl.busy, rfl, fun _ => rfl⟩)
  | busy c v =>
    cases master : (s.bus c).ctl.master with
    | true => rwa [envBusy_of_master master]
    | false =>
      rw [envBusy_of_not_master master]
      exact outside List.length_set rfl rfl (setBus_related .refl ⟨_, _, v, rfl, by simp [master]⟩)
  | store a v =>
    unfold State.hostStore
    split
    · exact outside rfl rfl rfl fun b => .refl _
    · exact kept

theorem GlobalKeeps.step (K : GlobalKeeps G) (alone : s.initNotDoubled) (h : step s = .next s') (kept : Kept G s) : Kept G s' := by
  obtain ⟨-, s₁, moves, rfl⟩ := step_moves h
  obtain ⟨us, k, ended⟩ := endTurn_eq s₁
  rw [ended]
  obtain ⟨standing, good⟩ := K.moves alone moves kept
  exact K.kept_of_buses_eq standing good rfl rfl rfl

end Sys2Proof.Machine
end

section
/-! PROOFS of the family `other`, the invariants of 10_state.md R45 and R46 over every step. -/

namespace Sys2Proof.Machine

variable {t n : Nat} {i : Instr} {s s' : State}

/-! ### The invariants, bus by bus -/

theorem placed_iff : s.placed ↔ Kept (fun s cmd => ∀ b, b < s.buses.length → Unopened b (s.bus b) cmd) s := by
  constructor
  · rintro ⟨fit, stand, apart, uninit⟩
    refine ⟨⟨fit, fun t c inside b bus => ((mayStand_iff bus).1 (stand t c inside)).1, fun b hb => ?_⟩,
      fun b hb notInited => (uninit b hb notInited).2⟩
    exact ⟨fun t c inside bus => ((mayStand_iff bus).1 (stand t c inside)).2,
      fun t t' ⟨c, inside, init⟩ ⟨c', inside', init'⟩ => apart t t' b c c' inside inside' init init',
      fun notInited => (uninit b hb notInited).1⟩
  · rintro ⟨⟨fit, onBus, stands⟩, unopened⟩
    refine ⟨fit, fun t c inside => ?_, fun t t' b c c' inside inside' init init' => ?_,
      fun b hb notInited => ⟨(stands b hb).free notInited, unopened b hb notInited⟩⟩
    · cases bus : c.instr.busOf with
      | none => exact mayStand_of_noBus bus
      | some b =>
        have hb := onBus t c inside b bus
        exact (mayStand_iff bus).2 ⟨hb, (stands b hb).each t c inside bus⟩
    · have hb : b < s.buses.length := onBus t c inside b (by rw [init]; rfl)
      exact (stands b hb).apart t t' ⟨c, inside, init⟩ ⟨c', inside', init'⟩

/-- 10_state.md R45 of a state and the commands in progress. -/
def Powered (s : State) (cmd : Nat → Option Cmd) : Prop := (∀ b, b < s.buses.length → Clocked b (s.bus b) cmd) ∧ Counted s cmd

theorem powered_keeps : GlobalKeeps Powered := clocked_keeps.everywhere.and counted_keeps

theorem powerTrue_iff : s.powerTrue ↔ Powered s s.cmds := Iff.rfl

theorem heldTrue_iff (standing : Standing s s.cmds) (unopened : ∀ b, b < s.buses.length → Unopened b (s.bus b) s.cmds) :
    s.heldTrue ↔ ∀ b, b < s.buses.length → Held b (s.bus b) s.cmds := by
  constructor
  · rintro ⟨buses, holds⟩ b hb
    obtain ⟨held, busy, notMaster⟩ := buses b hb
    exact ⟨⟨held, busy⟩, fun notInited => ⟨unopened b hb notInited, notMaster notInited⟩,
      fun t c inside bus => (holdsOn_iff bus).1 (holds t c inside)⟩
  · intro each
    refine ⟨fun b hb => ?_, fun t c inside => ?_⟩
    · obtain ⟨⟨held, busy⟩, idle, -⟩ := each b hb
      exact ⟨held, busy, fun notInited => (idle notInited).2⟩
    · cases bus : c.instr.busOf with
      | none => exact holdsOn_of_noBus bus
      | some b => exact (holdsOn_iff bus).2 ((each b (standing.onBus t c inside b bus)).each t c inside bus)

/-! ### Between the commands -/

/-- The places of a list, counted. -/
theorem countP_range_getD {α : Type} (l : List α) (d : α) (p : α → Bool) :
    (List.range l.length).countP (fun j => p (l.getD j d)) = l.countP p := by
  have same : (List.range l.length).map (fun j => l.getD j d) = l := by
    refine List.ext_getElem (by simp) fun j h h' => ?_
    simp [h']
  calc _ = ((List.range l.length).map fun j => l.getD j d).countP p := List.countP_map.symm
    _ = l.countP p := by rw [same]

/-- Where no task is between the halves of an acquire or release, a lock is held as it stands. -/
theorem settled_between {pending : Nat → Cmd → Bool} (none_ : ∀ t c b, (s.task t).cmd = some c → pending b c = false) (b : Nat) :
    s.settled pending b = decide ((s.bus b).lock ≠ .free) := by
  unfold State.settled
  cases (s.bus b).lock with
  | free => rfl
  | owned t =>
    cases inside : (s.task t).cmd with
    | none => simp [inside]
    | some c => simp [inside, none_ t c b inside]

theorem powerTrue_between (between : s.betweenPairs) : s.powerTrue ↔
    (∀ b, b < s.buses.length → (s.bus b).initDone = true → (s.bus b).clkEn = decide ((s.bus b).lock ≠ .free)) ∧
      s.pmDeepBlocks = s.heldLocks := by
  have none_ (t : Nat) (c : Cmd) (b : Nat) (inside : (s.task t).cmd = some c) :=
    not_pending (between t c b inside).1 (between t c b inside).2
  have locks : (List.range s.buses.length).countP (s.settled Cmd.blockPending) = s.heldLocks := by
    rw [State.heldLocks, ← countP_range_getD s.buses default]
    exact List.countP_congr fun b _ => by
      rw [settled_between (fun t c b inside => (none_ t c b inside).2)]
      rfl
  unfold State.powerTrue
  rw [locks]
  simp only [settled_between fun t c b inside => (none_ t c b inside).1]

/-- Where no task is inside a command, none is. -/
theorem quiet_iff : s.quiet ↔ ∀ t, (s.task t).cmd = none := by
  constructor
  · intro quiet t
    by_cases ht : t < s.tasks.length
    · rw [State.task, List.getD_eq_getElem _ _ ht]
      exact quiet _ (List.getElem_mem ht)
    · rw [State.task, List.getD_eq_default _ _ (not_lt.1 ht)]
      rfl
  · intro none_ k hk
    obtain ⟨t, ht, rfl⟩ := List.getElem_of_mem hk
    have := none_ t
    rwa [State.task, List.getD_eq_getElem _ _ ht] at this

/-- 10_state.md R45 where no task is inside a command. -/
theorem powerOk_iff (quiet : s.quiet) : s.powerOk ↔ Kept Powered s := by
  have none_ := quiet_iff.1 quiet
  have notInside {t : Nat} {c : Cmd} (inside : s.cmds t = some c) : False := by
    rw [State.cmds, none_ t] at inside
    cases inside
  have power := powerTrue_between (s := s) fun t c b inside => (notInside inside).elim
  have each {p : Bus → Prop} : (∀ u ∈ s.buses, p u) ↔ ∀ b, b < s.buses.length → p (s.bus b) := by
    constructor
    · exact fun h b hb => h _ (bus_mem hb)
    · intro h u hu
      obtain ⟨b, hb, rfl⟩ := List.getElem_of_mem hu
      have := h b hb
      rwa [State.bus, List.getD_eq_getElem _ _ hb] at this
  rw [State.powerOk, each, Kept, ← powerTrue_iff, power]
  constructor
  · rintro ⟨buses, count⟩
    exact ⟨⟨fun t c inside => (notInside inside).elim, fun t c inside => (notInside inside).elim, fun b hb =>
      ⟨fun t c inside => (notInside inside).elim, fun t t' ⟨c, inside, _⟩ => (notInside inside).elim, (buses b hb).2⟩⟩,
      fun b hb => (buses b hb).1, count⟩
  · rintro ⟨standing, clocks, count⟩
    exact ⟨fun b hb => ⟨clocks b hb, (standing.stands b hb).free⟩, count⟩

theorem exec_kept (moves : s.taskMoves t n) (quiet : s.quiet) (kept : Kept Powered s) (h : exec i s = .next s') : Kept Powered s' := by
  have ⟨turn, _, exists_⟩ := moves
  have none_ := quiet_iff.1 quiet
  rcases exec_cases h with ⟨c, g, rfl⟩ | ⟨t', n', issuer, checked, rfl⟩ | ⟨g, n', r, v, issuer, -⟩
  · exact powered_keeps.kept_of_buses_eq kept.1 kept.2 rfl rfl rfl
  · obtain ⟨rfl, rfl⟩ : t = t' ∧ n = n' := by simpa [State.issuer, turn] using issuer
    refine powered_keeps.issue exists_ checked (none_ t) (fun b _ t' ⟨c, inside, _⟩ => ?_) kept
    rw [State.cmds, none_ t'] at inside
    cases inside
  · simp [State.issuer, turn] at issuer

end Sys2Proof.Machine

namespace Sys2Proof

open Machine

/-- Settles O22. -/
theorem powerInvariantKept : Obligations.PowerInvariantKept := by
  refine ⟨fun s s' placed power alone h => ?_, fun s power between => (powerTrue_between between).1 power,
    fun i s s' t n moves quiet power h quiet' => ?_⟩
  · have ⟨standing, unopened⟩ := placed_iff.1 placed
    have ⟨standing', unopened', power'⟩ :=
      (unopened_keeps.everywhere.and powered_keeps).step alone h ⟨standing, unopened, powerTrue_iff.1 power⟩
    exact ⟨placed_iff.2 ⟨standing', unopened'⟩, powerTrue_iff.2 power'⟩
  · exact (powerOk_iff quiet').2 (exec_kept moves quiet ((powerOk_iff quiet).1 power) h)

/-- Settles O23. -/
theorem stepKeepsHeldTransactions : Obligations.StepKeepsHeldTransactions := by
  intro s s' placed held alone h
  have ⟨standing, unopened⟩ := placed_iff.1 placed
  have ⟨standing', unopened', each⟩ :=
    (unopened_keeps.everywhere.and held_keeps.everywhere).step alone h ⟨standing, unopened, (heldTrue_iff standing unopened).1 held⟩
  refine ⟨(heldTrue_iff standing' unopened').2 each, fun b => ?_⟩
  by_cases hb : b < s'.buses.length
  · exact (each b hb).ok.1
  · rw [bus_of_le (not_lt.1 hb)]
    exact fun open_ => absurd rfl open_

end Sys2Proof
end
